-- ==== Sys2Proof/Word.lean ====
section
/-! DEFINITION. The one word type of the block: every access moves one byte (spec/20_memory.md R40). Indices and lengths are
naturals (spec/00_scope.md R6, log 2). -/

namespace Sys2Proof

/-- One byte of a memory, a table or the command register (R7, R40). -/
abbrev Byte := BitVec 8

end Sys2Proof
end

