-- ==== Sys2Proof/Machine/Tables.lean ====
section
/-! DEFINITION. The byte constants of spec/00_scope.md R5, the five tables of spec/40_tables.md R81 to R85 as total functions
on their index types, and the sizing function of spec/42_encode.md R150. -/

namespace Sys2Proof.Machine

/-- `=` (R5). -/
abbrev bEsc : Byte := 0x3D#8
/-- CR (R5). -/
abbrev bCr : Byte := 0x0D#8
/-- LF (R5). -/
abbrev bLf : Byte := 0x0A#8
/-- SP (R5). -/
abbrev bSp : Byte := 0x20#8
/-- `_` (R5). -/
abbrev bUsc : Byte := 0x5F#8
/-- TAB (R5; the code is ASCII's, G1, log 23). -/
abbrev bTab : Byte := 0x09#8

/-- The bound of the encoder's soft-line-break test (R5, R134). -/
abbrev lineLimit : Nat := 76
/-- The divisor of the sizing formula (R5, R150). -/
abbrev wrapCols : Nat := 75

/-- SP or TAB: what PADCHK walks over (R103) and FLUSHWS re-emits (R137). -/
def isPad (b : Byte) : Bool := b == bTab || b == bSp

/-- TDEC (R81): hex value plus one at the ASCII hex digits of either case (D11), 0 elsewhere. -/
def tdec (c : Byte) : Byte :=
  if 0x30#8 ≤ c ∧ c ≤ 0x39#8 then (c - 0x30#8) + 1#8
  else if 0x41#8 ≤ c ∧ c ≤ 0x46#8 then (c - 0x41#8) + 10#8 + 1#8
  else if 0x61#8 ≤ c ∧ c ≤ 0x66#8 then (c - 0x61#8) + 10#8 + 1#8
  else 0#8

/-- HEXCHAR (R82): the upper-case digit character of a four-bit value. -/
def hexChar (d : BitVec 4) : Byte :=
  if d ≤ 9#4 then 0x30#8 + d.setWidth 8 else 0x41#8 + (d.setWidth 8 - 10#8)

/-- TENC (R82), 512 entries: the high digit of v at 2v, the low digit at 2v + 1. -/
def tenc (i : BitVec 9) : Byte :=
  if i.getLsbD 0 then hexChar (i.extractLsb' 1 4) else hexChar (i.extractLsb' 5 4)

/-- TLIT (R83): 1 at the literals of standard mode. -/
def tlit (c : Byte) : Byte :=
  if c = bTab ∨ (0x20#8 ≤ c ∧ c ≤ 0x3C#8) ∨ (0x3E#8 ≤ c ∧ c ≤ 0x7E#8 ∧ c ≠ bUsc) then 1#8 else 0#8

/-- TLEGAL (R84): 1 at the literals of standard mode, `=` and `_`. -/
def tlegal (c : Byte) : Byte :=
  if tlit c = 1#8 ∨ c = bEsc ∨ c = bUsc then 1#8 else 0#8

/-- TLITR (R85): 1 at `0-9A-Za-z`. -/
def tlitr (c : Byte) : Byte :=
  if (0x30#8 ≤ c ∧ c ≤ 0x39#8) ∨ (0x41#8 ≤ c ∧ c ≤ 0x5A#8) ∨ (0x61#8 ≤ c ∧ c ≤ 0x7A#8) then 1#8 else 0#8

/-- LITTAB (R131): TLITR in Q mode, TLIT in standard mode. -/
def litTab (q : Bool) (c : Byte) : Byte := if q then tlitr c else tlit c

/-- ETL (R150): the capacity an encode command needs for n source bytes. `ceil(3n / 75)` is `(3n + 74) / 75` and
`max(lines - 1, 0)` is the truncated difference (R169 d). -/
def etl (n : Nat) : Nat :=
  let lines := (3 * n + (wrapCols - 1)) / wrapCols
  let softBreaks := lines - 1
  3 * n + 3 * softBreaks

end Sys2Proof.Machine
end

