-- ==== Sys2Proof/Syntax.lean ====
section
/-! DEFINITION. The instructions: one constructor per row of spec/opcode_table.json, operands already decoded, and the three
line terminators and the decoding contexts they need. -/

namespace Sys2Proof

/-- The three line terminators of the decoder (R9, R62 priorities 2a and 2b). -/
inductive Term where
  | crlf
  | cr
  | lf
  deriving DecidableEq, Repr

/-- The instructions of the block. -/
inductive Instr where
  /-- DEC (R100): decode, standard mode -/
  | dec
  /-- ENC (R130): encode, standard mode -/
  | enc
  /-- DECQ (R100): decode, Q mode -/
  | decq
  /-- ENCQ (R130): encode, Q mode -/
  | encq
  /-- D.ESC (R102): `=` and the two hex digit characters h (high) and g (low) -/
  | dEsc (h g : Byte)
  /-- D.SOFT (R104): a line terminator that PADCHK finds to be a soft line break -/
  | dSoft (t : Term)
  /-- D.HARD (R105): a line terminator that PADCHK finds to be a hard one -/
  | dHard (t : Term)
  /-- D.USC (R106): `_` in Q mode -/
  | dUsc
  /-- D.LIT (R107): the legal byte b -/
  | dLit (b : Byte)
  /-- D.DROP (R108): the illegal byte b -/
  | dDrop (b : Byte)
  /-- D.EOB (R109): the decoder's end-of-buffer check -/
  | dEob
  /-- PADCHK (R103) -/
  | padchk
  /-- E.LIT (R132): the literal b -/
  | eLit (b : Byte)
  /-- E.CRLF (R133): a CR LF pair, standard mode -/
  | eCrlf
  /-- E.SYM (R136): any other byte v -/
  | eSym (v : Byte)
  /-- E.EOB (R138): the encoder's end-of-buffer flush -/
  | eEob
  /-- SOFTBRK(k) (R134), k in 1, 3 -/
  | softbrk (k : Nat)
  /-- SYMBOL(v) (R135) -/
  | symbol (v : Byte)
  /-- FLUSHWS (R137) -/
  | flushws
  deriving DecidableEq, Repr

/-- What bytes are decoded as: a byte written to CMD (R60); the source bytes from SI on, as the decoder reads them (R63;
`soft` is PADCHK's answer at SI, which depends on the bytes before SI); the same as the encoder reads them (R65). -/
inductive Ctx where
  | cmd
  | dec (q soft : Bool)
  | enc (q : Bool)
  deriving DecidableEq, Repr

end Sys2Proof
end

