-- ==== Sys2Proof/Machine/Operands.lean ====
section
/-! DEFINITION. Operand assembly: the escape value (spec/30_encoding.md R64), the bytes of a symbol (R66, R135), of a soft line
break (R66), and the length of a line terminator (R62). -/

namespace Sys2Proof.Machine

/-- The byte an escape stands for (R64): h supplies bits 7:4, g bits 3:0. -/
def escValue (h g : Byte) : Byte := ((tdec h - 1#8) <<< 4) + (tdec g - 1#8)

/-- The three bytes of the symbol for v (R66, R135, R82): `=`, TENC[2v], TENC[2v + 1]. -/
def symbolBytes (v : Byte) : List Byte :=
  [bEsc, tenc (v.setWidth 9 <<< 1), tenc ((v.setWidth 9 <<< 1) + 1#9)]

/-- The three bytes of a soft line break (R66, R134). -/
def softBreakBytes : List Byte := [bEsc, bCr, bLf]

/-- The two bytes of the encoder's hard line break (R66, R133). -/
def hardBreakBytes : List Byte := [bCr, bLf]

/-- How far a line terminator advances SI (R104, R105). -/
def termSize : Term → Nat
  | .crlf => 2
  | .cr => 1
  | .lf => 1

/-- The bytes of a line terminator (R62 priorities 2a, 2b), which D.HARD copies (R105). -/
def termBytes : Term → List Byte
  | .crlf => [bCr, bLf]
  | .cr => [bCr]
  | .lf => [bLf]

end Sys2Proof.Machine
end

