-- ==== Sys2Proof/WellFormed.lean ====
section
/-! DEFINITION. Which operands the encodings of spec/30_encoding.md R62, R65 admit, and in which context an instruction is
read. -/

namespace Sys2Proof

open Sys2Proof.Machine

/-- An instruction's operands are ones its row of the table admits. -/
def Instr.wf : Instr → Bool
  | .dEsc h g => tdec h != 0#8 && tdec g != 0#8
  | .dLit b => tlegal b == 1#8
  | .dDrop b => tlegal b != 1#8 && b != bCr && b != bLf
  | .eLit b => tlit b == 1#8
  | .eSym v => tlitr v != 1#8
  | .softbrk k => k == 1 || k == 3
  | .dec | .enc | .decq | .encq | .dSoft _ | .dHard _ | .dUsc | .dEob | .padchk | .eCrlf | .eEob | .symbol _ | .flushws => true

/-- The contexts in which a (well-formed) instruction can be read: the mode conditions of R62 and R65. -/
def Ctx.admits : Ctx → Instr → Bool
  | .cmd, .dec | .cmd, .enc | .cmd, .decq | .cmd, .encq => true
  | .dec _ _, .dEsc _ _ | .dec _ _, .dDrop _ | .dec _ _, .dEob => true
  | .dec _ soft, .dSoft _ => soft
  | .dec _ soft, .dHard _ => !soft
  | .dec q _, .dUsc => q
  | .dec q _, .dLit b => !(q && b == bUsc)
  | .enc q, .eLit b => litTab q b == 1#8
  | .enc q, .eCrlf => !q
  | .enc q, .eSym v => litTab q v != 1#8
  | .enc _, .eEob => true
  | _, _ => false

end Sys2Proof
end

