-- ==== Sys2Proof/Decode.lean ====
section
/-! DEFINITION. The decoder of command words (spec/30_encoding.md R60, R61), the decoder of the tokens at SI (R63) and of the
encoder's classes at SI (R65), and the encoder written from the same encodings. -/

namespace Sys2Proof

open Sys2Proof.Machine

/-- Why bytes are no instruction. -/
inductive DecodeError where
  /-- a command word with one of bits 7:2 set (R61) -/
  | reservedCommand (c : Byte)
  /-- no byte was written to CMD -/
  | noCommand
  deriving DecidableEq, Repr

/-- The command word CMD8 (R60): bit 0 OP, bit 1 Q, bits 7:2 reserved. -/
def decodeCommand (c : Byte) : Except DecodeError Instr :=
  if c = 0x00#8 then .ok .dec
  else if c = 0x01#8 then .ok .enc
  else if c = 0x02#8 then .ok .decq
  else if c = 0x03#8 then .ok .encq
  else .error (.reservedCommand c)

/-- The escape test of R63: `=`, at least two more bytes, both hex digits. Answers the digits and the bytes after them. -/
def escapeAt : List Byte → Option (Byte × Byte × List Byte)
  | b :: h :: g :: rest =>
    if b = bEsc ∧ tdec h ≠ 0#8 ∧ tdec g ≠ 0#8 then some (h, g, rest) else none
  | _ => none

/-- The line terminator test of R63: CR LF as a pair, else a lone CR or LF. -/
def terminatorAt : List Byte → Option (Term × List Byte)
  | [] => none
  | b :: rest =>
    if b = bCr then
      match rest with
      | [] => some (.cr, [])
      | c :: rest' => if c = bLf then some (.crlf, rest') else some (.cr, c :: rest')
    else if b = bLf then some (.lf, rest)
    else none

/-- The step DEC_STEP selects (R63, R101) for the source bytes from SI on, with the bytes after the token; no byte is the
end of the buffer (R109). -/
def decodeToken (q soft : Bool) (bs : List Byte) : Instr × List Byte :=
  match escapeAt bs with
  | some (h, g, rest) => (.dEsc h g, rest)
  | none =>
    match terminatorAt bs with
    | some (t, rest) => (if soft then .dSoft t else .dHard t, rest)
    | none =>
      match bs with
      | [] => (.dEob, [])
      | b :: rest =>
        if q = true ∧ b = bUsc then (.dUsc, rest)
        else if tlegal b = 1#8 then (.dLit b, rest)
        else (.dDrop b, rest)

/-- The step ENC_STEP selects (R65, R131) for the source bytes from SI on, with the bytes after those it consumes; no byte is
the end of the buffer (R138). -/
def decodeClass (q : Bool) (bs : List Byte) : Instr × List Byte :=
  match bs with
  | [] => (.eEob, [])
  | b :: rest =>
    if litTab q b = 1#8 then (.eLit b, rest)
    else if q = false ∧ b = bCr ∧ rest.head? = some bLf then (.eCrlf, rest.tail)
    else (.eSym b, rest)

/-- Decoding in any context: total, rejecting by name. Only a command word can be rejected (R61, R67). -/
def decode (ctx : Ctx) (bs : List Byte) : Except DecodeError (Instr × List Byte) :=
  match ctx with
  | .cmd =>
    match bs with
    | [] => .error .noCommand
    | c :: rest => (decodeCommand c).map fun i => (i, rest)
  | .dec q soft => .ok (decodeToken q soft bs)
  | .enc q => .ok (decodeClass q bs)

/-- The bytes of an instruction (R60, R62, R65); the four helpers have no encoding (log 22). -/
def encode : Instr → Option (List Byte)
  | .dec => some [0x00#8]
  | .enc => some [0x01#8]
  | .decq => some [0x02#8]
  | .encq => some [0x03#8]
  | .dEsc h g => some [bEsc, h, g]
  | .dSoft t => some (termBytes t)
  | .dHard t => some (termBytes t)
  | .dUsc => some [bUsc]
  | .dLit b => some [b]
  | .dDrop b => some [b]
  | .dEob => some []
  | .eLit b => some [b]
  | .eCrlf => some [bCr, bLf]
  | .eSym v => some [v]
  | .eEob => some []
  | .padchk => none
  | .softbrk _ => none
  | .symbol _ => none
  | .flushws => none

/-- What may stand after an instruction's own bytes for these to be read as that instruction: a lone CR is not followed by LF
(R62 priority 2b); an `=` that is no escape is not followed by two hex digits (R63); in standard mode the encoder's CR is
not followed by LF (R65); nothing follows the end of the buffer. -/
def Instr.follows (ctx : Ctx) (i : Instr) (rest : List Byte) : Bool :=
  match i with
  | .dSoft .cr => rest.head? != some bLf
  | .dHard .cr => rest.head? != some bLf
  | .dLit b => b != bEsc || (escapeAt (bEsc :: rest)).isNone
  | .eSym v => v != bCr || ctx == .enc true || rest.head? != some bLf
  | .dEob | .eEob => rest.isEmpty
  | _ => true

/-- The bytes of a table word, most significant byte first: spec/opcode_table.json reads a row's pattern of bits as one number
whose first byte is its topmost (log 18). -/
def tableBytes : Nat → Nat → List Byte
  | 0, _ => []
  | n + 1, w => BitVec.ofNat 8 (w / 256 ^ n) :: tableBytes n w

/-- The context a row of the table with that many bits is read in (log 18): a command word; else one byte of the decoder in
Q mode (D.USC's condition); two bytes of the encoder in standard mode (E.CRLF's condition); three of the decoder. -/
def tableCtx (nbits w : Nat) : Ctx :=
  if nbits = 8 then (if w < 4 then .cmd else .dec true false)
  else if nbits = 16 then .enc false
  else .dec false false

/-- The instruction the decoder reads from a word of spec/opcode_table.json. -/
def decodeTableWord (nbits w : Nat) : Option Instr :=
  match decode (tableCtx nbits w) (tableBytes (nbits / 8) w) with
  | .ok (i, _) => some i
  | .error _ => none

end Sys2Proof
end

