-- ==== Sys2Proof/Config.lean ====
section
/-! DEFINITION. What an implementation fixes (the open parameters of spec/92_eei_decisions.md) and the free values of
spec/93_implementation_defined.md: opaque constants without a body, of which nothing can be proved. -/

namespace Sys2Proof

/-- The open parameters (R6, D3, D13). They are the same for the whole life of a block; the model carries them in State so
that every statement holds for every value (log 1). -/
structure Params where
  /-- bytes of source memory, SRC_CAP -/
  srcCap : Nat
  /-- bytes of target memory, TGT_CAP -/
  tgtCap : Nat
  /-- width in bits of SI, TI, LINE, RW, SLEN, TCAP, WLEN, IDX_W -/
  idxW : Nat
  /-- EOB_CHECK (D13): true is the spec's value -/
  eobCheck : Bool
  deriving DecidableEq, Repr

/-- The constraints R6 puts on the parameters, under which no index computation wraps. -/
abbrev Params.wf (p : Params) : Prop := p.srcCap + 2 < 2 ^ p.idxW ∧ p.tgtCap + 3 < 2 ^ p.idxW

/-- A drawn value as an IDX_W-bit register can hold it. -/
def Params.fit (p : Params) (n : Nat) : Nat := n % 2 ^ p.idxW

/-- The parameters of the reset state: the sizes of the command vectors of spec/95_test_vectors.md section 5 (4096 and
4096), the default width of R6 (32), the spec's EOB_CHECK (log 1, DESIGN CHOICE). -/
def Config.resetParams : Params := { srcCap := 4096, tgtCap := 4096, idxW := 32, eobCheck := true }

/-- FREE VALUE (U2, U4, U8; log 6, 7, 10): the n-th index-sized value the block leaves unspecified. -/
opaque Config.freeIdx : Nat → Nat

/-- FREE VALUE (U8; log 7): the n-th mode bit the block leaves unspecified. -/
opaque Config.freeBit : Nat → Bool

/-- FREE VALUE (U7; log 5): what SRC holds at an index that nothing has written since the given epoch began. -/
opaque Config.freeSrc : Nat → Nat → Byte

/-- FREE VALUE (U3, U7, U10; log 5, 8): what TGT holds at an index that nothing has written since the given epoch began. -/
opaque Config.freeTgt : Nat → Nat → Byte

end Sys2Proof
end

