-- ==== Sys2Proof/Machine/State.lean ====
section
/-! DEFINITION. The state of the block (spec/10_state.md), the host's operations (spec/70_reset_and_hazards.md R210), the
reasons a step can stop, and the state after reset (R200). -/

namespace Sys2Proof.Machine

/-- A byte memory: the bytes that have been written, by strictly rising index. An index that is not listed holds no value of
the list's own (log 5). -/
abbrev Memory := List Host.Cell

/-- The canonical form: indices strictly rise. (An unlisted index reads as no value, so no entry can equal it.) -/
abbrev Memory.wf (m : Memory) : Prop := m.Pairwise fun x y => x.1 < y.1

/-- The host-visible registers (R18 to R22). -/
inductive HostReg where
  | cmd
  | slen
  | tcap
  | status
  | wlen
  deriving DecidableEq, Repr

/-- What the host can do to the block (R23, R210, R69). -/
inductive HostOp where
  /-- leave the engine one step -/
  | pause
  /-- wait until STATUS.STATE is not BUSY (R69) -/
  | await
  /-- write the command register (R18, R160) -/
  | writeCmd (c : Byte)
  /-- write SLEN (R19) -/
  | writeSlen (n : Nat)
  /-- write TCAP (R20) -/
  | writeTcap (n : Nat)
  /-- write one byte of SRC (R24) -/
  | writeSrc (i : Nat) (b : Byte)
  /-- write one byte of TGT (R23) -/
  | writeTgt (i : Nat) (b : Byte)
  /-- read a register (R23) -/
  | readReg (r : HostReg)
  /-- read one byte of SRC (R23) -/
  | readSrc (i : Nat)
  /-- read one byte of TGT (R23) -/
  | readTgt (i : Nat)
  /-- reset the block (R200, R202) -/
  | reset
  deriving DecidableEq, Repr

/-- The three errors of the block (R180). They are no stops: `State.raise` takes them. -/
inductive QpError where
  | invalidArgument
  | bufferTooSmall
  | overflow
  deriving DecidableEq, Repr

/-- Why the machine stops. -/
inductive Fault where
  /-- Raised by the engine (fetch, PADCHK) and by a host access of SRC at an index at or above SRC_CAP: R24 and R45 give SRC no
  such index. Safe: the model stops (log 11, 12). -/
  | srcOutOfRange
  /-- Raised by the engine's writes and its one read of TGT and by a host access of TGT at an index at or above TGT_CAP: R25 and
  R45 give TGT no such index. Safe: the model stops (log 11, 12). -/
  | tgtOutOfRange
  deriving DecidableEq, Repr

/-- Why the machine gives a step no meaning. -/
inductive Refusal where
  /-- An instruction without a meaning yet: raised by arms of `exec` only. Safe. -/
  | notModelled (mnemonic : String)
  /-- Raised by a host write of SLEN, TCAP, SRC or TGT while BUSY: R23 and U4 say to refuse it. Safe (log 10). -/
  | hostWriteWhileBusy
  /-- Raised by a host write to SLEN or TCAP of a value that IDX_W bits cannot carry (R19, R20). Safe (log 11). -/
  | valueTooWide
  deriving DecidableEq, Repr

/-- The state. -/
structure State where
  /-- SI, the program counter (R11, R14) -/
  si : Nat
  /-- TI, the output cursor (R13) -/
  ti : Nat
  /-- LINE, the encoder's line counter (R15) -/
  line : Nat
  /-- RW, PADCHK's backward index (R16) -/
  rw : Nat
  /-- OP (R17): true is 1, encode -/
  op : Bool
  /-- Q (R17): true is 1, Q mode -/
  q : Bool
  /-- SLEN, register 1 (R19) -/
  slen : Nat
  /-- TCAP, register 2 (R20) -/
  tcap : Nat
  /-- STATUS, register 3 (R21): STATE in bits 1:0, ERR in bits 3:2 -/
  status : BitVec 8
  /-- WLEN, register 4 (R22) -/
  wlen : Nat
  /-- SRC (R24) -/
  src : Memory
  /-- TGT (R25) -/
  tgt : Memory
  /-- the open parameters (R6); no step changes them (log 1) -/
  cfg : Params
  /-- the host's pending operations, oldest first (log 4) -/
  host : List HostOp
  /-- what the host's last read returned (log 20) -/
  rdata : Nat
  /-- which power-on contents SRC's unwritten bytes have (log 5) -/
  srcEpoch : Nat
  /-- which power-on contents TGT's unwritten bytes have (log 5, 8) -/
  tgtEpoch : Nat
  /-- how many free register values have been drawn (log 6, 7, 10) -/
  draws : Nat
  deriving DecidableEq, Repr

/-- The state after reset (R30, R200), for given parameters. -/
def State.resetWith (p : Params) : State :=
  { si := 0, ti := 0, line := 0, rw := 0, op := false, q := false
    slen := 0, tcap := 0, status := 0x00#8, wlen := 0
    src := [], tgt := []
    cfg := p, host := [], rdata := 0, srcEpoch := 0, tgtEpoch := 0, draws := 0 }

/-- The machine right after reset (R200). -/
def State.reset : State := State.resetWith Config.resetParams

end Sys2Proof.Machine
end

