-- ==== Sys2Proof/Machine/Flags.lean ====
section
/-! DEFINITION. The status word (spec/10_state.md R21, spec/60_exceptions.md R180): its fields, their codes, and the writes
`STATUS.STATE <- ...`, `STATUS.ERR <- ...`. The block has no other flag (R17). -/

namespace Sys2Proof.Machine

/-- Codes of STATUS.STATE (R21). -/
abbrev stIdle : BitVec 2 := 0#2
abbrev stBusy : BitVec 2 := 1#2
abbrev stDone : BitVec 2 := 2#2
abbrev stError : BitVec 2 := 3#2

/-- Codes of STATUS.ERR (R180). -/
def QpError.code : QpError → BitVec 2
  | .invalidArgument => 1#2
  | .bufferTooSmall => 2#2
  | .overflow => 3#2

/-- STATUS.STATE, bits 1:0 (R21). -/
def State.phase (s : State) : BitVec 2 := s.status.extractLsb' 0 2

/-- STATUS.ERR, bits 3:2 (R21). -/
def State.err (s : State) : BitVec 2 := s.status.extractLsb' 2 2

/-- STATE = BUSY. -/
def State.busy (s : State) : Bool := s.phase == stBusy

/-- The status word with given fields; bits 7:4 are zero (R21). -/
def statusWord (err phase : BitVec 2) : BitVec 8 := 0#4 ++ err ++ phase

/-- `STATUS.STATE <- p` -/
def State.setPhase (s : State) (p : BitVec 2) : State := { s with status := statusWord s.err p }

/-- `STATUS.ERR <- e` -/
def State.setErr (s : State) (e : BitVec 2) : State := { s with status := statusWord e s.phase }

end Sys2Proof.Machine
end

