-- ==== Sys2Proof/Machine/Ops.lean ====
section
/-! DEFINITION. The operations the instructions share: the two memories (spec/20_memory.md), the free values, taking an error
and leaving it (spec/60_exceptions.md R184, R188), command issue, completion (spec/43_command.md), PADCHK, SOFTBRK, SYMBOL and
FLUSHWS (spec/41_decode.md, spec/42_encode.md), and fetching the token at SI (R63, R65). -/

namespace Sys2Proof.Machine

/-! ### The memories -/

/-- The byte written at an index, if any was. -/
def Memory.read : Memory → Nat → Option Byte
  | [], _ => none
  | (k, v) :: rest, a => if k = a then some v else Memory.read rest a

/-- Writing one byte, keeping the indices strictly rising. -/
def Memory.write : Memory → Nat → Byte → Memory
  | [], a, b => [(a, b)]
  | (k, v) :: rest, a, b =>
    if a < k then (a, b) :: (k, v) :: rest
    else if a = k then (a, b) :: rest
    else (k, v) :: Memory.write rest a b

/-- Writing consecutive bytes from an index on, lower index first (R40). -/
def Memory.writeAll : Memory → Nat → List Byte → Memory
  | m, _, [] => m
  | m, a, b :: bs => Memory.writeAll (Memory.write m a b) (a + 1) bs

/-- `SRC[i]`: a byte nothing has written is free (U7, log 5). -/
def State.srcByte (s : State) (i : Nat) : Byte := (Memory.read s.src i).getD (Config.freeSrc s.srcEpoch i)

/-- `TGT[i]`: a byte nothing has written is free (U7, log 5). -/
def State.tgtByte (s : State) (i : Nat) : Byte := (Memory.read s.tgt i).getD (Config.freeTgt s.tgtEpoch i)

/-- `TGT[TI..] <- bs; TI <- TI + length`: every write of the engine to TGT. An index at or above TGT_CAP does not exist (R25,
R45; log 12). -/
def emit (bs : List Byte) (s : State) : Except Fault State :=
  if s.ti + bs.length ≤ s.cfg.tgtCap then
    .ok { s with tgt := Memory.writeAll s.tgt s.ti bs, ti := s.ti + bs.length }
  else .error .tgtOutOfRange

/-! ### Writes of registers -/

/-- `SI <- SI + k` (R14). -/
def State.advance (k : Nat) (s : State) : State := { s with si := s.si + k }

/-- `LINE <- n` (R15). -/
def State.setLine (n : Nat) (s : State) : State := { s with line := n }

/-- `RW <- SI` (R16, R101, R109). -/
def State.loadRw (s : State) : State := { s with rw := s.si }

/-- `TI <- TI - 1; LINE <- LINE - 1` (R137). -/
def State.takeBack (s : State) : State := { s with ti := s.ti - 1, line := s.line - 1 }

/-- `OP <- c[0]; Q <- c[1]` (R17, R160). -/
def State.latch (c : Byte) (s : State) : State := { s with op := c.getLsbD 0, q := c.getLsbD 1 }

/-- `SI <- 0; TI <- 0; LINE <- 0; RW <- 0` (R160, R164). -/
def State.clearCursors (s : State) : State := { s with si := 0, ti := 0, line := 0, rw := 0 }

/-- `WLEN <- TI` (R165). -/
def State.publish (s : State) : State := { s with wlen := s.ti }

/-! ### Free values -/

/-- WLEN becomes unspecified (U2, log 6). -/
def State.drawWlen (s : State) : State :=
  { s with wlen := s.cfg.fit (Config.freeIdx s.draws), draws := s.draws + 1 }

/-- The cursors and the mode bits become unspecified (U8, R29, log 7). -/
def State.discardCursors (s : State) : State :=
  { s with
    si := s.cfg.fit (Config.freeIdx s.draws)
    ti := s.cfg.fit (Config.freeIdx (s.draws + 1))
    line := s.cfg.fit (Config.freeIdx (s.draws + 2))
    rw := s.cfg.fit (Config.freeIdx (s.draws + 3))
    op := Config.freeBit s.draws
    q := Config.freeBit (s.draws + 1)
    draws := s.draws + 4 }

/-- Every byte of TGT becomes unspecified (U3, log 8). -/
def State.discardTgt (s : State) : State := { s with tgt := [], tgtEpoch := s.tgtEpoch + 1 }

/-! ### Errors (the trap entry and the way out) -/

/-- `raise E` (R184): ERR and STATE are set and nothing further of the command executes; WLEN is unspecified (U2) and, after
Overflow, so is TGT (U3); the cursors are discarded (R29). -/
def State.raise (e : QpError) (s : State) : State :=
  let t := ((s.setErr e.code).setPhase stError).drawWlen.discardCursors
  match e with
  | .invalidArgument => t
  | .bufferTooSmall => t
  | .overflow => t.discardTgt

/-- Leaving ERROR, DONE or IDLE at command issue (R188, the first line of R160): STATE is BUSY, ERR is none; WLEN is unspecified
while BUSY (U2). -/
def State.enterBusy (s : State) : State := ((s.setPhase stBusy).setErr 0#2).drawWlen

/-! ### Command issue and completion -/

/-- START_CHECKS (R161 to R163, R186): the first check that fails, if one does. -/
def startChecks (c : Byte) (s : State) : Option QpError :=
  if c.extractLsb' 2 6 ≠ 0#6 then some .invalidArgument
  else if s.cfg.srcCap < s.slen then some .invalidArgument
  else if s.cfg.tgtCap < s.tcap then some .invalidArgument
  else if s.op = false ∧ s.tcap < s.slen then some .bufferTooSmall
  else if s.op = true ∧ s.tcap < etl s.slen then some .bufferTooSmall
  else none

/-- ISSUE(c) up to the scan (R160, R164). The scan, its end-of-buffer action and the post-check are the steps that follow
(log 3). -/
def issue (c : Byte) (s : State) : State :=
  match startChecks c (s.enterBusy.latch c) with
  | some e => (s.enterBusy.latch c).raise e
  | none => (s.enterBusy.latch c).clearCursors

/-- The write of c to CMD (R18, R160): ignored while BUSY. -/
def writeCmd (c : Byte) (s : State) : State := if s.busy then s else issue c s

/-- The end of ISSUE (R160, R165, R166): POST_CHECK, then WLEN and DONE; the cursors are discarded (R29, log 7). -/
def finish (s : State) : State :=
  if s.si ≠ s.slen ∨ s.tcap < s.ti then s.raise .overflow
  else (s.publish.setPhase stDone).discardCursors

/-! ### The decoder's helper -/

/-- Where PADCHK's walk from index n stops: the start of the run of SP and TAB that ends at n (R103). -/
def padStart (rd : Nat → Byte) : Nat → Nat
  | 0 => 0
  | n + 1 => if isPad (rd n) then padStart rd n else n + 1

/-- PADCHK's answer for a terminator at index n: `=` stands before the run (R103). -/
def padSoft (rd : Nat → Byte) (n : Nat) : Bool :=
  decide (0 < padStart rd n) && rd (padStart rd n - 1) == bEsc

/-- PADCHK (R103) from the RW its caller has loaded: RW goes to the start of the run, TI falls by the run's length and, when an
`=` stands before the run, by one more. The first read is of `SRC[RW - 1]`, which must exist. -/
def padchk (s : State) : Except Fault (State × Bool) :=
  if s.rw ≤ s.cfg.srcCap then
    let j := padStart s.srcByte s.rw
    let soft := padSoft s.srcByte s.rw
    .ok ({ s with rw := j, ti := s.ti - (s.rw - j) - (if soft then 1 else 0) }, soft)
  else .error .srcOutOfRange

/-- `RW <- SI` and PADCHK, as DEC_STEP and D_EOB call it (R101, R109). -/
def padchkHere (s : State) : Except Fault State := (padchk s.loadRw).map Prod.fst

/-! ### The encoder's helpers -/

/-- SOFTBRK(k) (R134). -/
def softBrk (k : Nat) (s : State) : Except Fault State :=
  if s.q = false ∧ lineLimit ≤ s.line + k then
    (emit softBreakBytes s).map (State.setLine 0)
  else .ok s

/-- SYMBOL(v) (R135). -/
def symbolOp (v : Byte) (s : State) : Except Fault State :=
  (softBrk 3 s).bind fun t =>
    (emit (symbolBytes v) t).map fun u => u.setLine (u.line + 3)

/-- FLUSHWS (R137). Its read of `TGT[TI - 1]` must exist (log 12). -/
def flushWs (s : State) : Except Fault State :=
  if 0 < s.ti then
    if s.ti ≤ s.cfg.tgtCap then
      let v := s.tgtByte (s.ti - 1)
      if isPad v then symbolOp v s.takeBack else .ok s
    else .error .tgtOutOfRange
  else .ok s

/-! ### Fetching -/

/-- The source bytes the decoders may look at: at most three from SI on, none at or above SLEN (R42, R43, log 16). -/
def window (s : State) : List Byte :=
  (List.range (min 3 (s.slen - s.si))).map fun k => s.srcByte (s.si + k)

/-- Which instruction the engine runs next (R100, R101, R130, R131): the token or class at SI, or the end-of-buffer action
when SI is not below SLEN. -/
def fetch (s : State) : Except Fault Instr :=
  if (window s).length = 0 ∨ s.si + (window s).length ≤ s.cfg.srcCap then
    if s.op then .ok (decodeClass s.q (window s)).1
    else .ok (decodeToken s.q (padSoft s.srcByte s.si) (window s)).1
  else .error .srcOutOfRange

/-! ### Outcomes -/

/-- An operation's answer as the outcome of a step. -/
def outcome : Except Fault State → Host.Outcome State Fault Refusal
  | .ok s => .next s
  | .error f => .fault f

/-- What the engine adds after an instruction of the scan: after the end-of-buffer action, the end of ISSUE (R160); after any
other, nothing. -/
def settle (i : Instr) (o : Host.Outcome State Fault Refusal) : Host.Outcome State Fault Refusal :=
  match o with
  | .next t => .next (if i = .dEob ∨ i = .eEob then finish t else t)
  | .fault f => .fault f
  | .refused r => .refused r

end Sys2Proof.Machine
end

