-- ==== Sys2Proof/Machine/Commands.lean ====
section
/-! DEFINITION. The four commands (spec/30_encoding.md R60, spec/43_command.md R160): what the write of each command word does. -/

namespace Sys2Proof.Machine

/-- DEC (R100): CMD <- 0x00. -/
def execDec (s : State) : Host.Outcome State Fault Refusal := .next (writeCmd 0x00#8 s)

/-- ENC (R130): CMD <- 0x01. -/
def execEnc (s : State) : Host.Outcome State Fault Refusal := .next (writeCmd 0x01#8 s)

/-- DECQ (R100): CMD <- 0x02. -/
def execDecq (s : State) : Host.Outcome State Fault Refusal := .next (writeCmd 0x02#8 s)

/-- ENCQ (R130): CMD <- 0x03. -/
def execEncq (s : State) : Host.Outcome State Fault Refusal := .next (writeCmd 0x03#8 s)

end Sys2Proof.Machine
end

