-- ==== Sys2Proof/Machine/DecodeSteps.lean ====
section
/-! DEFINITION. The decoder's steps and its helper PADCHK (spec/41_decode.md R102 to R109). D.SOFT and D.HARD include the
`RW <- SI` and the PADCHK that R101 runs before them (log 13). -/

namespace Sys2Proof.Machine

/-- D_ESC (R102, R64). -/
def execDEsc (h g : Byte) (s : State) : Host.Outcome State Fault Refusal :=
  outcome ((emit [escValue h g] s).map (State.advance 3))

/-- D_SOFT after its PADCHK (R101, R104). -/
def execDSoft (t : Term) (s : State) : Host.Outcome State Fault Refusal :=
  outcome ((padchkHere s).map (State.advance (termSize t)))

/-- D_HARD after its PADCHK (R101, R105). -/
def execDHard (t : Term) (s : State) : Host.Outcome State Fault Refusal :=
  outcome ((padchkHere s).bind fun u =>
    (emit (termBytes t) u).map (State.advance (termSize t)))

/-- D_USC (R106). -/
def execDUsc (s : State) : Host.Outcome State Fault Refusal :=
  outcome ((emit [bSp] s).map (State.advance 1))

/-- D_LIT (R107). -/
def execDLit (b : Byte) (s : State) : Host.Outcome State Fault Refusal :=
  outcome ((emit [b] s).map (State.advance 1))

/-- D_DROP (R108): SI alone changes. -/
def execDDrop (s : State) : Host.Outcome State Fault Refusal := .next (s.advance 1)

/-- D_EOB (R109), conditional on EOB_CHECK (D13, log 17). -/
def execDEob (s : State) : Host.Outcome State Fault Refusal :=
  if s.cfg.eobCheck then outcome (padchkHere s) else .next s

/-- PADCHK (R103) from the RW its caller has loaded; its Boolean goes to the caller (log 14). -/
def execPadchk (s : State) : Host.Outcome State Fault Refusal := outcome ((padchk s).map Prod.fst)

end Sys2Proof.Machine
end

