-- ==== Sys2Proof/Machine/EncodeSteps.lean ====
section
/-! DEFINITION. The encoder's steps and its helpers (spec/42_encode.md R132 to R138). -/

namespace Sys2Proof.Machine

/-- E_LIT (R132). -/
def execELit (b : Byte) (s : State) : Host.Outcome State Fault Refusal :=
  outcome ((softBrk 1 s).bind fun t =>
    (emit [b] t).map fun u => (u.setLine (u.line + 1)).advance 1)

/-- E_CRLF (R133). -/
def execECrlf (s : State) : Host.Outcome State Fault Refusal :=
  outcome ((flushWs s).bind fun t =>
    (emit hardBreakBytes t).map fun u => (u.setLine 0).advance 2)

/-- E_SYM (R136). -/
def execESym (v : Byte) (s : State) : Host.Outcome State Fault Refusal :=
  outcome ((symbolOp v s).map (State.advance 1))

/-- E_EOB (R138). -/
def execEEob (s : State) : Host.Outcome State Fault Refusal := outcome (flushWs s)

/-- SOFTBRK(k) (R134). -/
def execSoftbrk (k : Nat) (s : State) : Host.Outcome State Fault Refusal := outcome (softBrk k s)

/-- SYMBOL(v) (R135). -/
def execSymbol (v : Byte) (s : State) : Host.Outcome State Fault Refusal := outcome (symbolOp v s)

/-- FLUSHWS (R137). -/
def execFlushws (s : State) : Host.Outcome State Fault Refusal := outcome (flushWs s)

end Sys2Proof.Machine
end

