-- ==== Sys2Proof/Machine/Dispatch.lean ====
section
/-! DEFINITION. Which meaning each instruction has: one arm per constructor of Instr. -/

namespace Sys2Proof.Machine

def exec (i : Instr) (s : State) : Host.Outcome State Fault Refusal :=
  match i with
  -- the commands (R60)
  | .dec => Sys2Proof.Machine.execDec s
  | .enc => Sys2Proof.Machine.execEnc s
  | .decq => Sys2Proof.Machine.execDecq s
  | .encq => Sys2Proof.Machine.execEncq s
  -- the decoder's steps (R101)
  | .dEsc h g => Sys2Proof.Machine.execDEsc h g s
  | .dSoft t => Sys2Proof.Machine.execDSoft t s
  | .dHard t => Sys2Proof.Machine.execDHard t s
  | .dUsc => Sys2Proof.Machine.execDUsc s
  | .dLit b => Sys2Proof.Machine.execDLit b s
  | .dDrop _ => Sys2Proof.Machine.execDDrop s
  | .dEob => Sys2Proof.Machine.execDEob s
  | .padchk => Sys2Proof.Machine.execPadchk s
  -- the encoder's steps and helpers (R131)
  | .eLit b => Sys2Proof.Machine.execELit b s
  | .eCrlf => Sys2Proof.Machine.execECrlf s
  | .eSym v => Sys2Proof.Machine.execESym v s
  | .eEob => Sys2Proof.Machine.execEEob s
  | .softbrk k => Sys2Proof.Machine.execSoftbrk k s
  | .symbol v => Sys2Proof.Machine.execSymbol v s
  | .flushws => Sys2Proof.Machine.execFlushws s

end Sys2Proof.Machine
end

