-- ==== Sys2Proof/Machine/HostPort.lean ====
section
/-! DEFINITION. The host's side: what each of its operations does (spec/10_state.md R18 to R23, spec/70_reset_and_hazards.md
R200, R202, R210, R211), whose move the next step is, and the host's calls `decode` and `encode` as sequences of operations
(spec/30_encoding.md R69). -/

namespace Sys2Proof.Machine

/-- Whose move a step is, with the state it starts from. -/
inductive Turn where
  /-- the engine's -/
  | engine (s : State)
  /-- a write to CMD that decodes to an instruction -/
  | command (i : Instr) (s : State)
  /-- any other operation of the host, already done -/
  | done (o : Host.Outcome State Fault Refusal)

/-- Reset (R200, R202), at any time; SRC's and TGT's contents become unspecified (U7, U10). The host's own fields are not the
block's. -/
def resetBlock (s : State) : State :=
  { State.resetWith s.cfg with
    host := s.host, rdata := s.rdata, draws := s.draws
    srcEpoch := s.srcEpoch + 1, tgtEpoch := s.tgtEpoch + 1 }

/-- The host reads v. -/
def returns (v : Nat) (s : State) : Host.Outcome State Fault Refusal := .next { s with rdata := v }

/-- A host read the spec gives no value (U4, log 10). -/
def returnsFree (s : State) : Host.Outcome State Fault Refusal :=
  .next { s with rdata := Config.freeIdx s.draws, draws := s.draws + 1 }

/-- A host write of a register or a byte: refused while BUSY (R23, R211, U4). -/
def ifOwned (s : State) (o : Host.Outcome State Fault Refusal) : Host.Outcome State Fault Refusal :=
  if s.busy then .refused .hostWriteWhileBusy else o

/-- A host write of SLEN or TCAP: the register is IDX_W bits wide (R19, R20, log 11). -/
def ifFits (s : State) (n : Nat) (o : Host.Outcome State Fault Refusal) : Host.Outcome State Fault Refusal :=
  if n < 2 ^ s.cfg.idxW then o else .refused .valueTooWide

/-- The host reads a register (R18 to R23): CMD reads as 0; while BUSY only STATUS (and CMD's 0) is specified. -/
def readReg (r : HostReg) (s : State) : Host.Outcome State Fault Refusal :=
  match r with
  | .cmd => returns 0 s
  | .status => returns s.status.toNat s
  | .slen => if s.busy then returnsFree s else returns s.slen s
  | .tcap => if s.busy then returnsFree s else returns s.tcap s
  | .wlen => if s.busy then returnsFree s else returns s.wlen s

/-- What one operation of the host does, taken off the list. -/
def hostMove (op : HostOp) (s : State) : Turn :=
  match op with
  | .pause => .engine s
  | .await => .done (.next s)
  | .writeCmd c =>
    match decodeCommand c with
    | .ok i => .command i s
    | .error _ => .done (.next (writeCmd c s))
  | .writeSlen n => .done (ifOwned s (ifFits s n (.next { s with slen := n })))
  | .writeTcap n => .done (ifOwned s (ifFits s n (.next { s with tcap := n })))
  | .writeSrc i b =>
    .done (ifOwned s (if i < s.cfg.srcCap then .next { s with src := Memory.write s.src i b } else .fault .srcOutOfRange))
  | .writeTgt i b =>
    .done (ifOwned s (if i < s.cfg.tgtCap then .next { s with tgt := Memory.write s.tgt i b } else .fault .tgtOutOfRange))
  | .readReg r => .done (readReg r s)
  | .readSrc i =>
    .done (if i < s.cfg.srcCap then (if s.busy then returnsFree s else returns (s.srcByte i).toNat s) else .fault .srcOutOfRange)
  | .readTgt i =>
    .done (if i < s.cfg.tgtCap then (if s.busy then returnsFree s else returns (s.tgtByte i).toNat s) else .fault .tgtOutOfRange)
  | .reset => .done (.next (resetBlock s))

/-- Whose move it is (log 4): the host's, while it has an operation pending; the engine's, when it has none, or waits. A host
that waits keeps waiting while BUSY. -/
def turn (s : State) : Turn :=
  match s.host with
  | [] => .engine s
  | op :: rest =>
    if op = .await ∧ s.busy = true then .engine s else hostMove op { s with host := rest }

/-- The host puts a byte string in SRC from an index on (R69). -/
def loadSrc : Nat → List Byte → List HostOp
  | _, [] => []
  | a, b :: bs => .writeSrc a b :: loadSrc (a + 1) bs

/-- The host's sequence of a call up to its wait (R69): the source to SRC, its length to SLEN, the capacity to TCAP, the command
word last. Where the source or the capacity does not fit the memories, the bytes SRC has an index for are loaded, a length no
register can hold is written as the largest one that can (which R6 puts above both memory sizes), and the command answers
InvalidArgument (R69, R162; log 26). -/
def callOps (p : Params) (bs : List Byte) (tcap : Nat) (c : Byte) : List HostOp :=
  loadSrc 0 (bs.take p.srcCap) ++
    [.writeSlen (min bs.length (2 ^ p.idxW - 1)), .writeTcap (min tcap (2 ^ p.idxW - 1)), .writeCmd c, .await]

/-- `decode(S, q)` up to its wait (R69). -/
def decodeCall (p : Params) (q : Bool) (bs : List Byte) : List HostOp :=
  callOps p bs bs.length (if q then 0x02#8 else 0x00#8)

/-- `encode(S, q)` up to its wait (R69). -/
def encodeCall (p : Params) (q : Bool) (bs : List Byte) : List HostOp :=
  callOps p bs (etl bs.length) (if q then 0x03#8 else 0x01#8)

end Sys2Proof.Machine
end

