-- ==== Sys2Proof/Machine/Step.lean ====
section
/-! DEFINITION. One step of the machine: an operation of the host, or one instruction of the engine (spec/10_state.md R10); and
how a word of the opcode table is placed where the next step fetches (log 18). -/

namespace Sys2Proof.Machine

/-- The engine's step: while BUSY, the instruction at SI and what the engine adds after it; else the block is idle (R192). -/
def engineStep (s : State) : Host.Outcome State Fault Refusal :=
  if s.busy then
    match fetch s with
    | .ok i => settle i (exec i s)
    | .error f => .fault f
  else .next s

/-- One step. -/
def step (s : State) : Host.Outcome State Fault Refusal :=
  match turn s with
  | .engine t => engineStep t
  | .command i t => exec i t
  | .done o => o

/-- s with the instruction of a table word placed where the next step takes it from (log 18): a command word as the host's
next operation, with no command in progress; source bytes in SRC from SI on, with SLEN at their end, a command in progress
with the mode bits of the word's context, and no operation of the host pending. -/
def State.withFetchWord (s : State) (nbits w : Nat) : State :=
  match tableCtx nbits w with
  | .cmd => { (if s.busy then s.setPhase stIdle else s) with host := [.writeCmd (BitVec.ofNat 8 w)] }
  | .dec q _ =>
    { s.setPhase stBusy with
      host := [], op := false, q := q
      src := Memory.writeAll s.src s.si (tableBytes (nbits / 8) w), slen := s.si + nbits / 8 }
  | .enc q =>
    { s.setPhase stBusy with
      host := [], op := true, q := q
      src := Memory.writeAll s.src s.si (tableBytes (nbits / 8) w), slen := s.si + nbits / 8 }

end Sys2Proof.Machine
end

