-- ==== Sys2Proof/Safety.lean ====
section
/-! DEFINITION. The terms the statements use: what a legal state is (the invariants of spec/10_state.md R12, R21, spec/41_decode.md
R111, R112, spec/42_encode.md R140, R151), what a step leaves alone, what it means that a command completes
(spec/70_reset_and_hazards.md R216), the format-validity predicate of spec/42_encode.md R141, and how the bitmaps of
spec/40_tables.md R86 are read. -/

namespace Sys2Proof.Machine

/-! ### The tables -/

/-- The entry a bitmap of R86 gives index c: rows of 16 entries, the one at position i of a row counted from the left. The rows not
listed (0x80 to 0xF0) hold zeros. -/
def bitmapEntry (rows : List (BitVec 16)) (c : Byte) : Byte :=
  if (rows.getD (c.toNat / 16) 0#16).getMsbD (c.toNat % 16) then 1#8 else 0#8

/-- How many of the 256 entries of a table have a given property. -/
def entriesWith (p : Byte → Bool) : Nat := (List.range 256).countP fun n => p (BitVec.ofNat 8 n)

/-- The 16 bytes of the string `"0123456789ABCDEF"` (R82). -/
def hexDigits : List Byte :=
  [0x30#8, 0x31#8, 0x32#8, 0x33#8, 0x34#8, 0x35#8, 0x36#8, 0x37#8, 0x38#8, 0x39#8, 0x41#8, 0x42#8, 0x43#8, 0x44#8, 0x45#8, 0x46#8]

/-- The 22 nonzero entries of TDEC, index and value, as R81 lists them. -/
def tdecEntries : List (Byte × Byte) :=
  [(0x30#8, 1#8), (0x31#8, 2#8), (0x32#8, 3#8), (0x33#8, 4#8), (0x34#8, 5#8), (0x35#8, 6#8), (0x36#8, 7#8), (0x37#8, 8#8),
   (0x38#8, 9#8), (0x39#8, 10#8), (0x41#8, 11#8), (0x42#8, 12#8), (0x43#8, 13#8), (0x44#8, 14#8), (0x45#8, 15#8), (0x46#8, 16#8),
   (0x61#8, 11#8), (0x62#8, 12#8), (0x63#8, 13#8), (0x64#8, 14#8), (0x65#8, 15#8), (0x66#8, 16#8)]

/-! ### What a step leaves alone -/

/-- Every field but SI, TI, LINE, RW and TGT is unchanged. -/
def Untouched (s t : State) : Prop :=
  t.op = s.op ∧ t.q = s.q ∧ t.slen = s.slen ∧ t.tcap = s.tcap ∧ t.status = s.status ∧ t.wlen = s.wlen ∧
  t.src = s.src ∧ t.cfg = s.cfg ∧ t.host = s.host ∧ t.rdata = s.rdata ∧
  t.srcEpoch = s.srcEpoch ∧ t.tgtEpoch = s.tgtEpoch ∧ t.draws = s.draws

/-- TGT holds bs from index a on, and every other index reads as before. -/
def TgtGets (s t : State) (a : Nat) (bs : List Byte) : Prop :=
  ∀ i, t.tgtByte i = if a ≤ i ∧ i < a + bs.length then bs.getD (i - a) 0#8 else s.tgtByte i

/-- Every index of TGT reads as before. -/
def TgtSame (s t : State) : Prop := ∀ i, t.tgtByte i = s.tgtByte i

/-! ### What PADCHK and the encoder's helpers do, in the words of their rules -/

/-- PADCHK from index n with TI = ti ends with RW = rw' and TI = ti' (R103): SRC[rw'..n) is the maximal run of SP and TAB that ends
at n; TI falls by the run's length, and by one more when an `=` stands before the run. -/
def PadResult (s : State) (n rw' ti' : Nat) : Prop :=
  rw' ≤ n ∧ (∀ j, rw' ≤ j → j < n → s.srcByte j = bSp ∨ s.srcByte j = bTab) ∧
  (rw' = 0 ∨ (s.srcByte (rw' - 1) ≠ bSp ∧ s.srcByte (rw' - 1) ≠ bTab)) ∧
  ti' = s.ti - (n - rw') - (if 0 < rw' ∧ s.srcByte (rw' - 1) = bEsc then 1 else 0)

/-- The bytes SOFTBRK(k) puts before an append of k bytes at a given LINE (R134). -/
def breakBytes (q : Bool) (line k : Nat) : List Byte := if q = false ∧ 76 ≤ line + k then [0x3D#8, 0x0D#8, 0x0A#8] else []

/-- LINE after SOFTBRK(k) (R134). -/
def breakLine (q : Bool) (line k : Nat) : Nat := if q = false ∧ 76 ≤ line + k then 0 else line

/-- The symbol of v (R66): `=` and its two upper-case hex digit characters, the high one first, by R82's literal string. -/
def hexSymbol (v : Byte) : List Byte := [0x3D#8, hexDigits.getD (v.toNat / 16) 0#8, hexDigits.getD (v.toNat % 16) 0#8]

/-- FLUSHWS finds a SP or TAB standing last (R137). -/
abbrev State.flushes (s : State) : Prop := 0 < s.ti ∧ isPad (s.tgtByte (s.ti - 1)) = true

/-- Where FLUSHWS writes from, what it writes, and LINE after it (R137). -/
def State.flushStart (s : State) : Nat := if s.flushes then s.ti - 1 else s.ti
def State.flushBytes (s : State) : List Byte :=
  if s.flushes then breakBytes s.q (s.line - 1) 3 ++ hexSymbol (s.tgtByte (s.ti - 1)) else []
def State.flushLine (s : State) : Nat := if s.flushes then breakLine s.q (s.line - 1) 3 + 3 else s.line

/-- The context the engine reads the bytes at SI in. -/
def State.ctx (s : State) : Ctx := if s.op then .enc s.q else .dec s.q (padSoft s.srcByte s.si)

/-! ### Legal states -/

/-- Every listed index is below n. -/
abbrev Memory.below (m : Memory) (n : Nat) : Prop := ∀ c ∈ m, c.1 < n

/-- Both memories are in their canonical form and list only indices they have (R24, R25, R45). -/
def State.MemOk (s : State) : Prop :=
  Memory.wf s.src ∧ Memory.wf s.tgt ∧ Memory.below s.src s.cfg.srcCap ∧ Memory.below s.tgt s.cfg.tgtCap

/-- STATUS bits 7:4 are zero, and ERR is nonzero exactly when STATE = ERROR (R21). -/
def State.StatusOk (s : State) : Prop :=
  s.status.extractLsb' 4 4 = 0#4 ∧ (s.err ≠ 0#2 ↔ s.phase = stError)

/-- The registers the host sees fit their IDX_W bits (R19, R20, R22). -/
def State.WidthOk (s : State) : Prop :=
  s.slen < 2 ^ s.cfg.idxW ∧ s.tcap < 2 ^ s.cfg.idxW ∧ s.wlen < 2 ^ s.cfg.idxW

/-- How many bytes PADCHK would take out of the output at SI: the run of SP and TAB before SI in the source, and the `=` before
the run if one stands there (R103). -/
def State.padTaken (s : State) : Nat :=
  (s.si - padStart s.srcByte s.si) + (if padSoft s.srcByte s.si then 1 else 0)

/-- A decode command in progress (R111, R112): TI is at most SI, TCAP covers SLEN, and the bytes PADCHK would take out are
standing at the end of the output, each the copy of its own source byte. -/
def State.DecodeOk (s : State) : Prop :=
  s.slen ≤ s.tcap ∧ s.ti ≤ s.si ∧ s.padTaken ≤ s.ti ∧
  ∀ k, k < s.padTaken → s.tgtByte (s.ti - 1 - k) = s.srcByte (s.si - 1 - k)

/-- An encode command in progress (R140, R151), with b the soft breaks so far and c the source index the current line's content
begins at: each break closed a line of at least 25 source bytes, the current line holds at most 3 bytes for each source byte
since c, and the output at most 3 for each source byte and 3 for each break. In standard mode LINE is at most 75. A SP or TAB
standing last was the literal of the source byte just before SI. -/
def State.EncodeOk (s : State) : Prop :=
  etl s.slen ≤ s.tcap ∧
  ∃ b c, c ≤ s.si ∧ 25 * b ≤ c ∧ (0 < b → c < s.si) ∧ s.ti ≤ 3 * s.si + 3 * b ∧
    (s.q = true → b = 0) ∧ (s.q = false → s.line ≤ 75 ∧ s.line ≤ 3 * (s.si - c)) ∧
    (0 < s.ti → isPad (s.tgtByte (s.ti - 1)) = true →
      s.q = false ∧ c < s.si ∧ 1 ≤ s.line ∧ s.line - 1 ≤ 3 * (s.si - 1 - c) ∧ s.ti - 1 ≤ 3 * (s.si - 1) + 3 * b)

/-- While a command is in progress: the checked registers are in range, the cursors are within them (R12), and the command's own
invariant holds. -/
def State.ScanOk (s : State) : Prop :=
  s.busy = true →
    s.slen ≤ s.cfg.srcCap ∧ s.tcap ≤ s.cfg.tgtCap ∧ s.si ≤ s.slen ∧
    (s.op = false → s.DecodeOk) ∧ (s.op = true → s.EncodeOk)

/-- While an encode command in standard mode is in progress, LINE is at most 75 and is the number of bytes in TGT since the last
CR LF, or since index 0 (R140). -/
def State.LineOk (s : State) : Prop :=
  s.busy = true → s.op = true → s.q = false →
    s.line ≤ 75 ∧ s.line ≤ s.ti ∧
    (s.line = s.ti ∨
      (2 ≤ s.ti - s.line ∧ s.tgtByte (s.ti - s.line - 2) = bCr ∧ s.tgtByte (s.ti - s.line - 1) = bLf)) ∧
    ∀ i, s.ti - s.line ≤ i → i < s.ti → s.tgtByte i ≠ bLf

/-! ### Commands and their results -/

/-- The start checks of command word c pass (R161 to R163). -/
def Accepts (c : Byte) (s : State) : Prop :=
  c.extractLsb' 2 6 = 0#6 ∧ s.slen ≤ s.cfg.srcCap ∧ s.tcap ≤ s.cfg.tgtCap ∧
  (c.getLsbD 0 = false → s.slen ≤ s.tcap) ∧ (c.getLsbD 0 = true → etl s.slen ≤ s.tcap)

/-- The host writes c to CMD while no command is in progress and does nothing else; the command ends in DONE in state t (R216). -/
def Completes (c : Byte) (s t : State) : Prop :=
  s.busy = false ∧
  ∃ k, Sys2Proof.core.run k { s with host := [.writeCmd c] } = .next t ∧ t.host = [] ∧ t.phase = stDone

/-- The command words of the two operations (R60). -/
def decWord (q : Bool) : Byte := if q then 0x02#8 else 0x00#8
def encWord (q : Bool) : Byte := if q then 0x03#8 else 0x01#8

/-- The first n bytes of the source, and of the target. -/
def State.srcList (s : State) (n : Nat) : List Byte := (List.range n).map s.srcByte
def State.tgtList (s : State) (n : Nat) : List Byte := (List.range n).map s.tgtByte

/-- bs' is bs with SP and TAB bytes inserted directly before some of its CR LF pairs (R113 b). -/
inductive Padded : List Byte → List Byte → Prop where
  | nil : Padded [] []
  | same (b : Byte) {bs bs' : List Byte} : Padded bs bs' → Padded (b :: bs) (b :: bs')
  | pad (b : Byte) {bs bs' : List Byte} : isPad b = true → Padded (bCr :: bLf :: bs) bs' → Padded (bCr :: bLf :: bs) (b :: bs')

/-- The bytes of a line terminator, as R105 copies them. -/
def terminatorBytes : Term → List Byte
  | .crlf => [0x0D#8, 0x0A#8]
  | .cr => [0x0D#8]
  | .lf => [0x0A#8]

/-- The format-validity predicate of D00 §8 bullet 2 (R141) on the n bytes rd: CR and LF only appear paired; no line ends with SP or
TAB; every `=` is followed by two hex digits or CR LF and is neither the last nor the second-to-last byte; in standard mode no
line is longer than 76; in Q mode there is no CR, LF, SP or TAB at all. -/
def ValidOutput (q : Bool) (rd : Nat → Byte) (n : Nat) : Prop :=
  (∀ i, i < n → rd i = bCr → i + 1 < n ∧ rd (i + 1) = bLf) ∧
  (∀ i, i < n → rd i = bLf → 0 < i ∧ rd (i - 1) = bCr) ∧
  (∀ i, i < n → isPad (rd i) = true → i + 1 < n ∧ rd (i + 1) ≠ bCr) ∧
  (∀ i, i < n → rd i = bEsc →
    i + 2 < n ∧ ((tdec (rd (i + 1)) ≠ 0#8 ∧ tdec (rd (i + 2)) ≠ 0#8) ∨ (rd (i + 1) = bCr ∧ rd (i + 2) = bLf))) ∧
  (q = false → ∀ i j, i ≤ j → j ≤ n → (∀ k, i ≤ k → k < j → rd k ≠ bCr ∧ rd k ≠ bLf) → j - i ≤ 76) ∧
  (q = true → ∀ i, i < n → rd i ≠ bCr ∧ rd i ≠ bLf ∧ isPad (rd i) = false)

end Sys2Proof.Machine
end

