-- ==== Sys2Proof/Certificates/Slice0/Obligations.lean ====
section
/-! DEFINITION. The statements about the model, for the provers. Each docstring names the rules of spec/ it formalises. A statement
that completes an instruction says which fields change and, through `Untouched`, `TgtGets` and `TgtSame`, that nothing else does. -/

open Sys2Proof Sys2Proof.Machine

/-! ### The tables -/

/-- R81, R82, R86, R83, R84, R85: TDEC holds the 22 listed entries and zeros, TENC the upper-case hex digit characters of R82's
string, the high digit first, the three class tables the listed bitmaps; and the tables mark as many entries as R86 counts. -/
def Obligations.TablesMatchTheirListings : Prop :=
  (∀ c : Byte, tdec c = (tdecEntries.lookup c).getD 0#8) ∧
  (∀ v : Byte, tenc (BitVec.ofNat 9 (2 * v.toNat)) = hexDigits.getD (v.toNat / 16) 0#8 ∧
    tenc (BitVec.ofNat 9 (2 * v.toNat + 1)) = hexDigits.getD (v.toNat % 16) 0#8) ∧
  (∀ c : Byte,
    tlit c = bitmapEntry [0b0000000001000000#16, 0b0000000000000000#16, 0b1111111111111111#16, 0b1111111111111011#16,
      0b1111111111111111#16, 0b1111111111111110#16, 0b1111111111111111#16, 0b1111111111111110#16] c ∧
    tlegal c = bitmapEntry [0b0000000001000000#16, 0b0000000000000000#16, 0b1111111111111111#16, 0b1111111111111111#16,
      0b1111111111111111#16, 0b1111111111111111#16, 0b1111111111111111#16, 0b1111111111111110#16] c ∧
    tlitr c = bitmapEntry [0b0000000000000000#16, 0b0000000000000000#16, 0b0000000000000000#16, 0b1111111111000000#16,
      0b0111111111111111#16, 0b1111111111100000#16, 0b0111111111111111#16, 0b1111111111100000#16] c) ∧
  entriesWith (fun c => tlit c == 1#8) = 94 ∧ entriesWith (fun c => tlegal c == 1#8) = 96 ∧
  entriesWith (fun c => tlitr c == 1#8) = 62 ∧ entriesWith (fun c => tdec c != 0#8) = 22

/-- R88, R82: the facts (a) to (g) the step rules rely on, the entries of TENC among them. -/
def Obligations.TableFactsHold : Prop :=
  (∀ c : Byte, (tlitr c = 1#8 → tlit c = 1#8) ∧ (tlit c = 1#8 → tlegal c = 1#8)) ∧
  (∀ c : Byte, c ∈ [bSp, bTab, bCr, bLf, bEsc, bUsc] → tdec c = 0#8) ∧
  (∀ i : BitVec 9, tdec (tenc i) ≠ 0#8 ∧ tlitr (tenc i) = 1#8) ∧
  (∀ v : Byte, ((tdec (tenc (v.setWidth 9 <<< 1)) - 1#8) <<< 4) + (tdec (tenc ((v.setWidth 9 <<< 1) + 1#9)) - 1#8) = v) ∧
  tlit bSp = 1#8 ∧ tlit bTab = 1#8 ∧ tlitr bSp = 0#8 ∧ tlitr bTab = 0#8 ∧
  tlegal bEsc = 1#8 ∧ tlit bEsc = 0#8 ∧ tlitr bEsc = 0#8 ∧
  tlit bCr = 0#8 ∧ tlit bLf = 0#8 ∧ tlegal bCr = 0#8 ∧ tlegal bLf = 0#8

/-! ### Reset and the host's registers -/

/-- R30, R200, R202: after reset, and after a reset by the host in any state (BUSY or not), every register is 0 and STATUS is IDLE;
no byte of SRC or TGT keeps its value (each is a free one). That the parameters and the host's own list are not the block's is
the model's choice (log 1, 4). -/
def Obligations.ResetClearsEveryRegister : Prop :=
  (∀ p : Params, State.resetWith p =
    { si := 0, ti := 0, line := 0, rw := 0, op := false, q := false, slen := 0, tcap := 0, status := 0x00#8, wlen := 0,
      src := [], tgt := [], cfg := p, host := [], rdata := 0, srcEpoch := 0, tgtEpoch := 0, draws := 0 }) ∧
  ∀ (s : State) (rest : List HostOp), s.host = .reset :: rest →
    ∃ t, step s = .next t ∧ t.si = 0 ∧ t.ti = 0 ∧ t.line = 0 ∧ t.rw = 0 ∧ t.op = false ∧ t.q = false ∧ t.slen = 0 ∧ t.tcap = 0 ∧
      t.status = 0x00#8 ∧ t.wlen = 0 ∧ t.cfg = s.cfg ∧ t.host = rest ∧
      (∀ i, t.srcByte i = Config.freeSrc (s.srcEpoch + 1) i) ∧ (∀ i, t.tgtByte i = Config.freeTgt (s.tgtEpoch + 1) i)

/-- R19, R20, R23, R24, R25: while no command is in progress, a host write of SLEN, TCAP, a byte of SRC or a byte of TGT changes that
and nothing else. -/
def Obligations.HostWritesChangeOnePlace : Prop :=
  ∀ (s : State) (rest : List HostOp), s.busy = false →
    (∀ n, s.host = .writeSlen n :: rest → n < 2 ^ s.cfg.idxW → step s = .next { s with host := rest, slen := n }) ∧
    (∀ n, s.host = .writeTcap n :: rest → n < 2 ^ s.cfg.idxW → step s = .next { s with host := rest, tcap := n }) ∧
    (∀ i b, s.host = .writeSrc i b :: rest → i < s.cfg.srcCap →
      ∃ t, step s = .next t ∧ t = { s with host := rest, src := t.src } ∧
        t.srcByte i = b ∧ ∀ j, j ≠ i → t.srcByte j = s.srcByte j) ∧
    (∀ i b, s.host = .writeTgt i b :: rest → i < s.cfg.tgtCap →
      ∃ t, step s = .next t ∧ t = { s with host := rest, tgt := t.tgt } ∧
        t.tgtByte i = b ∧ ∀ j, j ≠ i → t.tgtByte j = s.tgtByte j)

/-- R23, R211 (U4): while a command is in progress, a host write of SLEN, TCAP, SRC or TGT is given no meaning. -/
def Obligations.HostWritesRefusedWhileBusy : Prop :=
  ∀ (s : State) (op : HostOp) (rest : List HostOp), s.busy = true → s.host = op :: rest →
    ((∃ n, op = .writeSlen n) ∨ (∃ n, op = .writeTcap n) ∨ (∃ i b, op = .writeSrc i b) ∨ (∃ i b, op = .writeTgt i b)) →
    step s = .refused .hostWriteWhileBusy

/-- R19, R20, R24, R25, R45 (log 11): a host access of SRC or TGT at an index the memory does not have stops the machine (a write while
no command is in progress, a read at any time), and a host write of SLEN or TCAP of a value that IDX_W bits cannot hold is refused. -/
def Obligations.HostAccessOutOfRangeStops : Prop :=
  ∀ (s : State) (rest : List HostOp),
    (∀ i, s.host = .readSrc i :: rest → s.cfg.srcCap ≤ i → step s = .fault .srcOutOfRange) ∧
    (∀ i, s.host = .readTgt i :: rest → s.cfg.tgtCap ≤ i → step s = .fault .tgtOutOfRange) ∧
    (s.busy = false →
      (∀ i b, s.host = .writeSrc i b :: rest → s.cfg.srcCap ≤ i → step s = .fault .srcOutOfRange) ∧
      (∀ i b, s.host = .writeTgt i b :: rest → s.cfg.tgtCap ≤ i → step s = .fault .tgtOutOfRange) ∧
      (∀ n, s.host = .writeSlen n :: rest → 2 ^ s.cfg.idxW ≤ n → step s = .refused .valueTooWide) ∧
      (∀ n, s.host = .writeTcap n :: rest → 2 ^ s.cfg.idxW ≤ n → step s = .refused .valueTooWide))

/-- R18, R19, R20, R21, R22, R23: what a host read returns: 0 for CMD and STATUS itself at any time, the other registers and the
bytes of SRC and TGT while no command is in progress. A read changes nothing but the host's own fields. -/
def Obligations.HostReadsReturnTheState : Prop :=
  ∀ (s : State) (rest : List HostOp),
    (s.host = .readReg .cmd :: rest → step s = .next { s with host := rest, rdata := 0 }) ∧
    (s.host = .readReg .status :: rest → step s = .next { s with host := rest, rdata := s.status.toNat }) ∧
    (s.busy = false →
      (s.host = .readReg .slen :: rest → step s = .next { s with host := rest, rdata := s.slen }) ∧
      (s.host = .readReg .tcap :: rest → step s = .next { s with host := rest, rdata := s.tcap }) ∧
      (s.host = .readReg .wlen :: rest → step s = .next { s with host := rest, rdata := s.wlen }) ∧
      (∀ i, s.host = .readSrc i :: rest → i < s.cfg.srcCap →
        step s = .next { s with host := rest, rdata := (s.srcByte i).toNat }) ∧
      (∀ i, s.host = .readTgt i :: rest → i < s.cfg.tgtCap →
        step s = .next { s with host := rest, rdata := (s.tgtByte i).toNat }))

/-- R192, R188: between commands, with nothing pending, the block keeps all its state. -/
def Obligations.IdleBlockKeepsItsState : Prop :=
  ∀ s : State, s.host = [] → s.busy = false → step s = .next s

/-! ### Commands -/

/-- R160, R164, R17: each of the four commands, written while no command is in progress and passing its start checks, sets BUSY with
no error, latches OP and Q from its word and zeroes the cursors; SLEN, TCAP, SRC and TGT are unchanged. WLEN is left unspecified
(U2). That LINE is 0 for DEC and DECQ too is the model's choice (log 21): R160's pseudocode zeroes it, R164 does for encode only,
and R15 and U8 leave LINE open in a decode command. -/
def Obligations.CommandStartsItsScan : Prop :=
  ∀ (i : Instr) (c : Byte),
    (i, c) ∈ [(Instr.dec, 0x00#8), (Instr.enc, 0x01#8), (Instr.decq, 0x02#8), (Instr.encq, 0x03#8)] →
    ∀ s : State, s.busy = false → Accepts c s →
      ∃ t, exec i s = .next t ∧ t.status = 0x01#8 ∧ t.op = c.getLsbD 0 ∧ t.q = c.getLsbD 1 ∧
        t.si = 0 ∧ t.ti = 0 ∧ t.line = 0 ∧ t.rw = 0 ∧
        t.slen = s.slen ∧ t.tcap = s.tcap ∧ t.src = s.src ∧ t.srcEpoch = s.srcEpoch ∧ TgtSame s t ∧
        t.cfg = s.cfg ∧ t.host = s.host ∧ t.rdata = s.rdata

/-- R161, R162, R163, R186, R180, R184: the outcome of a write of any word to CMD while no command is in progress: InvalidArgument for a
reserved bit, SLEN above SRC_CAP or TCAP above TGT_CAP; else BufferTooSmall; else the command is in progress. In every case SRC,
TGT, SLEN and TCAP are as the host left them. -/
def Obligations.StartChecksDecideTheOutcome : Prop :=
  ∀ (s : State) (c : Byte) (rest : List HostOp), s.host = .writeCmd c :: rest → s.busy = false →
    ∃ t, step s = .next t ∧
      t.status =
        (if c.extractLsb' 2 6 ≠ 0#6 then 0x07#8
         else if s.cfg.srcCap < s.slen then 0x07#8
         else if s.cfg.tgtCap < s.tcap then 0x07#8
         else if c.getLsbD 0 = false ∧ s.tcap < s.slen then 0x0B#8
         else if c.getLsbD 0 = true ∧ s.tcap < etl s.slen then 0x0B#8
         else 0x01#8) ∧
      t.slen = s.slen ∧ t.tcap = s.tcap ∧ t.src = s.src ∧ t.srcEpoch = s.srcEpoch ∧ TgtSame s t ∧ t.cfg = s.cfg ∧ t.host = rest

/-- R18: a write to CMD while BUSY is ignored, whatever the word. -/
def Obligations.CommandWhileBusyIsIgnored : Prop :=
  (∀ (i : Instr) (s : State), i ∈ [Instr.dec, Instr.enc, Instr.decq, Instr.encq] → s.busy = true → exec i s = .next s) ∧
  ∀ (s : State) (c : Byte) (rest : List HostOp), s.host = .writeCmd c :: rest → s.busy = true →
    step s = .next { s with host := rest }

/-- R150, R169 (d): the sizing function, with the ceiling and the maximum of the formula taken exactly. -/
def Obligations.EtlIsTheSizingFormula : Prop :=
  ∀ n : Nat, (etl n : ℤ) = 3 * n + 3 * max (⌈((3 * n : ℕ) : ℚ) / 75⌉ - 1) 0

/-- R165, R166: after the end-of-buffer action, the post-check: with SI = SLEN and TI at most TCAP the command ends in DONE with
WLEN = TI and TGT as it stands; otherwise it ends in Overflow. SRC, SLEN and TCAP are unchanged either way. -/
def Obligations.PostCheckEndsTheCommand : Prop :=
  ∀ (s u : State) (i : Instr), s.host = [] → s.busy = true → fetch s = .ok i → i = .dEob ∨ i = .eEob → exec i s = .next u →
    ∃ t, step s = .next t ∧ t.slen = u.slen ∧ t.tcap = u.tcap ∧ t.src = u.src ∧ t.srcEpoch = u.srcEpoch ∧ t.host = [] ∧
      (u.si = u.slen ∧ u.ti ≤ u.tcap → t.phase = stDone ∧ t.err = u.err ∧ t.wlen = u.ti ∧ TgtSame u t) ∧
      (u.si ≠ u.slen ∨ u.tcap < u.ti → t.status = 0x0F#8)

/-! ### Running and reading instructions -/

/-- R10, R100, R130, R160 (log 3, 4): a step runs the decoded instruction. While BUSY with the host leaving the engine its turn (nothing
pending, waiting, or pausing), the bytes at SI decode to i and the step is exec of i, followed after the end-of-buffer action by
the end of the command; a command word the host writes decodes to i and the step is exec of i. -/
def Obligations.StepRunsTheDecodedInstruction : Prop :=
  (∀ (s : State) (i : Instr) (r : List Byte), s.busy = true → s.slen ≤ s.cfg.srcCap →
    decode s.ctx (window s) = .ok (i, r) →
    (s.host = [] ∨ (∃ rest, s.host = .await :: rest) → step s = settle i (exec i s)) ∧
    (∀ rest, step { s with host := .pause :: rest } = settle i (exec i { s with host := rest }))) ∧
  ∀ (s : State) (c : Byte) (i : Instr) (r : List Byte) (rest : List HostOp),
    s.host = .writeCmd c :: rest → decode .cmd [c] = .ok (i, r) → step s = exec i { s with host := rest }

/-- R101, R63: the decoder's choice of the step, in the order of its arms and with the bounds of each look ahead; the end of the
buffer is D.EOB (R100). -/
def Obligations.DecodeStepSelection : Prop :=
  ∀ s : State, s.op = false → s.slen ≤ s.cfg.srcCap →
    fetch s = .ok (
      if s.slen ≤ s.si then .dEob
      else if s.srcByte s.si = 0x3D#8 ∧ s.si + 2 < s.slen ∧ tdec (s.srcByte (s.si + 1)) ≠ 0#8 ∧ tdec (s.srcByte (s.si + 2)) ≠ 0#8 then
        .dEsc (s.srcByte (s.si + 1)) (s.srcByte (s.si + 2))
      else if s.srcByte s.si = 0x0D#8 ∨ s.srcByte s.si = 0x0A#8 then
        let t : Term :=
          if s.srcByte s.si = 0x0D#8 then
            if s.si + 1 < s.slen ∧ s.srcByte (s.si + 1) = 0x0A#8 then .crlf else .cr
          else .lf
        if padSoft s.srcByte s.si then .dSoft t else .dHard t
      else if s.q = true ∧ s.srcByte s.si = 0x5F#8 then .dUsc
      else if tlegal (s.srcByte s.si) = 1#8 then .dLit (s.srcByte s.si)
      else .dDrop (s.srcByte s.si))

/-- R131, R65: the encoder's choice of the step; the end of the buffer is E.EOB (R130). -/
def Obligations.EncodeStepSelection : Prop :=
  ∀ s : State, s.op = true → s.slen ≤ s.cfg.srcCap →
    fetch s = .ok (
      if s.slen ≤ s.si then .eEob
      else if (if s.q then tlitr (s.srcByte s.si) else tlit (s.srcByte s.si)) = 1#8 then .eLit (s.srcByte s.si)
      else if s.q = false ∧ s.srcByte s.si = 0x0D#8 ∧ s.si + 1 < s.slen ∧ s.srcByte (s.si + 1) = 0x0A#8 then .eCrlf
      else .eSym (s.srcByte s.si))

/-- R24, R43: which instruction is fetched depends on no source byte at or above SLEN. -/
def Obligations.FetchReadsOnlyBelowSlen : Prop :=
  ∀ s t : State, t.si = s.si → t.slen = s.slen → t.op = s.op → t.q = s.q → t.cfg = s.cfg →
    (∀ i, i < s.slen → t.srcByte i = s.srcByte i) → fetch t = fetch s

/-! ### The decoder's steps -/

/-- R102, R64: D.ESC writes the byte whose high digit is h and whose low digit is g, advances TI by 1 and SI by 3, and changes nothing
else. -/
def Obligations.EscapeWritesTheDecodedByte : Prop :=
  ∀ (h g : Byte) (s : State), tdec h ≠ 0#8 → tdec g ≠ 0#8 → s.ti < s.cfg.tgtCap →
    ∃ (t : State) (v : Byte), exec (.dEsc h g) s = .next t ∧
      v.toNat = 16 * ((tdec h).toNat - 1) + ((tdec g).toNat - 1) ∧ TgtGets s t s.ti [v] ∧
      t.ti = s.ti + 1 ∧ t.si = s.si + 3 ∧ t.line = s.line ∧ t.rw = s.rw ∧ Untouched s t

/-- R106, R107: D.LIT copies its byte and D.USC writes a SP; both advance TI and SI by 1 and change nothing else. -/
def Obligations.LiteralAndUnderscoreWriteOneByte : Prop :=
  ∀ (i : Instr) (b : Byte) (s : State), (i = .dLit b ∨ (i = .dUsc ∧ b = 0x20#8)) → s.ti < s.cfg.tgtCap →
    ∃ t, exec i s = .next t ∧ TgtGets s t s.ti [b] ∧
      t.ti = s.ti + 1 ∧ t.si = s.si + 1 ∧ t.line = s.line ∧ t.rw = s.rw ∧ Untouched s t

/-- R108: D.DROP advances SI by 1 and changes nothing else, for every byte. -/
def Obligations.DropAdvancesSiOnly : Prop :=
  ∀ (b : Byte) (s : State), exec (.dDrop b) s = .next { s with si := s.si + 1 }

/-- R103: PADCHK walks RW back over the maximal run of SP and TAB of the source, lowers TI with it, and by one more for an `=` before
the run; its answer (to its caller) is whether that `=` stands there. TGT is not written. -/
def Obligations.PadchkWalksTheSource : Prop :=
  ∀ s : State, s.rw ≤ s.cfg.srcCap →
    ∃ t, exec .padchk s = .next t ∧ PadResult s s.rw t.rw t.ti ∧
      (padSoft s.srcByte s.rw = true ↔ 0 < t.rw ∧ s.srcByte (t.rw - 1) = 0x3D#8) ∧
      t.si = s.si ∧ t.line = s.line ∧ TgtSame s t ∧ Untouched s t

/-- R104, R101, R103: D.SOFT, with the PADCHK before it, takes padding and `=` out of the output, moves SI past the whole
terminator and writes nothing. -/
def Obligations.SoftBreakWritesNothing : Prop :=
  ∀ (e : Term) (s : State), s.si ≤ s.cfg.srcCap →
    ∃ t, exec (.dSoft e) s = .next t ∧ PadResult s s.si t.rw t.ti ∧
      t.si = s.si + (match e with | .crlf => 2 | .cr => 1 | .lf => 1) ∧ t.line = s.line ∧ TgtSame s t ∧ Untouched s t

/-- R105, R101, R103: D.HARD, with the PADCHK before it, takes padding out of the output and copies the terminator there; it
needs room for the terminator's own bytes at the TI that PADCHK leaves, and no more. -/
def Obligations.HardBreakCopiesTheTerminator : Prop :=
  ∀ (e : Term) (s : State), s.si ≤ s.cfg.srcCap → s.ti - s.padTaken + (terminatorBytes e).length ≤ s.cfg.tgtCap →
    ∃ t, exec (.dHard e) s = .next t ∧ PadResult s s.si t.rw (s.ti - s.padTaken) ∧
      TgtGets s t (s.ti - s.padTaken) (terminatorBytes e) ∧ t.ti = s.ti - s.padTaken + (terminatorBytes e).length ∧
      t.si = s.si + (terminatorBytes e).length ∧ t.line = s.line ∧ Untouched s t

/-- R109: D.EOB runs PADCHK from SI; nothing else changes. (EOB_CHECK is the spec's, true.) -/
def Obligations.EndOfBufferChecksPadding : Prop :=
  ∀ s : State, s.cfg.eobCheck = true → s.si ≤ s.cfg.srcCap →
    ∃ t, exec .dEob s = .next t ∧ PadResult s s.si t.rw t.ti ∧ t.si = s.si ∧ t.line = s.line ∧ TgtSame s t ∧ Untouched s t

/-- 92 D13, R109 (log 17: that the whole action is left out is the model's choice): with EOB_CHECK false D.EOB changes nothing. -/
def Obligations.EndOfBufferCheckCanBeOff : Prop :=
  ∀ s : State, s.cfg.eobCheck = false → exec .dEob s = .next s

/-! ### The encoder's steps -/

/-- R134: SOFTBRK(k). -/
def Obligations.SoftbrkBreaksAtSeventySix : Prop :=
  ∀ (k : Nat) (s : State), s.ti + (breakBytes s.q s.line k).length ≤ s.cfg.tgtCap →
    ∃ t, exec (.softbrk k) s = .next t ∧ TgtGets s t s.ti (breakBytes s.q s.line k) ∧
      t.ti = s.ti + (breakBytes s.q s.line k).length ∧ t.line = breakLine s.q s.line k ∧
      t.si = s.si ∧ t.rw = s.rw ∧ Untouched s t

/-- R135: SYMBOL(v): the soft-break check for three bytes, then `=` and the two upper-case digits; SI is not touched. -/
def Obligations.SymbolWritesThreeBytes : Prop :=
  ∀ (v : Byte) (s : State), s.ti + (breakBytes s.q s.line 3).length + 3 ≤ s.cfg.tgtCap →
    ∃ t, exec (.symbol v) s = .next t ∧ TgtGets s t s.ti (breakBytes s.q s.line 3 ++ hexSymbol v) ∧
      t.ti = s.ti + (breakBytes s.q s.line 3).length + 3 ∧ t.line = breakLine s.q s.line 3 + 3 ∧
      t.si = s.si ∧ t.rw = s.rw ∧ Untouched s t

/-- R137: FLUSHWS: a SP or TAB standing last is removed and re-emitted as its symbol, the soft-break check included; otherwise
nothing happens. -/
def Obligations.FlushwsReemitsTrailingWhitespace : Prop :=
  ∀ s : State, s.ti ≤ s.cfg.tgtCap → s.flushStart + s.flushBytes.length ≤ s.cfg.tgtCap →
    ∃ t, exec .flushws s = .next t ∧ TgtGets s t s.flushStart s.flushBytes ∧
      t.ti = s.flushStart + s.flushBytes.length ∧ t.line = s.flushLine ∧ t.si = s.si ∧ t.rw = s.rw ∧ Untouched s t

/-- R132: E.LIT: the soft-break check for one byte, then the byte; LINE counts it and SI moves on. -/
def Obligations.EncodeLiteralCopiesItsByte : Prop :=
  ∀ (b : Byte) (s : State), s.ti + (breakBytes s.q s.line 1).length + 1 ≤ s.cfg.tgtCap →
    ∃ t, exec (.eLit b) s = .next t ∧ TgtGets s t s.ti (breakBytes s.q s.line 1 ++ [b]) ∧
      t.ti = s.ti + (breakBytes s.q s.line 1).length + 1 ∧ t.line = breakLine s.q s.line 1 + 1 ∧
      t.si = s.si + 1 ∧ t.rw = s.rw ∧ Untouched s t

/-- R133: E.CRLF: FLUSHWS, then CR LF; LINE is 0 and SI moves past the pair. -/
def Obligations.EncodeCrlfFlushesAndCopies : Prop :=
  ∀ s : State, s.ti ≤ s.cfg.tgtCap → s.flushStart + s.flushBytes.length + 2 ≤ s.cfg.tgtCap →
    ∃ t, exec .eCrlf s = .next t ∧ TgtGets s t s.flushStart (s.flushBytes ++ [0x0D#8, 0x0A#8]) ∧
      t.ti = s.flushStart + s.flushBytes.length + 2 ∧ t.line = 0 ∧ t.si = s.si + 2 ∧ t.rw = s.rw ∧ Untouched s t

/-- R136: E.SYM: the symbol of its byte, and SI moves on. -/
def Obligations.EncodeSymbolForAnyOtherByte : Prop :=
  ∀ (v : Byte) (s : State), s.ti + (breakBytes s.q s.line 3).length + 3 ≤ s.cfg.tgtCap →
    ∃ t, exec (.eSym v) s = .next t ∧ TgtGets s t s.ti (breakBytes s.q s.line 3 ++ hexSymbol v) ∧
      t.ti = s.ti + (breakBytes s.q s.line 3).length + 3 ∧ t.line = breakLine s.q s.line 3 + 3 ∧
      t.si = s.si + 1 ∧ t.rw = s.rw ∧ Untouched s t

/-- R138: E.EOB: FLUSHWS once more. -/
def Obligations.EncodeEndOfBufferFlushes : Prop :=
  ∀ s : State, s.ti ≤ s.cfg.tgtCap → s.flushStart + s.flushBytes.length ≤ s.cfg.tgtCap →
    ∃ t, exec .eEob s = .next t ∧ TgtGets s t s.flushStart s.flushBytes ∧
      t.ti = s.flushStart + s.flushBytes.length ∧ t.line = s.flushLine ∧ t.si = s.si ∧ t.rw = s.rw ∧ Untouched s t

/-- R43, R45 (log 12): an access of the engine at an index the memory does not have stops the machine: for every instruction that
accesses a memory, exactly where its completion statement does not apply, and for the fetch. A write of more than one byte stops
when its last byte has no index. -/
def Obligations.AccessOutsideTheMemoriesFaults : Prop :=
  ∀ s : State,
    (s.cfg.tgtCap < s.ti + 1 →
      (∀ h g, exec (.dEsc h g) s = .fault .tgtOutOfRange) ∧ (∀ b, exec (.dLit b) s = .fault .tgtOutOfRange) ∧
      exec .dUsc s = .fault .tgtOutOfRange) ∧
    (∀ k, s.q = false → 76 ≤ s.line + k → s.cfg.tgtCap < s.ti + 3 → exec (.softbrk k) s = .fault .tgtOutOfRange) ∧
    (s.cfg.tgtCap < s.ti + (breakBytes s.q s.line 3).length + 3 →
      (∀ v, exec (.symbol v) s = .fault .tgtOutOfRange) ∧ ∀ v, exec (.eSym v) s = .fault .tgtOutOfRange) ∧
    (s.cfg.tgtCap < s.ti + (breakBytes s.q s.line 1).length + 1 → ∀ b, exec (.eLit b) s = .fault .tgtOutOfRange) ∧
    (s.cfg.tgtCap < s.ti ∨ s.cfg.tgtCap < s.flushStart + s.flushBytes.length →
      exec .flushws s = .fault .tgtOutOfRange ∧ exec .eEob s = .fault .tgtOutOfRange) ∧
    (s.cfg.tgtCap < s.ti ∨ s.cfg.tgtCap < s.flushStart + s.flushBytes.length + 2 → exec .eCrlf s = .fault .tgtOutOfRange) ∧
    (s.cfg.srcCap < s.rw → exec .padchk s = .fault .srcOutOfRange) ∧
    (s.cfg.srcCap < s.si →
      (∀ e, exec (.dSoft e) s = .fault .srcOutOfRange) ∧ (∀ e, exec (.dHard e) s = .fault .srcOutOfRange) ∧
      (s.cfg.eobCheck = true → exec .dEob s = .fault .srcOutOfRange)) ∧
    (∀ e, s.si ≤ s.cfg.srcCap → s.cfg.tgtCap < s.ti - s.padTaken + (terminatorBytes e).length →
      exec (.dHard e) s = .fault .tgtOutOfRange) ∧
    (s.host = [] → s.busy = true → s.si < s.slen → s.cfg.srcCap < s.si + min 3 (s.slen - s.si) →
      step s = .fault .srcOutOfRange)

/-! ### Encodings -/

/-- R60, R62, R65: decoding what an instruction encodes to gives the instruction back, with every operand, in every context that admits
it and before any bytes that may follow it. -/
def Obligations.DecodeOfEncodeIsTheInstruction : Prop :=
  ∀ (ctx : Ctx) (i : Instr) (bs rest : List Byte), i.wf = true → ctx.admits i = true → i.follows ctx rest = true →
    encode i = some bs → decode ctx (bs ++ rest) = .ok (i, rest)

/-- R62, R63, R65, R67: whatever bytes decode to is well-formed, admitted by its context, and encodes to exactly the bytes consumed; in
the scan contexts every byte string decodes. -/
def Obligations.EncodeOfDecodeIsTheBytes : Prop :=
  (∀ (ctx : Ctx) (bs rest : List Byte) (i : Instr), decode ctx bs = .ok (i, rest) →
    i.wf = true ∧ ctx.admits i = true ∧ i.follows ctx rest = true ∧ ∃ pre, encode i = some pre ∧ bs = pre ++ rest) ∧
  ∀ (ctx : Ctx) (bs : List Byte), ctx ≠ .cmd → ∃ i rest, decode ctx bs = .ok (i, rest)

/-- R61, R60: a command word is an instruction exactly when its bits 7:2 are zero. -/
def Obligations.ReservedCommandWordsAreRejected : Prop :=
  ∀ c : Byte, (c.extractLsb' 2 6 ≠ 0#6 → decode .cmd [c] = .error (.reservedCommand c)) ∧
    (c.extractLsb' 2 6 = 0#6 → ∃ i, decode .cmd [c] = .ok (i, []))

/-- R60, R62, R65: words written out from the tables of the encodings. -/
def Obligations.EncodedWordsDecode : Prop :=
  decode .cmd [0b00000000#8] = .ok (.dec, []) ∧ decode .cmd [0b00000001#8] = .ok (.enc, []) ∧
  decode .cmd [0b00000010#8] = .ok (.decq, []) ∧ decode .cmd [0b00000011#8] = .ok (.encq, []) ∧
  decode (.dec false false) [0b00111101#8, 0b00110100#8, 0b01000001#8] = .ok (.dEsc 0x34#8 0x41#8, []) ∧
  decode (.dec false true) [0b00001101#8, 0b00001010#8] = .ok (.dSoft .crlf, []) ∧
  decode (.dec false false) [0b00001010#8, 0b00001101#8] = .ok (.dHard .lf, [0b00001101#8]) ∧
  decode (.dec true false) [0b01011111#8] = .ok (.dUsc, []) ∧ decode (.dec false false) [0b01011111#8] = .ok (.dLit 0x5F#8, []) ∧
  decode (.dec true true) [0b10000000#8] = .ok (.dDrop 0x80#8, []) ∧
  decode (.enc false) [0b00001101#8, 0b00001010#8] = .ok (.eCrlf, []) ∧
  decode (.enc true) [0b00001101#8, 0b00001010#8] = .ok (.eSym 0x0D#8, [0b00001010#8]) ∧
  decode (.enc false) [0b00100000#8] = .ok (.eLit 0x20#8, []) ∧ decode (.enc true) [0b00100000#8] = .ok (.eSym 0x20#8, [])

/-! ### Invariants -/

/-- R21: STATUS bits 7:4 stay zero and ERR stays nonzero exactly when STATE = ERROR, over every step. -/
def Obligations.EveryStepKeepsStatusLegal : Prop :=
  ∀ s t : State, s.StatusOk → step s = .next t → t.StatusOk

/-- R24, R25, R45: the memories stay canonical and list only indices they have, over every step. -/
def Obligations.EveryStepKeepsMemoriesCanonical : Prop :=
  ∀ s t : State, s.MemOk → step s = .next t → t.MemOk

/-- R19, R20, R22: SLEN, TCAP and WLEN stay within their IDX_W bits, over every step. -/
def Obligations.EveryStepKeepsRegistersInWidth : Prop :=
  ∀ s t : State, s.WidthOk → step s = .next t → t.WidthOk

/-- R12, R111, R112, R151, R171: the bounds of the cursors, and what stands at the end of the output, hold at every step boundary of a
command, over every step. -/
def Obligations.EveryStepKeepsTheScanInvariant : Prop :=
  ∀ s t : State, s.ScanOk → step s = .next t → t.ScanOk

/-- R140: in standard mode LINE is at most 75 and is the number of bytes of the current output line, over every step. -/
def Obligations.EveryStepKeepsTheLineCounter : Prop :=
  ∀ s t : State, s.LineOk → step s = .next t → t.LineOk

/-- R30, R200: reset meets every invariant, for all parameters. -/
def Obligations.ResetMeetsTheInvariants : Prop :=
  ∀ p : Params, (State.resetWith p).StatusOk ∧ (State.resetWith p).MemOk ∧ (State.resetWith p).WidthOk ∧
    (State.resetWith p).ScanOk ∧ (State.resetWith p).LineOk

/-- R112, R151, R215, R14: from a legal state the engine never stops: its step advances SI by 1 to 3, at most to SLEN, or ends the
command in DONE. -/
def Obligations.EngineStepMakesProgress : Prop :=
  ∀ s : State, s.ScanOk → s.busy = true → s.host = [] →
    ∃ t, step s = .next t ∧
      ((t.busy = true ∧ s.si < t.si ∧ t.si ≤ s.si + 3 ∧ t.si ≤ t.slen) ∨ (s.si = s.slen ∧ t.phase = stDone))

/-- R183, R171: no step from a legal state reports Overflow. -/
def Obligations.OverflowIsUnreachable : Prop :=
  ∀ s t : State, s.ScanOk → s.err ≠ QpError.overflow.code → step s = .next t → t.err ≠ QpError.overflow.code

/-- R24, R48, R19, R20, R17: a step of the engine leaves SRC, SLEN and TCAP alone, and OP and Q too while the command goes on. -/
def Obligations.EngineNeverWritesItsInputs : Prop :=
  ∀ s t : State, s.host = [] → step s = .next t →
    t.src = s.src ∧ t.srcEpoch = s.srcEpoch ∧ t.slen = s.slen ∧ t.tcap = s.tcap ∧ (t.busy = true → t.op = s.op ∧ t.q = s.q)

/-- R6, R10 (log 1): no step changes the parameters. -/
def Obligations.ParametersNeverChange : Prop :=
  ∀ s t : State, step s = .next t → t.cfg = s.cfg

/-! ### Whole commands -/

/-- R160, R165, R167, R112, R151, R215: a command that passes its start checks ends in DONE, whatever the source holds: the issue, at most
SLEN scan steps and the end-of-buffer action; WLEN is at most SLEN for decode, ETL(SLEN) for encode; SRC, SLEN and TCAP are
unchanged. -/
def Obligations.AcceptedCommandEndsInDone : Prop :=
  ∀ (c : Byte) (s : State), s.busy = false → Accepts c s →
    ∃ t, Sys2Proof.core.run (s.slen + 2) { s with host := [.writeCmd c] } = .next t ∧ t.host = [] ∧ t.phase = stDone ∧ t.err = 0#2 ∧
      t.wlen ≤ (if c.getLsbD 0 then etl s.slen else s.slen) ∧
      t.src = s.src ∧ t.srcEpoch = s.srcEpoch ∧ t.slen = s.slen ∧ t.tcap = s.tcap

/-- R69, R203, R46: the host's calls: from any state with no command in progress, the byte string put in SRC, SLEN and TCAP written, the
command written last and the wait after it run to DONE, for every byte string that fits the memories. -/
def Obligations.HostCallsRunToDone : Prop :=
  ∀ (e q : Bool) (bs : List Byte) (s : State), s.busy = false → s.cfg.wf → bs.length ≤ s.cfg.srcCap →
    (if e then etl bs.length else bs.length) ≤ s.cfg.tgtCap →
    ∃ k t, Sys2Proof.core.run k { s with host := if e then encodeCall s.cfg q bs else decodeCall s.cfg q bs } = .next t ∧
      t.host = [] ∧ t.phase = stDone ∧ t.err = 0#2 ∧ t.srcList bs.length = bs ∧ t.slen = bs.length ∧
      t.tcap = (if e then etl bs.length else bs.length) ∧ t.wlen ≤ t.tcap

/-- R69, R162: a call whose source does not fit SRC, or whose capacity does not fit TGT, ends in InvalidArgument with TGT untouched, for
every byte string and all parameters that meet the constraints of R6. What the host loads and writes before that is the model's
choice (log 26). -/
def Obligations.HostCallsThatDoNotFitRaiseInvalidArgument : Prop :=
  ∀ (e q : Bool) (bs : List Byte) (s : State), s.busy = false → s.cfg.wf →
    (s.cfg.srcCap < bs.length ∨ s.cfg.tgtCap < (if e then etl bs.length else bs.length)) →
    ∃ k t, Sys2Proof.core.run k { s with host := if e then encodeCall s.cfg q bs else decodeCall s.cfg q bs } = .next t ∧
      t.host = [] ∧ t.phase = stError ∧ t.err = QpError.invalidArgument.code ∧ TgtSame s t

/-- R167, R44, R24: the result of a command depends only on its word and SRC[0..SLEN) (and on EOB_CHECK, log 17). -/
def Obligations.CommandIsAFunctionOfItsSource : Prop :=
  ∀ (c : Byte) (s s' t t' : State), s'.slen = s.slen → s'.cfg.eobCheck = s.cfg.eobCheck →
    (∀ i, i < s.slen → s'.srcByte i = s.srcByte i) → Completes c s t → Completes c s' t' →
    t'.wlen = t.wlen ∧ ∀ i, i < t.wlen → t'.tgtByte i = t.tgtByte i

/-- R113 (a), R142: decoding an encoded buffer, moved by the host from TGT to SRC, gives the source back, in both modes. -/
def Obligations.DecodeOfEncodedBufferIsTheSource : Prop :=
  ∀ (q : Bool) (s t u v : State), Completes (encWord q) s t → u.slen = t.wlen →
    (∀ i, i < t.wlen → u.srcByte i = t.tgtByte i) → Completes (decWord q) u v →
    v.wlen = s.slen ∧ ∀ i, i < s.slen → v.tgtByte i = s.srcByte i

/-- R141: the output of an encode command is format-valid. -/
def Obligations.EncodedOutputIsValid : Prop :=
  ∀ (q : Bool) (s t : State), Completes (encWord q) s t → ValidOutput q t.tgtByte t.wlen

/-- R142, R66: the encoder emits no `_`, no byte above 0x7E, below 0x20 only TAB and, in standard mode, CR and LF, these two only as
the pair; and no lower-case hex digit: after an `=` stand two characters of R82's string, or in standard mode CR LF. -/
def Obligations.EncodedOutputAlphabet : Prop :=
  ∀ (q : Bool) (s t : State), Completes (encWord q) s t → ∀ i, i < t.wlen →
    t.tgtByte i ≠ 0x5F#8 ∧ t.tgtByte i ≤ 0x7E#8 ∧
    (0x20#8 ≤ t.tgtByte i ∨ (q = false ∧ (t.tgtByte i = 0x09#8 ∨ t.tgtByte i = 0x0D#8 ∨ t.tgtByte i = 0x0A#8))) ∧
    (t.tgtByte i = 0x0D#8 → i + 1 < t.wlen ∧ t.tgtByte (i + 1) = 0x0A#8) ∧
    (t.tgtByte i = 0x0A#8 → 0 < i ∧ t.tgtByte (i - 1) = 0x0D#8) ∧
    (t.tgtByte i = 0x3D#8 → i + 2 < t.wlen ∧
      ((t.tgtByte (i + 1) ∈ hexDigits ∧ t.tgtByte (i + 2) ∈ hexDigits) ∨
        (q = false ∧ t.tgtByte (i + 1) = 0x0D#8 ∧ t.tgtByte (i + 2) = 0x0A#8)))

/-- R113 (b), R103: SP and TAB bytes inserted directly before CR LF pairs of a source do not change what it decodes to. -/
def Obligations.DecodeIgnoresTransportPadding : Prop :=
  ∀ (q : Bool) (s s' t t' : State), s'.cfg.eobCheck = s.cfg.eobCheck →
    Padded (s.srcList s.slen) (s'.srcList s'.slen) → Completes (decWord q) s t → Completes (decWord q) s' t' →
    t'.tgtList t'.wlen = t.tgtList t.wlen

/-- R114: DECQ and DEC of one source give outputs of one length that differ only where DEC has `_` and DECQ has SP. -/
def Obligations.DecqDiffersFromDecInUnderscoresOnly : Prop :=
  ∀ (s t t' : State), Completes 0x00#8 s t → Completes 0x02#8 s t' →
    t'.wlen = t.wlen ∧ ∀ i, i < t.wlen →
      t'.tgtByte i = t.tgtByte i ∨ (t.tgtByte i = 0x5F#8 ∧ t'.tgtByte i = 0x20#8)
end

