-- ==== Sys2Proof/Laws/Memory.lean ====
section
/-! SUPPORT. The memory laws: a read after a write, the canonical form, and that indices stay below a bound. -/

namespace Sys2Proof.Machine

theorem Memory.read_write (m : Memory) (a : Nat) (b : Byte) (x : Nat) :
    Memory.read (Memory.write m a b) x = if x = a then some b else Memory.read m x := by
  induction m with
  | nil => simp only [Memory.write, Memory.read, eq_comm]
  | cons c rest ih =>
    obtain ⟨k, v⟩ := c
    unfold Memory.write
    split
    · simp only [Memory.read, eq_comm]
    · split
      · rename_i _ h2
        subst h2
        by_cases h : x = a
        · simp [Memory.read, h]
        · have h' : ¬ a = x := fun e => h e.symm
          simp [Memory.read, h, h']
      · rename_i h1 h2
        simp only [Memory.read, ih]
        by_cases hk : k = x
        · have : x ≠ a := by omega
          simp [hk, this]
        · simp [hk]

@[simp] theorem Memory.read_write_same (m : Memory) (a : Nat) (b : Byte) :
    Memory.read (Memory.write m a b) a = some b := by simp [Memory.read_write]

/-- Consecutive writes read back, and leave every other index alone. -/
theorem Memory.read_writeAll (bs : List Byte) (m : Memory) (a x : Nat) :
    Memory.read (Memory.writeAll m a bs) x =
      if a ≤ x ∧ x < a + bs.length then bs[x - a]? else Memory.read m x := by
  induction bs generalizing m a with
  | nil => simp only [Memory.writeAll, List.length_nil]; rw [if_neg (by omega)]
  | cons b bs ih =>
    simp only [Memory.writeAll, ih, Memory.read_write, List.length_cons]
    by_cases hx : x = a
    · subst hx
      rw [if_neg (by omega), if_pos rfl, if_pos (by omega)]
      simp
    · rw [if_neg hx]
      by_cases hr : a + 1 ≤ x ∧ x < a + 1 + bs.length
      · rw [if_pos hr, if_pos (by omega)]
        have : x - a = (x - (a + 1)) + 1 := by omega
        rw [this, List.getElem?_cons_succ]
      · rw [if_neg hr, if_neg (by omega)]

/-- The indices after a write are the old ones and the one written. -/
theorem Memory.mem_write {m : Memory} {a : Nat} {b : Byte} {c : Host.Cell} (h : c ∈ Memory.write m a b) :
    c = (a, b) ∨ c ∈ m := by
  induction m with
  | nil => simp [Memory.write] at h; exact .inl h
  | cons d rest ih =>
    obtain ⟨k, v⟩ := d
    unfold Memory.write at h
    split at h
    · simpa using h
    · split at h
      · rcases List.mem_cons.1 h with h | h
        · exact .inl h
        · exact .inr (List.mem_cons_of_mem _ h)
      · rcases List.mem_cons.1 h with h | h
        · exact .inr (by simp [h])
        · rcases ih h with h | h
          · exact .inl h
          · exact .inr (List.mem_cons_of_mem _ h)

theorem Memory.write_wf {m : Memory} (h : Memory.wf m) (a : Nat) (b : Byte) : Memory.wf (Memory.write m a b) := by
  induction m with
  | nil => simp [Memory.write]
  | cons d rest ih =>
    obtain ⟨k, v⟩ := d
    have h' := List.pairwise_cons.1 h
    unfold Memory.write
    split
    · rename_i hk
      refine List.pairwise_cons.2 ⟨fun c hc => ?_, h⟩
      rcases List.mem_cons.1 hc with hc | hc
      · simpa [hc] using hk
      · exact Nat.lt_trans hk (h'.1 c hc)
    · split
      · rename_i _ hk
        exact List.pairwise_cons.2 ⟨fun c hc => by simpa [hk] using h'.1 c hc, h'.2⟩
      · refine List.pairwise_cons.2 ⟨fun c hc => ?_, ih h'.2⟩
        rcases Memory.mem_write hc with hc | hc
        · simp only [hc]; omega
        · exact h'.1 c hc

theorem Memory.writeAll_wf {m : Memory} (h : Memory.wf m) (a : Nat) (bs : List Byte) :
    Memory.wf (Memory.writeAll m a bs) := by
  induction bs generalizing m a with
  | nil => exact h
  | cons b bs ih => exact ih (Memory.write_wf h a b) _

theorem Memory.write_below {m : Memory} {n : Nat} (h : Memory.below m n) {a : Nat} (ha : a < n) (b : Byte) :
    Memory.below (Memory.write m a b) n := fun c hc => by
  rcases Memory.mem_write hc with hc | hc
  · simpa [hc] using ha
  · exact h c hc

theorem Memory.writeAll_below {m : Memory} {n : Nat} (h : Memory.below m n) {a : Nat} (bs : List Byte)
    (ha : a + bs.length ≤ n) : Memory.below (Memory.writeAll m a bs) n := by
  induction bs generalizing m a with
  | nil => exact h
  | cons b bs ih =>
    simp only [List.length_cons] at ha
    exact ih (Memory.write_below h (by omega) b) (by omega)

theorem reset_memory_wf (p : Params) : Memory.wf (State.resetWith p).src ∧ Memory.wf (State.resetWith p).tgt := by
  simp [State.resetWith]

end Sys2Proof.Machine
end

