-- ==== Sys2Proof/Laws/State.lean ====
section
/-! SUPPORT. One lemma per field per named update of State, so that no later proof unfolds one. -/

namespace Sys2Proof.Machine

/-! `State.advance` -/

@[simp] theorem State.advance_si (s : State) (k : Nat) : (s.advance k).si = s.si + k := rfl
@[simp] theorem State.advance_ti (s : State) (k : Nat) : (s.advance k).ti = s.ti := rfl
@[simp] theorem State.advance_line (s : State) (k : Nat) : (s.advance k).line = s.line := rfl
@[simp] theorem State.advance_rw (s : State) (k : Nat) : (s.advance k).rw = s.rw := rfl
@[simp] theorem State.advance_op (s : State) (k : Nat) : (s.advance k).op = s.op := rfl
@[simp] theorem State.advance_q (s : State) (k : Nat) : (s.advance k).q = s.q := rfl
@[simp] theorem State.advance_slen (s : State) (k : Nat) : (s.advance k).slen = s.slen := rfl
@[simp] theorem State.advance_tcap (s : State) (k : Nat) : (s.advance k).tcap = s.tcap := rfl
@[simp] theorem State.advance_status (s : State) (k : Nat) : (s.advance k).status = s.status := rfl
@[simp] theorem State.advance_wlen (s : State) (k : Nat) : (s.advance k).wlen = s.wlen := rfl
@[simp] theorem State.advance_src (s : State) (k : Nat) : (s.advance k).src = s.src := rfl
@[simp] theorem State.advance_tgt (s : State) (k : Nat) : (s.advance k).tgt = s.tgt := rfl
@[simp] theorem State.advance_cfg (s : State) (k : Nat) : (s.advance k).cfg = s.cfg := rfl
@[simp] theorem State.advance_host (s : State) (k : Nat) : (s.advance k).host = s.host := rfl
@[simp] theorem State.advance_rdata (s : State) (k : Nat) : (s.advance k).rdata = s.rdata := rfl
@[simp] theorem State.advance_srcEpoch (s : State) (k : Nat) : (s.advance k).srcEpoch = s.srcEpoch := rfl
@[simp] theorem State.advance_tgtEpoch (s : State) (k : Nat) : (s.advance k).tgtEpoch = s.tgtEpoch := rfl
@[simp] theorem State.advance_draws (s : State) (k : Nat) : (s.advance k).draws = s.draws := rfl

/-! `State.setLine` -/

@[simp] theorem State.setLine_si (s : State) (n : Nat) : (s.setLine n).si = s.si := rfl
@[simp] theorem State.setLine_ti (s : State) (n : Nat) : (s.setLine n).ti = s.ti := rfl
@[simp] theorem State.setLine_line (s : State) (n : Nat) : (s.setLine n).line = n := rfl
@[simp] theorem State.setLine_rw (s : State) (n : Nat) : (s.setLine n).rw = s.rw := rfl
@[simp] theorem State.setLine_op (s : State) (n : Nat) : (s.setLine n).op = s.op := rfl
@[simp] theorem State.setLine_q (s : State) (n : Nat) : (s.setLine n).q = s.q := rfl
@[simp] theorem State.setLine_slen (s : State) (n : Nat) : (s.setLine n).slen = s.slen := rfl
@[simp] theorem State.setLine_tcap (s : State) (n : Nat) : (s.setLine n).tcap = s.tcap := rfl
@[simp] theorem State.setLine_status (s : State) (n : Nat) : (s.setLine n).status = s.status := rfl
@[simp] theorem State.setLine_wlen (s : State) (n : Nat) : (s.setLine n).wlen = s.wlen := rfl
@[simp] theorem State.setLine_src (s : State) (n : Nat) : (s.setLine n).src = s.src := rfl
@[simp] theorem State.setLine_tgt (s : State) (n : Nat) : (s.setLine n).tgt = s.tgt := rfl
@[simp] theorem State.setLine_cfg (s : State) (n : Nat) : (s.setLine n).cfg = s.cfg := rfl
@[simp] theorem State.setLine_host (s : State) (n : Nat) : (s.setLine n).host = s.host := rfl
@[simp] theorem State.setLine_rdata (s : State) (n : Nat) : (s.setLine n).rdata = s.rdata := rfl
@[simp] theorem State.setLine_srcEpoch (s : State) (n : Nat) : (s.setLine n).srcEpoch = s.srcEpoch := rfl
@[simp] theorem State.setLine_tgtEpoch (s : State) (n : Nat) : (s.setLine n).tgtEpoch = s.tgtEpoch := rfl
@[simp] theorem State.setLine_draws (s : State) (n : Nat) : (s.setLine n).draws = s.draws := rfl

/-! `State.loadRw` -/

@[simp] theorem State.loadRw_si (s : State) : (s.loadRw).si = s.si := rfl
@[simp] theorem State.loadRw_ti (s : State) : (s.loadRw).ti = s.ti := rfl
@[simp] theorem State.loadRw_line (s : State) : (s.loadRw).line = s.line := rfl
@[simp] theorem State.loadRw_rw (s : State) : (s.loadRw).rw = s.si := rfl
@[simp] theorem State.loadRw_op (s : State) : (s.loadRw).op = s.op := rfl
@[simp] theorem State.loadRw_q (s : State) : (s.loadRw).q = s.q := rfl
@[simp] theorem State.loadRw_slen (s : State) : (s.loadRw).slen = s.slen := rfl
@[simp] theorem State.loadRw_tcap (s : State) : (s.loadRw).tcap = s.tcap := rfl
@[simp] theorem State.loadRw_status (s : State) : (s.loadRw).status = s.status := rfl
@[simp] theorem State.loadRw_wlen (s : State) : (s.loadRw).wlen = s.wlen := rfl
@[simp] theorem State.loadRw_src (s : State) : (s.loadRw).src = s.src := rfl
@[simp] theorem State.loadRw_tgt (s : State) : (s.loadRw).tgt = s.tgt := rfl
@[simp] theorem State.loadRw_cfg (s : State) : (s.loadRw).cfg = s.cfg := rfl
@[simp] theorem State.loadRw_host (s : State) : (s.loadRw).host = s.host := rfl
@[simp] theorem State.loadRw_rdata (s : State) : (s.loadRw).rdata = s.rdata := rfl
@[simp] theorem State.loadRw_srcEpoch (s : State) : (s.loadRw).srcEpoch = s.srcEpoch := rfl
@[simp] theorem State.loadRw_tgtEpoch (s : State) : (s.loadRw).tgtEpoch = s.tgtEpoch := rfl
@[simp] theorem State.loadRw_draws (s : State) : (s.loadRw).draws = s.draws := rfl

/-! `State.takeBack` -/

@[simp] theorem State.takeBack_si (s : State) : (s.takeBack).si = s.si := rfl
@[simp] theorem State.takeBack_ti (s : State) : (s.takeBack).ti = s.ti - 1 := rfl
@[simp] theorem State.takeBack_line (s : State) : (s.takeBack).line = s.line - 1 := rfl
@[simp] theorem State.takeBack_rw (s : State) : (s.takeBack).rw = s.rw := rfl
@[simp] theorem State.takeBack_op (s : State) : (s.takeBack).op = s.op := rfl
@[simp] theorem State.takeBack_q (s : State) : (s.takeBack).q = s.q := rfl
@[simp] theorem State.takeBack_slen (s : State) : (s.takeBack).slen = s.slen := rfl
@[simp] theorem State.takeBack_tcap (s : State) : (s.takeBack).tcap = s.tcap := rfl
@[simp] theorem State.takeBack_status (s : State) : (s.takeBack).status = s.status := rfl
@[simp] theorem State.takeBack_wlen (s : State) : (s.takeBack).wlen = s.wlen := rfl
@[simp] theorem State.takeBack_src (s : State) : (s.takeBack).src = s.src := rfl
@[simp] theorem State.takeBack_tgt (s : State) : (s.takeBack).tgt = s.tgt := rfl
@[simp] theorem State.takeBack_cfg (s : State) : (s.takeBack).cfg = s.cfg := rfl
@[simp] theorem State.takeBack_host (s : State) : (s.takeBack).host = s.host := rfl
@[simp] theorem State.takeBack_rdata (s : State) : (s.takeBack).rdata = s.rdata := rfl
@[simp] theorem State.takeBack_srcEpoch (s : State) : (s.takeBack).srcEpoch = s.srcEpoch := rfl
@[simp] theorem State.takeBack_tgtEpoch (s : State) : (s.takeBack).tgtEpoch = s.tgtEpoch := rfl
@[simp] theorem State.takeBack_draws (s : State) : (s.takeBack).draws = s.draws := rfl

/-! `State.latch` -/

@[simp] theorem State.latch_si (s : State) (c : Byte) : (s.latch c).si = s.si := rfl
@[simp] theorem State.latch_ti (s : State) (c : Byte) : (s.latch c).ti = s.ti := rfl
@[simp] theorem State.latch_line (s : State) (c : Byte) : (s.latch c).line = s.line := rfl
@[simp] theorem State.latch_rw (s : State) (c : Byte) : (s.latch c).rw = s.rw := rfl
theorem State.latch_op (s : State) (c : Byte) : (s.latch c).op = c.getLsbD 0 := rfl
theorem State.latch_q (s : State) (c : Byte) : (s.latch c).q = c.getLsbD 1 := rfl
@[simp] theorem State.latch_slen (s : State) (c : Byte) : (s.latch c).slen = s.slen := rfl
@[simp] theorem State.latch_tcap (s : State) (c : Byte) : (s.latch c).tcap = s.tcap := rfl
@[simp] theorem State.latch_status (s : State) (c : Byte) : (s.latch c).status = s.status := rfl
@[simp] theorem State.latch_wlen (s : State) (c : Byte) : (s.latch c).wlen = s.wlen := rfl
@[simp] theorem State.latch_src (s : State) (c : Byte) : (s.latch c).src = s.src := rfl
@[simp] theorem State.latch_tgt (s : State) (c : Byte) : (s.latch c).tgt = s.tgt := rfl
@[simp] theorem State.latch_cfg (s : State) (c : Byte) : (s.latch c).cfg = s.cfg := rfl
@[simp] theorem State.latch_host (s : State) (c : Byte) : (s.latch c).host = s.host := rfl
@[simp] theorem State.latch_rdata (s : State) (c : Byte) : (s.latch c).rdata = s.rdata := rfl
@[simp] theorem State.latch_srcEpoch (s : State) (c : Byte) : (s.latch c).srcEpoch = s.srcEpoch := rfl
@[simp] theorem State.latch_tgtEpoch (s : State) (c : Byte) : (s.latch c).tgtEpoch = s.tgtEpoch := rfl
@[simp] theorem State.latch_draws (s : State) (c : Byte) : (s.latch c).draws = s.draws := rfl

/-! `State.clearCursors` -/

@[simp] theorem State.clearCursors_si (s : State) : (s.clearCursors).si = 0 := rfl
@[simp] theorem State.clearCursors_ti (s : State) : (s.clearCursors).ti = 0 := rfl
@[simp] theorem State.clearCursors_line (s : State) : (s.clearCursors).line = 0 := rfl
@[simp] theorem State.clearCursors_rw (s : State) : (s.clearCursors).rw = 0 := rfl
@[simp] theorem State.clearCursors_op (s : State) : (s.clearCursors).op = s.op := rfl
@[simp] theorem State.clearCursors_q (s : State) : (s.clearCursors).q = s.q := rfl
@[simp] theorem State.clearCursors_slen (s : State) : (s.clearCursors).slen = s.slen := rfl
@[simp] theorem State.clearCursors_tcap (s : State) : (s.clearCursors).tcap = s.tcap := rfl
@[simp] theorem State.clearCursors_status (s : State) : (s.clearCursors).status = s.status := rfl
@[simp] theorem State.clearCursors_wlen (s : State) : (s.clearCursors).wlen = s.wlen := rfl
@[simp] theorem State.clearCursors_src (s : State) : (s.clearCursors).src = s.src := rfl
@[simp] theorem State.clearCursors_tgt (s : State) : (s.clearCursors).tgt = s.tgt := rfl
@[simp] theorem State.clearCursors_cfg (s : State) : (s.clearCursors).cfg = s.cfg := rfl
@[simp] theorem State.clearCursors_host (s : State) : (s.clearCursors).host = s.host := rfl
@[simp] theorem State.clearCursors_rdata (s : State) : (s.clearCursors).rdata = s.rdata := rfl
@[simp] theorem State.clearCursors_srcEpoch (s : State) : (s.clearCursors).srcEpoch = s.srcEpoch := rfl
@[simp] theorem State.clearCursors_tgtEpoch (s : State) : (s.clearCursors).tgtEpoch = s.tgtEpoch := rfl
@[simp] theorem State.clearCursors_draws (s : State) : (s.clearCursors).draws = s.draws := rfl

/-! `State.publish` -/

@[simp] theorem State.publish_si (s : State) : (s.publish).si = s.si := rfl
@[simp] theorem State.publish_ti (s : State) : (s.publish).ti = s.ti := rfl
@[simp] theorem State.publish_line (s : State) : (s.publish).line = s.line := rfl
@[simp] theorem State.publish_rw (s : State) : (s.publish).rw = s.rw := rfl
@[simp] theorem State.publish_op (s : State) : (s.publish).op = s.op := rfl
@[simp] theorem State.publish_q (s : State) : (s.publish).q = s.q := rfl
@[simp] theorem State.publish_slen (s : State) : (s.publish).slen = s.slen := rfl
@[simp] theorem State.publish_tcap (s : State) : (s.publish).tcap = s.tcap := rfl
@[simp] theorem State.publish_status (s : State) : (s.publish).status = s.status := rfl
@[simp] theorem State.publish_wlen (s : State) : (s.publish).wlen = s.ti := rfl
@[simp] theorem State.publish_src (s : State) : (s.publish).src = s.src := rfl
@[simp] theorem State.publish_tgt (s : State) : (s.publish).tgt = s.tgt := rfl
@[simp] theorem State.publish_cfg (s : State) : (s.publish).cfg = s.cfg := rfl
@[simp] theorem State.publish_host (s : State) : (s.publish).host = s.host := rfl
@[simp] theorem State.publish_rdata (s : State) : (s.publish).rdata = s.rdata := rfl
@[simp] theorem State.publish_srcEpoch (s : State) : (s.publish).srcEpoch = s.srcEpoch := rfl
@[simp] theorem State.publish_tgtEpoch (s : State) : (s.publish).tgtEpoch = s.tgtEpoch := rfl
@[simp] theorem State.publish_draws (s : State) : (s.publish).draws = s.draws := rfl

/-! `State.setPhase` -/

@[simp] theorem State.setPhase_si (s : State) (p : BitVec 2) : (s.setPhase p).si = s.si := rfl
@[simp] theorem State.setPhase_ti (s : State) (p : BitVec 2) : (s.setPhase p).ti = s.ti := rfl
@[simp] theorem State.setPhase_line (s : State) (p : BitVec 2) : (s.setPhase p).line = s.line := rfl
@[simp] theorem State.setPhase_rw (s : State) (p : BitVec 2) : (s.setPhase p).rw = s.rw := rfl
@[simp] theorem State.setPhase_op (s : State) (p : BitVec 2) : (s.setPhase p).op = s.op := rfl
@[simp] theorem State.setPhase_q (s : State) (p : BitVec 2) : (s.setPhase p).q = s.q := rfl
@[simp] theorem State.setPhase_slen (s : State) (p : BitVec 2) : (s.setPhase p).slen = s.slen := rfl
@[simp] theorem State.setPhase_tcap (s : State) (p : BitVec 2) : (s.setPhase p).tcap = s.tcap := rfl
@[simp] theorem State.setPhase_wlen (s : State) (p : BitVec 2) : (s.setPhase p).wlen = s.wlen := rfl
@[simp] theorem State.setPhase_src (s : State) (p : BitVec 2) : (s.setPhase p).src = s.src := rfl
@[simp] theorem State.setPhase_tgt (s : State) (p : BitVec 2) : (s.setPhase p).tgt = s.tgt := rfl
@[simp] theorem State.setPhase_cfg (s : State) (p : BitVec 2) : (s.setPhase p).cfg = s.cfg := rfl
@[simp] theorem State.setPhase_host (s : State) (p : BitVec 2) : (s.setPhase p).host = s.host := rfl
@[simp] theorem State.setPhase_rdata (s : State) (p : BitVec 2) : (s.setPhase p).rdata = s.rdata := rfl
@[simp] theorem State.setPhase_srcEpoch (s : State) (p : BitVec 2) : (s.setPhase p).srcEpoch = s.srcEpoch := rfl
@[simp] theorem State.setPhase_tgtEpoch (s : State) (p : BitVec 2) : (s.setPhase p).tgtEpoch = s.tgtEpoch := rfl
@[simp] theorem State.setPhase_draws (s : State) (p : BitVec 2) : (s.setPhase p).draws = s.draws := rfl

/-! `State.setErr` -/

@[simp] theorem State.setErr_si (s : State) (e : BitVec 2) : (s.setErr e).si = s.si := rfl
@[simp] theorem State.setErr_ti (s : State) (e : BitVec 2) : (s.setErr e).ti = s.ti := rfl
@[simp] theorem State.setErr_line (s : State) (e : BitVec 2) : (s.setErr e).line = s.line := rfl
@[simp] theorem State.setErr_rw (s : State) (e : BitVec 2) : (s.setErr e).rw = s.rw := rfl
@[simp] theorem State.setErr_op (s : State) (e : BitVec 2) : (s.setErr e).op = s.op := rfl
@[simp] theorem State.setErr_q (s : State) (e : BitVec 2) : (s.setErr e).q = s.q := rfl
@[simp] theorem State.setErr_slen (s : State) (e : BitVec 2) : (s.setErr e).slen = s.slen := rfl
@[simp] theorem State.setErr_tcap (s : State) (e : BitVec 2) : (s.setErr e).tcap = s.tcap := rfl
@[simp] theorem State.setErr_wlen (s : State) (e : BitVec 2) : (s.setErr e).wlen = s.wlen := rfl
@[simp] theorem State.setErr_src (s : State) (e : BitVec 2) : (s.setErr e).src = s.src := rfl
@[simp] theorem State.setErr_tgt (s : State) (e : BitVec 2) : (s.setErr e).tgt = s.tgt := rfl
@[simp] theorem State.setErr_cfg (s : State) (e : BitVec 2) : (s.setErr e).cfg = s.cfg := rfl
@[simp] theorem State.setErr_host (s : State) (e : BitVec 2) : (s.setErr e).host = s.host := rfl
@[simp] theorem State.setErr_rdata (s : State) (e : BitVec 2) : (s.setErr e).rdata = s.rdata := rfl
@[simp] theorem State.setErr_srcEpoch (s : State) (e : BitVec 2) : (s.setErr e).srcEpoch = s.srcEpoch := rfl
@[simp] theorem State.setErr_tgtEpoch (s : State) (e : BitVec 2) : (s.setErr e).tgtEpoch = s.tgtEpoch := rfl
@[simp] theorem State.setErr_draws (s : State) (e : BitVec 2) : (s.setErr e).draws = s.draws := rfl

/-! `State.drawWlen` -/

@[simp] theorem State.drawWlen_si (s : State) : (s.drawWlen).si = s.si := rfl
@[simp] theorem State.drawWlen_ti (s : State) : (s.drawWlen).ti = s.ti := rfl
@[simp] theorem State.drawWlen_line (s : State) : (s.drawWlen).line = s.line := rfl
@[simp] theorem State.drawWlen_rw (s : State) : (s.drawWlen).rw = s.rw := rfl
@[simp] theorem State.drawWlen_op (s : State) : (s.drawWlen).op = s.op := rfl
@[simp] theorem State.drawWlen_q (s : State) : (s.drawWlen).q = s.q := rfl
@[simp] theorem State.drawWlen_slen (s : State) : (s.drawWlen).slen = s.slen := rfl
@[simp] theorem State.drawWlen_tcap (s : State) : (s.drawWlen).tcap = s.tcap := rfl
@[simp] theorem State.drawWlen_status (s : State) : (s.drawWlen).status = s.status := rfl
@[simp] theorem State.drawWlen_src (s : State) : (s.drawWlen).src = s.src := rfl
@[simp] theorem State.drawWlen_tgt (s : State) : (s.drawWlen).tgt = s.tgt := rfl
@[simp] theorem State.drawWlen_cfg (s : State) : (s.drawWlen).cfg = s.cfg := rfl
@[simp] theorem State.drawWlen_host (s : State) : (s.drawWlen).host = s.host := rfl
@[simp] theorem State.drawWlen_rdata (s : State) : (s.drawWlen).rdata = s.rdata := rfl
@[simp] theorem State.drawWlen_srcEpoch (s : State) : (s.drawWlen).srcEpoch = s.srcEpoch := rfl
@[simp] theorem State.drawWlen_tgtEpoch (s : State) : (s.drawWlen).tgtEpoch = s.tgtEpoch := rfl

/-! `State.discardCursors` -/

@[simp] theorem State.discardCursors_slen (s : State) : (s.discardCursors).slen = s.slen := rfl
@[simp] theorem State.discardCursors_tcap (s : State) : (s.discardCursors).tcap = s.tcap := rfl
@[simp] theorem State.discardCursors_status (s : State) : (s.discardCursors).status = s.status := rfl
@[simp] theorem State.discardCursors_wlen (s : State) : (s.discardCursors).wlen = s.wlen := rfl
@[simp] theorem State.discardCursors_src (s : State) : (s.discardCursors).src = s.src := rfl
@[simp] theorem State.discardCursors_tgt (s : State) : (s.discardCursors).tgt = s.tgt := rfl
@[simp] theorem State.discardCursors_cfg (s : State) : (s.discardCursors).cfg = s.cfg := rfl
@[simp] theorem State.discardCursors_host (s : State) : (s.discardCursors).host = s.host := rfl
@[simp] theorem State.discardCursors_rdata (s : State) : (s.discardCursors).rdata = s.rdata := rfl
@[simp] theorem State.discardCursors_srcEpoch (s : State) : (s.discardCursors).srcEpoch = s.srcEpoch := rfl
@[simp] theorem State.discardCursors_tgtEpoch (s : State) : (s.discardCursors).tgtEpoch = s.tgtEpoch := rfl

/-! `State.discardTgt` -/

@[simp] theorem State.discardTgt_si (s : State) : (s.discardTgt).si = s.si := rfl
@[simp] theorem State.discardTgt_ti (s : State) : (s.discardTgt).ti = s.ti := rfl
@[simp] theorem State.discardTgt_line (s : State) : (s.discardTgt).line = s.line := rfl
@[simp] theorem State.discardTgt_rw (s : State) : (s.discardTgt).rw = s.rw := rfl
@[simp] theorem State.discardTgt_op (s : State) : (s.discardTgt).op = s.op := rfl
@[simp] theorem State.discardTgt_q (s : State) : (s.discardTgt).q = s.q := rfl
@[simp] theorem State.discardTgt_slen (s : State) : (s.discardTgt).slen = s.slen := rfl
@[simp] theorem State.discardTgt_tcap (s : State) : (s.discardTgt).tcap = s.tcap := rfl
@[simp] theorem State.discardTgt_status (s : State) : (s.discardTgt).status = s.status := rfl
@[simp] theorem State.discardTgt_wlen (s : State) : (s.discardTgt).wlen = s.wlen := rfl
@[simp] theorem State.discardTgt_src (s : State) : (s.discardTgt).src = s.src := rfl
@[simp] theorem State.discardTgt_cfg (s : State) : (s.discardTgt).cfg = s.cfg := rfl
@[simp] theorem State.discardTgt_host (s : State) : (s.discardTgt).host = s.host := rfl
@[simp] theorem State.discardTgt_rdata (s : State) : (s.discardTgt).rdata = s.rdata := rfl
@[simp] theorem State.discardTgt_srcEpoch (s : State) : (s.discardTgt).srcEpoch = s.srcEpoch := rfl
@[simp] theorem State.discardTgt_draws (s : State) : (s.discardTgt).draws = s.draws := rfl

/-! `State.enterBusy` -/

@[simp] theorem State.enterBusy_si (s : State) : (s.enterBusy).si = s.si := rfl
@[simp] theorem State.enterBusy_ti (s : State) : (s.enterBusy).ti = s.ti := rfl
@[simp] theorem State.enterBusy_line (s : State) : (s.enterBusy).line = s.line := rfl
@[simp] theorem State.enterBusy_rw (s : State) : (s.enterBusy).rw = s.rw := rfl
@[simp] theorem State.enterBusy_op (s : State) : (s.enterBusy).op = s.op := rfl
@[simp] theorem State.enterBusy_q (s : State) : (s.enterBusy).q = s.q := rfl
@[simp] theorem State.enterBusy_slen (s : State) : (s.enterBusy).slen = s.slen := rfl
@[simp] theorem State.enterBusy_tcap (s : State) : (s.enterBusy).tcap = s.tcap := rfl
@[simp] theorem State.enterBusy_src (s : State) : (s.enterBusy).src = s.src := rfl
@[simp] theorem State.enterBusy_tgt (s : State) : (s.enterBusy).tgt = s.tgt := rfl
@[simp] theorem State.enterBusy_cfg (s : State) : (s.enterBusy).cfg = s.cfg := rfl
@[simp] theorem State.enterBusy_host (s : State) : (s.enterBusy).host = s.host := rfl
@[simp] theorem State.enterBusy_rdata (s : State) : (s.enterBusy).rdata = s.rdata := rfl
@[simp] theorem State.enterBusy_srcEpoch (s : State) : (s.enterBusy).srcEpoch = s.srcEpoch := rfl
@[simp] theorem State.enterBusy_tgtEpoch (s : State) : (s.enterBusy).tgtEpoch = s.tgtEpoch := rfl

@[simp] theorem State.setPhase_status (s : State) (p : BitVec 2) : (s.setPhase p).status = statusWord s.err p := rfl
@[simp] theorem State.setErr_status (s : State) (e : BitVec 2) : (s.setErr e).status = statusWord e s.phase := rfl
@[simp] theorem State.drawWlen_wlen (s : State) : s.drawWlen.wlen = s.cfg.fit (Config.freeIdx s.draws) := rfl
@[simp] theorem State.drawWlen_draws (s : State) : s.drawWlen.draws = s.draws + 1 := rfl
@[simp] theorem State.discardCursors_draws (s : State) : s.discardCursors.draws = s.draws + 4 := rfl
@[simp] theorem State.discardTgt_tgt (s : State) : s.discardTgt.tgt = [] := rfl
@[simp] theorem State.discardTgt_tgtEpoch (s : State) : s.discardTgt.tgtEpoch = s.tgtEpoch + 1 := rfl
@[simp] theorem State.enterBusy_draws (s : State) : s.enterBusy.draws = s.draws + 1 := rfl
@[simp] theorem State.enterBusy_wlen (s : State) : s.enterBusy.wlen = s.cfg.fit (Config.freeIdx s.draws) := rfl

/-! `State.raise`: what every error leaves alone. -/

@[simp] theorem State.raise_slen (s : State) (e : QpError) : (s.raise e).slen = s.slen := by cases e <;> rfl
@[simp] theorem State.raise_tcap (s : State) (e : QpError) : (s.raise e).tcap = s.tcap := by cases e <;> rfl
@[simp] theorem State.raise_src (s : State) (e : QpError) : (s.raise e).src = s.src := by cases e <;> rfl
@[simp] theorem State.raise_cfg (s : State) (e : QpError) : (s.raise e).cfg = s.cfg := by cases e <;> rfl
@[simp] theorem State.raise_host (s : State) (e : QpError) : (s.raise e).host = s.host := by cases e <;> rfl
@[simp] theorem State.raise_rdata (s : State) (e : QpError) : (s.raise e).rdata = s.rdata := by cases e <;> rfl
@[simp] theorem State.raise_srcEpoch (s : State) (e : QpError) : (s.raise e).srcEpoch = s.srcEpoch := by cases e <;> rfl

@[simp] theorem State.raise_draws (s : State) (e : QpError) : (s.raise e).draws = s.draws + 5 := by cases e <;> rfl

/-! The status word's fields (R21). -/

@[simp] theorem statusWord_phase (e p : BitVec 2) : (statusWord e p).extractLsb' 0 2 = p := by
  revert e p; decide

@[simp] theorem statusWord_err (e p : BitVec 2) : (statusWord e p).extractLsb' 2 2 = e := by
  revert e p; decide

@[simp] theorem statusWord_reserved (e p : BitVec 2) : (statusWord e p).extractLsb' 4 4 = 0#4 := by
  revert e p; decide

@[simp] theorem State.setPhase_phase (s : State) (p : BitVec 2) : (s.setPhase p).phase = p := statusWord_phase _ _
@[simp] theorem State.setPhase_err (s : State) (p : BitVec 2) : (s.setPhase p).err = s.err := statusWord_err _ _
@[simp] theorem State.setErr_phase (s : State) (e : BitVec 2) : (s.setErr e).phase = s.phase := statusWord_phase _ _
@[simp] theorem State.setErr_err (s : State) (e : BitVec 2) : (s.setErr e).err = e := statusWord_err _ _

/-- A status word with its reserved bits zero is made of its two fields. -/
theorem status_eq_of_fields (w : BitVec 8) (h : w.extractLsb' 4 4 = 0#4) :
    w = statusWord (w.extractLsb' 2 2) (w.extractLsb' 0 2) := by
  revert w; decide

/-- `raise E` leaves STATE = ERROR and ERR = the error's code (R184). -/
@[simp] theorem State.raise_status (s : State) (e : QpError) : (s.raise e).status = statusWord e.code stError := by
  have h : ((s.setErr e.code).setPhase stError).status = statusWord e.code stError := by simp
  cases e <;> exact h

@[simp] theorem State.enterBusy_status (s : State) : s.enterBusy.status = statusWord 0#2 stBusy := by
  show statusWord 0#2 (s.setPhase stBusy).phase = _
  simp

theorem State.busy_iff (s : State) : s.busy = true ↔ s.phase = stBusy := by simp [State.busy]

/-- Two states with the same status word are both busy or both not. -/
theorem State.busy_congr {s t : State} (h : t.status = s.status) : t.busy = s.busy := by
  simp [State.busy, State.phase, h]

theorem State.not_busy_of_status {s : State} {e p : BitVec 2} (h : s.status = statusWord e p) (hp : p ≠ stBusy) :
    s.busy = false := by
  simp [State.busy, State.phase, h, hp]

theorem State.busy_of_status {s : State} {e : BitVec 2} (h : s.status = statusWord e stBusy) : s.busy = true := by
  simp [State.busy, State.phase, h]

end Sys2Proof.Machine
end

