-- ==== Sys2Proof/Laws/Ops.lean ====
section
/-! SUPPORT. For each shared operation, once, everything it can do: the prover cites these instead of unfolding. -/

namespace Sys2Proof.Machine

/-! ### Reading the memories -/

theorem tgtByte_congr {s t : State} (h : t.tgt = s.tgt) (he : t.tgtEpoch = s.tgtEpoch) (i : Nat) :
    t.tgtByte i = s.tgtByte i := by simp [State.tgtByte, h, he]

theorem srcByte_congr {s t : State} (h : t.src = s.src) (he : t.srcEpoch = s.srcEpoch) : t.srcByte = s.srcByte := by
  funext i; simp [State.srcByte, h, he]

theorem Untouched.refl (s : State) : Untouched s s := by simp [Untouched]

theorem Untouched.trans {s t u : State} (h : Untouched s t) (h' : Untouched t u) : Untouched s u := by
  simp only [Untouched] at *
  obtain ⟨_, _, _, _, _, _, _, _, _, _, _, _, _⟩ := h
  obtain ⟨_, _, _, _, _, _, _, _, _, _, _, _, _⟩ := h'
  simp_all

theorem Untouched.srcByte {s t : State} (h : Untouched s t) : t.srcByte = s.srcByte := by
  obtain ⟨-, -, -, -, -, -, h1, -, -, -, h2, -, -⟩ := h
  exact srcByte_congr h1 h2

theorem Untouched.busy {s t : State} (h : Untouched s t) : t.busy = s.busy := by
  obtain ⟨-, -, -, -, h, -⟩ := h
  exact State.busy_congr h

/-! ### The write of the engine -/

/-- The state `emit bs` answers. -/
def State.emitted (bs : List Byte) (s : State) : State :=
  { s with tgt := Memory.writeAll s.tgt s.ti bs, ti := s.ti + bs.length }

theorem emit_ok {bs : List Byte} {s : State} (h : s.ti + bs.length ≤ s.cfg.tgtCap) :
    emit bs s = .ok (s.emitted bs) := by simp [emit, h, State.emitted]

/-- `emit` answers exactly when TGT has the indices, and then only TGT and TI change. -/
theorem emit_ok_iff {bs : List Byte} {s t : State} :
    emit bs s = .ok t ↔ s.ti + bs.length ≤ s.cfg.tgtCap ∧ t = s.emitted bs := by
  unfold emit State.emitted
  split <;> simp_all [eq_comm]

@[simp] theorem emitted_ti (bs : List Byte) (s : State) : (s.emitted bs).ti = s.ti + bs.length := rfl
@[simp] theorem emitted_si (bs : List Byte) (s : State) : (s.emitted bs).si = s.si := rfl
@[simp] theorem emitted_line (bs : List Byte) (s : State) : (s.emitted bs).line = s.line := rfl
@[simp] theorem emitted_rw (bs : List Byte) (s : State) : (s.emitted bs).rw = s.rw := rfl
@[simp] theorem emitted_q (bs : List Byte) (s : State) : (s.emitted bs).q = s.q := rfl
@[simp] theorem emitted_cfg (bs : List Byte) (s : State) : (s.emitted bs).cfg = s.cfg := rfl

theorem emitted_untouched (bs : List Byte) (s : State) : Untouched s (s.emitted bs) := by
  simp [Untouched, State.emitted]

theorem emitted_gets (bs : List Byte) (s : State) : TgtGets s (s.emitted bs) s.ti bs := by
  intro i
  simp only [State.emitted, State.tgtByte, Memory.read_writeAll]
  split
  · rename_i h
    have : i - s.ti < bs.length := by omega
    simp [List.getD_eq_getElem?_getD, List.getElem?_eq_getElem this]
  · rfl

/-- A byte `emit` wrote. -/
theorem emitted_new (bs : List Byte) (s : State) (k : Nat) (hk : k < bs.length) :
    (s.emitted bs).tgtByte (s.ti + k) = bs[k] := by
  rw [emitted_gets bs s, if_pos (by omega)]
  have : s.ti + k - s.ti = k := by omega
  rw [this, List.getD_eq_getElem _ _ hk]

/-- A byte `emit` left alone. -/
theorem emitted_old (bs : List Byte) (s : State) (i : Nat) (hi : i < s.ti) :
    (s.emitted bs).tgtByte i = s.tgtByte i := by
  rw [emitted_gets bs s, if_neg (by omega)]

/-- Two writes of the engine, the second where the first ended, are one of both byte strings. -/
theorem TgtGets.append {s t u : State} {a : Nat} {xs ys : List Byte} (h : TgtGets s t a xs)
    (h' : TgtGets t u (a + xs.length) ys) : TgtGets s u a (xs ++ ys) := by
  intro i
  rw [h' i]
  split
  · rename_i hc
    rw [if_pos (by simp only [List.length_append]; omega), List.getD_append_right _ _ _ _ (by omega)]
    congr 1; omega
  · rename_i hc
    rw [h i]
    by_cases h3 : a ≤ i ∧ i < a + xs.length
    · rw [if_pos h3, if_pos (by simp only [List.length_append]; omega), List.getD_append _ _ _ _ (by omega)]
    · rw [if_neg h3, if_neg (by simp only [List.length_append]; omega)]

/-! ### SOFTBRK, SYMBOL, FLUSHWS -/

/-- The two table lookups of a symbol are its two hex digit characters. -/
theorem symbolBytes_eq (v : Byte) : symbolBytes v = hexSymbol v := by
  have : ∀ v : Byte, symbolBytes v = hexSymbol v := by decide
  exact this v

/-- SOFTBRK(k) without a break. -/
theorem softBrk_none {k : Nat} {s : State} (h : ¬ (s.q = false ∧ lineLimit ≤ s.line + k)) : softBrk k s = .ok s := by
  simp [softBrk, h]

/-- SOFTBRK(k) with a break. -/
theorem softBrk_break {k : Nat} {s : State} (h : s.q = false ∧ lineLimit ≤ s.line + k) (hr : s.ti + 3 ≤ s.cfg.tgtCap) :
    softBrk k s = .ok ((s.emitted softBreakBytes).setLine 0) := by
  rw [softBrk, if_pos h, emit_ok (by simpa [softBreakBytes] using hr)]
  rfl

/-- Whatever SOFTBRK(k) answers. -/
theorem softBrk_cases {k : Nat} {s t : State} (h : softBrk k s = .ok t) :
    (¬ (s.q = false ∧ lineLimit ≤ s.line + k) ∧ t = s) ∨
    ((s.q = false ∧ lineLimit ≤ s.line + k) ∧ s.ti + 3 ≤ s.cfg.tgtCap ∧ t = ((s.emitted softBreakBytes).setLine 0)) := by
  by_cases hc : s.q = false ∧ lineLimit ≤ s.line + k
  · right
    rw [softBrk, if_pos hc] at h
    cases he : emit softBreakBytes s with
    | error f => simp [he, Except.map] at h
    | ok u =>
      obtain ⟨hr, rfl⟩ := emit_ok_iff.1 he
      simp only [he, Except.map, Except.ok.injEq] at h
      exact ⟨hc, by simpa [softBreakBytes] using hr, h.symm⟩
  · left
    rw [softBrk_none hc] at h
    exact ⟨hc, by simpa using h.symm⟩

/-- The state SYMBOL(v) answers when no break precedes it. -/
def State.symboled (v : Byte) (s : State) : State :=
  (s.emitted (symbolBytes v)).setLine (s.line + 3)

@[simp] theorem symbolBytes_length (v : Byte) : (symbolBytes v).length = 3 := rfl

/-- SYMBOL(v) without a break. -/
theorem symbolOp_none {v : Byte} {s : State} (h : ¬ (s.q = false ∧ lineLimit ≤ s.line + 3)) (hr : s.ti + 3 ≤ s.cfg.tgtCap) :
    symbolOp v s = .ok (s.symboled v) := by
  simp [symbolOp, softBrk_none h, Except.bind, emit_ok (bs := symbolBytes v) (s := s) (by simpa using hr), Except.map,
    State.symboled]

/-- SYMBOL(v) with a break. -/
theorem symbolOp_break {v : Byte} {s : State} (h : s.q = false ∧ lineLimit ≤ s.line + 3) (hr : s.ti + 6 ≤ s.cfg.tgtCap) :
    symbolOp v s = .ok (State.symboled v ((s.emitted softBreakBytes).setLine 0)) := by
  have hr' : ((s.emitted softBreakBytes).setLine 0).ti + (symbolBytes v).length
      ≤ ((s.emitted softBreakBytes).setLine 0).cfg.tgtCap := by
    simp [softBreakBytes]; omega
  simp [symbolOp, softBrk_break h (by omega : s.ti + 3 ≤ s.cfg.tgtCap), Except.bind, emit_ok hr', Except.map, State.symboled]

/-- Whatever SYMBOL(v) answers. -/
theorem symbolOp_cases {v : Byte} {s t : State} (h : symbolOp v s = .ok t) :
    (¬ (s.q = false ∧ lineLimit ≤ s.line + 3) ∧ s.ti + 3 ≤ s.cfg.tgtCap ∧ t = s.symboled v) ∨
    ((s.q = false ∧ lineLimit ≤ s.line + 3) ∧ s.ti + 6 ≤ s.cfg.tgtCap ∧
      t = State.symboled v ((s.emitted softBreakBytes).setLine 0)) := by
  unfold symbolOp at h
  cases hs : softBrk 3 s with
  | error f => simp [hs, Except.bind] at h
  | ok u =>
    simp only [hs, Except.bind] at h
    cases he : emit (symbolBytes v) u with
    | error f => simp [he, Except.map] at h
    | ok w =>
      obtain ⟨hr, rfl⟩ := emit_ok_iff.1 he
      simp only [he, Except.map, Except.ok.injEq] at h
      rcases softBrk_cases hs with ⟨hc, rfl⟩ | ⟨hc, -, rfl⟩
      · exact .inl ⟨hc, by simpa using hr, h.symm⟩
      · refine .inr ⟨hc, ?_, h.symm⟩
        simp [softBreakBytes] at hr; omega

/-- FLUSHWS with nothing to flush. -/
theorem flushWs_none {s : State} (h : ¬ s.flushes) (hr : s.ti ≤ s.cfg.tgtCap) : flushWs s = .ok s := by
  unfold flushWs
  by_cases h0 : 0 < s.ti
  · have : ¬ isPad (s.tgtByte (s.ti - 1)) = true := fun hp => h ⟨h0, hp⟩
    simp [h0, hr, this]
  · simp [h0]

/-- FLUSHWS when it fires. -/
theorem flushWs_fires {s : State} (h : s.flushes) (hr : s.ti ≤ s.cfg.tgtCap) :
    flushWs s = symbolOp (s.tgtByte (s.ti - 1)) s.takeBack := by
  simp [flushWs, h.1, hr, h.2]

/-! ### PADCHK -/

theorem padStart_le (rd : Nat → Byte) (n : Nat) : padStart rd n ≤ n := by
  induction n with
  | zero => simp [padStart]
  | succ n ih =>
    unfold padStart
    split <;> omega

/-- Everything PADCHK's walk passed is SP or TAB. -/
theorem padStart_run (rd : Nat → Byte) (n j : Nat) (h : padStart rd n ≤ j) (hj : j < n) : isPad (rd j) = true := by
  induction n with
  | zero => omega
  | succ n ih =>
    unfold padStart at h
    split at h
    · rename_i hp
      rcases Nat.lt_succ_iff_lt_or_eq.1 hj with hj | rfl
      · exact ih h hj
      · exact hp
    · omega

/-- The walk stops at 0 or after a byte that is neither SP nor TAB. -/
theorem padStart_stop (rd : Nat → Byte) (n : Nat) (h : 0 < padStart rd n) : isPad (rd (padStart rd n - 1)) = false := by
  induction n with
  | zero => simp [padStart] at h
  | succ n ih =>
    unfold padStart at h ⊢
    split
    · rename_i hp
      rw [if_pos hp] at h
      exact ih h
    · rename_i hp
      simpa using hp

/-- The walk is determined by those two properties. -/
theorem padStart_unique (rd : Nat → Byte) (n j : Nat) (hj : j ≤ n) (hrun : ∀ i, j ≤ i → i < n → isPad (rd i) = true)
    (hstop : j = 0 ∨ isPad (rd (j - 1)) = false) : padStart rd n = j := by
  have hle := padStart_le rd n
  rcases Nat.lt_trichotomy (padStart rd n) j with h | h | h
  · rcases hstop with rfl | hs
    · omega
    · have := padStart_run rd n (j - 1) (by omega) (by omega)
      simp_all
  · exact h
  · have := padStart_stop rd n (by omega)
    have h2 := hrun (padStart rd n - 1) (by omega) (by omega)
    simp_all

/-- What follows a byte that is neither SP nor TAB has no padding before it. -/
theorem padStart_succ_of_not_pad (rd : Nat → Byte) (n : Nat) (h : isPad (rd n) = false) : padStart rd (n + 1) = n + 1 := by
  simp [padStart, h]

theorem padStart_succ_of_pad (rd : Nat → Byte) (n : Nat) (h : isPad (rd n) = true) : padStart rd (n + 1) = padStart rd n := by
  simp [padStart, h]

/-- The state PADCHK answers. -/
def State.padded (s : State) : State :=
  { s with
    rw := padStart s.srcByte s.rw
    ti := s.ti - (s.rw - padStart s.srcByte s.rw) - (if padSoft s.srcByte s.rw then 1 else 0) }

theorem padchk_ok {s : State} (h : s.rw ≤ s.cfg.srcCap) : padchk s = .ok (s.padded, padSoft s.srcByte s.rw) := by
  simp [padchk, h, State.padded]

theorem padded_untouched (s : State) : Untouched s s.padded := by simp [Untouched, State.padded]

theorem padchkHere_ok {s : State} (h : s.si ≤ s.cfg.srcCap) :
    padchkHere s = .ok (s.loadRw.padded) := by
  rw [padchkHere, padchk_ok (s := s.loadRw) h]
  rfl

theorem padchkHere_ok_iff {s t : State} :
    padchkHere s = .ok t ↔ s.si ≤ s.cfg.srcCap ∧ t = s.loadRw.padded := by
  constructor
  · intro h
    by_cases hc : s.si ≤ s.cfg.srcCap
    · rw [padchkHere_ok hc] at h
      exact ⟨hc, by simpa using h.symm⟩
    · simp [padchkHere, padchk, hc, Except.map] at h
  · rintro ⟨h, rfl⟩
    exact padchkHere_ok h

/-- At SI, PADCHK lowers TI by padTaken. -/
theorem padded_here_ti (s : State) : (s.loadRw.padded).ti = s.ti - s.padTaken := by
  show s.ti - (s.si - padStart s.srcByte s.si) - (if padSoft s.srcByte s.si then 1 else 0) = _
  simp only [State.padTaken]
  omega

@[simp] theorem padded_si (s : State) : s.padded.si = s.si := rfl
@[simp] theorem padded_line (s : State) : s.padded.line = s.line := rfl
@[simp] theorem padded_tgt (s : State) : s.padded.tgt = s.tgt := rfl
@[simp] theorem padded_cfg (s : State) : s.padded.cfg = s.cfg := rfl

theorem isPad_iff (b : Byte) : isPad b = true ↔ b = bSp ∨ b = bTab := by simp [isPad, or_comm]

/-- What PADCHK answers meets R103's words. -/
theorem padded_result (s : State) : PadResult s s.rw s.padded.rw s.padded.ti := by
  refine ⟨padStart_le _ _, fun j h1 h2 => (isPad_iff _).1 (padStart_run s.srcByte s.rw j h1 h2), ?_, ?_⟩
  · rcases Nat.eq_zero_or_pos (padStart s.srcByte s.rw) with h0 | h0
    · exact .inl h0
    · have h1 := padStart_stop s.srcByte s.rw h0
      rw [← Bool.not_eq_true, isPad_iff, not_or] at h1
      exact .inr h1
  · show s.ti - (s.rw - padStart s.srcByte s.rw) - _ = _
    have h1 : padSoft s.srcByte s.rw = true ↔ 0 < s.padded.rw ∧ s.srcByte (s.padded.rw - 1) = bEsc := by
      simp [padSoft, State.padded]
    by_cases hs : padSoft s.srcByte s.rw = true
    · rw [if_pos hs, if_pos (h1.1 hs)]; rfl
    · rw [if_neg hs, if_neg (fun h => hs (h1.2 h))]; rfl

/-! ### Fetching -/

@[simp] theorem window_length (s : State) : (window s).length = min 3 (s.slen - s.si) := by simp [window]

theorem window_getElem (s : State) (k : Nat) (h : k < (window s).length) : (window s)[k] = s.srcByte (s.si + k) := by
  simp [window]

/-- The window is empty exactly at the end of the buffer. -/
theorem window_nil {s : State} (h : s.slen ≤ s.si) : window s = [] := by
  rw [← List.length_eq_zero_iff, window_length]; omega

/-- The window's three shapes below SLEN. -/
theorem window_one {s : State} (h : s.si + 1 = s.slen) : window s = [s.srcByte s.si] := by
  have : s.slen - s.si = 1 := by omega
  simp [window, this, List.range_succ]

theorem window_two {s : State} (h : s.si + 2 = s.slen) : window s = [s.srcByte s.si, s.srcByte (s.si + 1)] := by
  have : s.slen - s.si = 2 := by omega
  simp [window, this, List.range_succ]

theorem window_three {s : State} (h : s.si + 3 ≤ s.slen) :
    window s = [s.srcByte s.si, s.srcByte (s.si + 1), s.srcByte (s.si + 2)] := by
  have : min 3 (s.slen - s.si) = 3 := by omega
  simp [window, this, List.range_succ]

/-- Fetching in range: the decoders' answer. -/
theorem fetch_ok {s : State} (h : s.slen ≤ s.cfg.srcCap) :
    fetch s = .ok (if s.op then (decodeClass s.q (window s)).1
      else (decodeToken s.q (padSoft s.srcByte s.si) (window s)).1) := by
  have hc : (window s).length = 0 ∨ s.si + (window s).length ≤ s.cfg.srcCap := by
    rw [window_length]; omega
  unfold fetch
  rw [if_pos hc]
  split <;> rfl

/-! ### Issue and the end of a command -/

theorem writeCmd_busy {c : Byte} {s : State} (h : s.busy = true) : writeCmd c s = s := by simp [writeCmd, h]

theorem writeCmd_idle {c : Byte} {s : State} (h : s.busy = false) : writeCmd c s = issue c s := by simp [writeCmd, h]

/-- Which error START_CHECKS finds reads only the mode bit, the two lengths and the parameters. -/
theorem startChecks_none {c : Byte} {s : State} :
    startChecks c s = none ↔
      c.extractLsb' 2 6 = 0#6 ∧ s.slen ≤ s.cfg.srcCap ∧ s.tcap ≤ s.cfg.tgtCap ∧
      (s.op = false → s.slen ≤ s.tcap) ∧ (s.op = true → etl s.slen ≤ s.tcap) := by
  unfold startChecks
  constructor
  · intro h
    split at h
    · simp at h
    split at h
    · simp at h
    split at h
    · simp at h
    split at h
    · simp at h
    split at h
    · simp at h
    rename_i h1 h2 h3 h4 h5
    refine ⟨not_not.1 h1, by omega, by omega, fun ho => ?_, fun ho => ?_⟩
    · exact Nat.le_of_not_lt fun hl => h4 ⟨ho, hl⟩
    · exact Nat.le_of_not_lt fun hl => h5 ⟨ho, hl⟩
  · rintro ⟨h1, h2, h3, h4, h5⟩
    rw [if_neg (not_not.2 h1), if_neg (by omega), if_neg (by omega), if_neg, if_neg]
    · rintro ⟨ho, hl⟩; have := h5 ho; omega
    · rintro ⟨ho, hl⟩; have := h4 ho; omega

/-- START_CHECKS never reports Overflow. -/
theorem startChecks_ne_overflow (c : Byte) (s : State) : startChecks c s ≠ some .overflow := by
  unfold startChecks
  repeat' split
  all_goals simp

/-- The state a command that passes its checks starts its scan from (R160, R164). -/
def State.started (c : Byte) (s : State) : State :=
  (s.enterBusy.latch c).clearCursors

theorem issue_accepted {c : Byte} {s : State} (h : Accepts c s) : issue c s = s.started c := by
  have : startChecks c (s.enterBusy.latch c) = none :=
    startChecks_none.2 h
  simp [issue, this, State.started]

/-- A command that passes its checks starts; any other ends in the error its checks find. -/
theorem issue_cases (c : Byte) (s : State) :
    (Accepts c s ∧ issue c s = s.started c) ∨
    (¬ Accepts c s ∧ ∃ e, e ≠ .overflow ∧
      issue c s = State.raise e (s.enterBusy.latch c)) := by
  by_cases h : Accepts c s
  · exact .inl ⟨h, issue_accepted h⟩
  · right
    refine ⟨h, ?_⟩
    cases he : startChecks c (s.enterBusy.latch c) with
    | none => exact absurd (startChecks_none.1 he) h
    | some e =>
      refine ⟨e, fun h0 => startChecks_ne_overflow _ _ (h0 ▸ he), ?_⟩
      simp [issue, he]

theorem finish_done {s : State} (h : s.si = s.slen) (h' : s.ti ≤ s.tcap) :
    finish s = (s.publish.setPhase stDone).discardCursors := by
  have : ¬ (s.si ≠ s.slen ∨ s.tcap < s.ti) := by omega
  rw [finish, if_neg this]

theorem finish_overflow {s : State} (h : s.si ≠ s.slen ∨ s.tcap < s.ti) : finish s = s.raise .overflow := by
  rw [finish, if_pos h]

/-- An error of the start checks leaves the host's registers and both memories alone (R184). -/
theorem raise_same {e : QpError} (he : e ≠ .overflow) (s : State) :
    (s.raise e).slen = s.slen ∧ (s.raise e).tcap = s.tcap ∧ (s.raise e).src = s.src ∧ (s.raise e).srcEpoch = s.srcEpoch ∧
      (s.raise e).tgt = s.tgt ∧ (s.raise e).tgtEpoch = s.tgtEpoch ∧ (s.raise e).cfg = s.cfg ∧ (s.raise e).host = s.host := by
  cases e
  · exact ⟨rfl, rfl, rfl, rfl, rfl, rfl, rfl, rfl⟩
  · exact ⟨rfl, rfl, rfl, rfl, rfl, rfl, rfl, rfl⟩
  · exact absurd rfl he

theorem raise_not_busy (e : QpError) (s : State) : (s.raise e).busy = false :=
  State.not_busy_of_status (State.raise_status s e) (by decide)

/-- The end of a command leaves BUSY (R165, R184). -/
theorem finish_not_busy (s : State) : (finish s).busy = false := by
  by_cases h : s.si ≠ s.slen ∨ s.tcap < s.ti
  · rw [finish_overflow h]; exact raise_not_busy _ _
  · rw [finish_done (by omega) (by omega)]
    exact State.not_busy_of_status (e := s.publish.err) (p := stDone) rfl (by decide)

@[simp] theorem started_status (c : Byte) (s : State) : (s.started c).status = statusWord 0#2 stBusy :=
  State.enterBusy_status s

theorem started_busy (c : Byte) (s : State) : (s.started c).busy = true := State.busy_of_status (started_status c s)

@[simp] theorem started_op (c : Byte) (s : State) : (s.started c).op = c.getLsbD 0 := rfl
@[simp] theorem started_q (c : Byte) (s : State) : (s.started c).q = c.getLsbD 1 := rfl
@[simp] theorem started_slen (c : Byte) (s : State) : (s.started c).slen = s.slen := rfl
@[simp] theorem started_tcap (c : Byte) (s : State) : (s.started c).tcap = s.tcap := rfl
@[simp] theorem started_cfg (c : Byte) (s : State) : (s.started c).cfg = s.cfg := rfl
@[simp] theorem started_si (c : Byte) (s : State) : (s.started c).si = 0 := rfl
@[simp] theorem started_ti (c : Byte) (s : State) : (s.started c).ti = 0 := rfl
@[simp] theorem started_line (c : Byte) (s : State) : (s.started c).line = 0 := rfl

/-! ### Outcomes -/

@[simp] theorem outcome_ok (s : State) : outcome (.ok s) = .next s := rfl
@[simp] theorem outcome_error (f : Fault) : outcome (.error f) = .fault f := rfl

theorem outcome_next {x : Except Fault State} {t : State} : outcome x = .next t ↔ x = .ok t := by
  cases x <;> simp [outcome]

@[simp] theorem settle_next (i : Instr) (t : State) :
    settle i (.next t) = .next (if i = .dEob ∨ i = .eEob then finish t else t) := rfl

/-- Only a next state settles to a next state. -/
theorem settle_eq_next {i : Instr} {o : Host.Outcome State Fault Refusal} {t : State} (h : settle i o = .next t) :
    ∃ u, o = .next u ∧ t = if i = .dEob ∨ i = .eEob then finish u else u := by
  cases o with
  | next u =>
    simp only [settle_next, Host.Outcome.next.injEq] at h
    exact ⟨u, rfl, h.symm⟩
  | fault f => simp [settle] at h
  | refused r => simp [settle] at h

/-! ### The sizing function -/

/-- With b soft breaks, each closing a line of at least 25 of the n source bytes and each followed by a further one, the
output fits ETL(n) (R151). -/
theorem etl_bound {n b : Nat} (h : 0 < b → 25 * b + 1 ≤ n) : 3 * n + 3 * b ≤ etl n := by
  simp only [etl, wrapCols]
  rcases Nat.eq_zero_or_pos b with rfl | hb
  · omega
  · have := h hb; omega

theorem etl_mono {m n : Nat} (h : m ≤ n) : etl m ≤ etl n := by
  simp only [etl, wrapCols]; omega

end Sys2Proof.Machine
end

