-- ==== Sys2Proof/Laws/Exec.lean ====
section
/-! SUPPORT. For each instruction, exactly when exec answers a next state and which one: the inversion lemmas the provers cite
instead of unfolding a meaning. -/

namespace Sys2Proof.Machine

/-! ### How the shared shapes answer -/

theorem emit_map_ok_iff {bs : List Byte} {s t : State} {f : State → State} :
    (emit bs s).map f = .ok t ↔ s.ti + bs.length ≤ s.cfg.tgtCap ∧ t = f (s.emitted bs) := by
  by_cases h : s.ti + bs.length ≤ s.cfg.tgtCap
  · simp [emit_ok h, Except.map, h, eq_comm]
  · simp [emit, h, Except.map]

theorem except_bind_ok_iff {α β : Type} {x : Except Fault α} {f : α → Except Fault β} {b : β} :
    x.bind f = .ok b ↔ ∃ a, x = .ok a ∧ f a = .ok b := by
  cases x <;> simp [Except.bind]

theorem except_map_ok_iff {α β : Type} {x : Except Fault α} {f : α → β} {b : β} :
    x.map f = .ok b ↔ ∃ a, x = .ok a ∧ b = f a := by
  cases x <;> simp [Except.map, eq_comm]

/-! ### The commands -/

theorem exec_dec (s : State) : exec .dec s = .next (writeCmd 0x00#8 s) := rfl
theorem exec_enc (s : State) : exec .enc s = .next (writeCmd 0x01#8 s) := rfl
theorem exec_decq (s : State) : exec .decq s = .next (writeCmd 0x02#8 s) := rfl
theorem exec_encq (s : State) : exec .encq s = .next (writeCmd 0x03#8 s) := rfl

/-- A command word that decodes: its instruction is the write of that word. -/
theorem exec_of_decodeCommand {c : Byte} {i : Instr} (h : decodeCommand c = .ok i) (s : State) :
    exec i s = .next (writeCmd c s) := by
  unfold decodeCommand at h
  split at h
  · rename_i hc; subst hc; cases h; rfl
  split at h
  · rename_i hc; subst hc; cases h; rfl
  split at h
  · rename_i hc; subst hc; cases h; rfl
  split at h
  · rename_i hc; subst hc; cases h; rfl
  cases h

/-! ### The decoder's steps -/

theorem exec_dEsc_next {h g : Byte} {s t : State} :
    exec (.dEsc h g) s = .next t ↔ s.ti + 1 ≤ s.cfg.tgtCap ∧ t = (s.emitted [escValue h g]).advance 3 :=
  outcome_next.trans emit_map_ok_iff

theorem exec_dSoft_next {e : Term} {s t : State} :
    exec (.dSoft e) s = .next t ↔ s.si ≤ s.cfg.srcCap ∧ t = s.loadRw.padded.advance (termSize e) := by
  refine outcome_next.trans (except_map_ok_iff.trans ?_)
  simp only [padchkHere_ok_iff]
  constructor
  · rintro ⟨a, ⟨h, rfl⟩, rfl⟩; exact ⟨h, rfl⟩
  · rintro ⟨h, rfl⟩; exact ⟨_, ⟨h, rfl⟩, rfl⟩

theorem exec_dHard_next {e : Term} {s t : State} :
    exec (.dHard e) s = .next t ↔
      s.si ≤ s.cfg.srcCap ∧ s.loadRw.padded.ti + (termBytes e).length ≤ s.cfg.tgtCap ∧
        t = (s.loadRw.padded.emitted (termBytes e)).advance (termSize e) := by
  refine outcome_next.trans (except_bind_ok_iff.trans ?_)
  simp only [padchkHere_ok_iff, emit_map_ok_iff]
  constructor
  · rintro ⟨a, ⟨h, rfl⟩, h', rfl⟩; exact ⟨h, h', rfl⟩
  · rintro ⟨h, h', rfl⟩; exact ⟨_, ⟨h, rfl⟩, h', rfl⟩

theorem exec_dUsc_next {s t : State} :
    exec .dUsc s = .next t ↔ s.ti + 1 ≤ s.cfg.tgtCap ∧ t = (s.emitted [bSp]).advance 1 :=
  outcome_next.trans emit_map_ok_iff

theorem exec_dLit_next {b : Byte} {s t : State} :
    exec (.dLit b) s = .next t ↔ s.ti + 1 ≤ s.cfg.tgtCap ∧ t = (s.emitted [b]).advance 1 :=
  outcome_next.trans emit_map_ok_iff

theorem exec_dDrop (b : Byte) (s : State) : exec (.dDrop b) s = .next (s.advance 1) := rfl

theorem exec_dEob_on {s : State} (h : s.cfg.eobCheck = true) : exec .dEob s = outcome (padchkHere s) := by
  simp [exec, execDEob, h]

theorem exec_dEob_off {s : State} (h : s.cfg.eobCheck = false) : exec .dEob s = .next s := by
  simp [exec, execDEob, h]

/-- D.EOB answers s or the padded s. -/
theorem exec_dEob_next {s t : State} (h : exec .dEob s = .next t) :
    (s.cfg.eobCheck = false ∧ t = s) ∨ (s.cfg.eobCheck = true ∧ s.si ≤ s.cfg.srcCap ∧ t = s.loadRw.padded) := by
  cases he : s.cfg.eobCheck
  · rw [exec_dEob_off he] at h
    exact .inl ⟨rfl, by simpa using h.symm⟩
  · rw [exec_dEob_on he, outcome_next, padchkHere_ok_iff] at h
    exact .inr ⟨rfl, h⟩

theorem exec_padchk_next {s t : State} : exec .padchk s = .next t ↔ s.rw ≤ s.cfg.srcCap ∧ t = s.padded := by
  refine outcome_next.trans ?_
  by_cases h : s.rw ≤ s.cfg.srcCap
  · simp [padchk_ok h, Except.map, h, eq_comm]
  · simp [padchk, h, Except.map]

/-! ### The encoder's steps -/

theorem exec_eLit_next {b : Byte} {s t : State} :
    exec (.eLit b) s = .next t ↔
      ∃ u, softBrk 1 s = .ok u ∧ u.ti + 1 ≤ u.cfg.tgtCap ∧ t = ((u.emitted [b]).setLine (u.line + 1)).advance 1 := by
  refine outcome_next.trans (except_bind_ok_iff.trans ?_)
  simp only [emit_map_ok_iff]
  rfl

theorem exec_eCrlf_next {s t : State} :
    exec .eCrlf s = .next t ↔
      ∃ u, flushWs s = .ok u ∧ u.ti + 2 ≤ u.cfg.tgtCap ∧ t = ((u.emitted hardBreakBytes).setLine 0).advance 2 := by
  refine outcome_next.trans (except_bind_ok_iff.trans ?_)
  simp only [emit_map_ok_iff]
  rfl

theorem exec_eSym_next {v : Byte} {s t : State} :
    exec (.eSym v) s = .next t ↔ ∃ u, symbolOp v s = .ok u ∧ t = u.advance 1 :=
  outcome_next.trans except_map_ok_iff

theorem exec_eEob_next {s t : State} : exec .eEob s = .next t ↔ flushWs s = .ok t := outcome_next
theorem exec_softbrk_next {k : Nat} {s t : State} : exec (.softbrk k) s = .next t ↔ softBrk k s = .ok t := outcome_next
theorem exec_symbol_next {v : Byte} {s t : State} : exec (.symbol v) s = .next t ↔ symbolOp v s = .ok t := outcome_next
theorem exec_flushws_next {s t : State} : exec .flushws s = .next t ↔ flushWs s = .ok t := outcome_next

/-- Whatever FLUSHWS answers. -/
theorem flushWs_cases {s t : State} (h : flushWs s = .ok t) :
    (¬ s.flushes ∧ t = s) ∨
    (s.flushes ∧ s.ti ≤ s.cfg.tgtCap ∧ symbolOp (s.tgtByte (s.ti - 1)) s.takeBack = .ok t) := by
  by_cases hf : s.flushes
  · by_cases hr : s.ti ≤ s.cfg.tgtCap
    · rw [flushWs_fires hf hr] at h
      exact .inr ⟨hf, hr, h⟩
    · simp [flushWs, hf.1, hr] at h
  · left
    refine ⟨hf, ?_⟩
    by_cases h0 : 0 < s.ti
    · by_cases hr : s.ti ≤ s.cfg.tgtCap
      · rw [flushWs_none hf hr] at h
        simpa using h.symm
      · simp [flushWs, h0, hr] at h
    · simpa [flushWs, h0, eq_comm] using h

/-! ### What no step of the scan touches -/

theorem softBrk_untouched {k : Nat} {s t : State} (h : softBrk k s = .ok t) : Untouched s t := by
  rcases softBrk_cases h with ⟨-, rfl⟩ | ⟨-, -, rfl⟩
  · exact Untouched.refl _
  · simp [Untouched, State.emitted, State.setLine]

theorem symbolOp_untouched {v : Byte} {s t : State} (h : symbolOp v s = .ok t) : Untouched s t := by
  rcases symbolOp_cases h with ⟨-, -, rfl⟩ | ⟨-, -, rfl⟩ <;> simp [Untouched, State.symboled, State.emitted, State.setLine]

theorem flushWs_untouched {s t : State} (h : flushWs s = .ok t) : Untouched s t := by
  rcases flushWs_cases h with ⟨-, rfl⟩ | ⟨-, -, h⟩
  · exact Untouched.refl _
  · exact Untouched.trans (by simp [Untouched]) (symbolOp_untouched h)

/-- The instructions other than the four commands. -/
def Instr.isScan : Instr → Bool
  | .dec | .enc | .decq | .encq => false
  | _ => true

/-- Every instruction but a command leaves all fields alone but SI, TI, LINE, RW and TGT. -/
theorem exec_untouched {i : Instr} (hi : Instr.isScan i = true) {s t : State} (h : exec i s = .next t) : Untouched s t := by
  cases i with
  | dec => cases hi
  | enc => cases hi
  | decq => cases hi
  | encq => cases hi
  | dEsc a b => obtain ⟨-, rfl⟩ := exec_dEsc_next.1 h; simp [Untouched, State.emitted, State.advance]
  | dSoft e => obtain ⟨-, rfl⟩ := exec_dSoft_next.1 h; simp [Untouched, State.padded, State.advance, State.loadRw]
  | dHard e =>
    obtain ⟨-, -, rfl⟩ := exec_dHard_next.1 h
    simp [Untouched, State.padded, State.advance, State.loadRw, State.emitted]
  | dUsc => obtain ⟨-, rfl⟩ := exec_dUsc_next.1 h; simp [Untouched, State.emitted, State.advance]
  | dLit b => obtain ⟨-, rfl⟩ := exec_dLit_next.1 h; simp [Untouched, State.emitted, State.advance]
  | dDrop b => rw [exec_dDrop] at h; cases h; simp [Untouched]
  | dEob =>
    rcases exec_dEob_next h with ⟨-, rfl⟩ | ⟨-, -, rfl⟩
    · exact Untouched.refl _
    · simp [Untouched, State.padded, State.loadRw]
  | padchk => obtain ⟨-, rfl⟩ := exec_padchk_next.1 h; exact padded_untouched s
  | eLit b =>
    obtain ⟨u, hu, -, rfl⟩ := exec_eLit_next.1 h
    exact (softBrk_untouched hu).trans (by simp [Untouched, State.emitted, State.setLine, State.advance])
  | eCrlf =>
    obtain ⟨u, hu, -, rfl⟩ := exec_eCrlf_next.1 h
    exact (flushWs_untouched hu).trans (by simp [Untouched, State.emitted, State.setLine, State.advance])
  | eSym v =>
    obtain ⟨u, hu, rfl⟩ := exec_eSym_next.1 h
    exact (symbolOp_untouched hu).trans (by simp [Untouched])
  | eEob => exact flushWs_untouched (exec_eEob_next.1 h)
  | softbrk k => exact softBrk_untouched (exec_softbrk_next.1 h)
  | symbol v => exact symbolOp_untouched (exec_symbol_next.1 h)
  | flushws => exact flushWs_untouched (exec_flushws_next.1 h)

end Sys2Proof.Machine
end

