-- ==== Sys2Proof/Laws/Step.lean ====
section
/-! SUPPORT. What one step can do: the engine's instruction, a write to CMD, or another operation of the host. -/

namespace Sys2Proof.Machine

/-- The decoders give no command. -/
theorem decodeToken_isScan (q soft : Bool) (bs : List Byte) : Instr.isScan (decodeToken q soft bs).1 = true := by
  unfold decodeToken
  repeat' split
  all_goals rfl

theorem decodeClass_isScan (q : Bool) (bs : List Byte) : Instr.isScan (decodeClass q bs).1 = true := by
  unfold decodeClass
  repeat' split
  all_goals rfl

theorem fetch_isScan {s : State} {i : Instr} (h : fetch s = .ok i) : Instr.isScan i = true := by
  unfold fetch at h
  split at h
  · split at h <;> cases h
    · exact decodeClass_isScan _ _
    · exact decodeToken_isScan _ _ _
  · cases h

/-- A fetch in range is the decoder's answer on the bytes at SI. -/
theorem fetch_of_decode {s : State} (h : s.slen ≤ s.cfg.srcCap) {i : Instr} {rest : List Byte}
    (hd : decode s.ctx (window s) = .ok (i, rest)) : fetch s = .ok i := by
  rw [fetch_ok h]
  unfold State.ctx at hd
  split at hd <;> simp_all [decode]

/-- A write to CMD, whatever the word, is the host's next operation. -/
theorem step_writeCmd {s : State} {c : Byte} {rest : List HostOp} (h : s.host = .writeCmd c :: rest) :
    step s = .next (writeCmd c { s with host := rest }) := by
  simp only [step, turn, h, hostMove]
  rw [if_neg (by simp)]
  cases hd : decodeCommand c with
  | ok i => exact exec_of_decodeCommand hd _
  | error e => rfl

/-- The host's pending operations after its next one is taken, or as they are when it waits or has none. -/
def HostLeft (s u : State) : Prop := u = s ∨ ∃ op rest, s.host = op :: rest ∧ u = { s with host := rest }

/-- One step that answers a next state is one of: the engine's instruction while BUSY; nothing, while no command is in progress
(or the host's wait is over); a write to CMD; another operation of the host. -/
inductive StepCase (s t : State) : Prop where
  | engine (u : State) (i : Instr) (hu : HostLeft s u) (hb : u.busy = true) (hf : fetch u = .ok i)
      (he : settle i (exec i u) = .next t)
  | idle (hu : HostLeft s t) (hb : t.busy = false)
  | command (c : Byte) (rest : List HostOp) (hh : s.host = .writeCmd c :: rest)
      (ht : t = writeCmd c { s with host := rest })
  | writeSlen (n : Nat) (rest : List HostOp) (hh : s.host = .writeSlen n :: rest) (hb : s.busy = false)
      (hn : n < 2 ^ s.cfg.idxW) (ht : t = { s with host := rest, slen := n })
  | writeTcap (n : Nat) (rest : List HostOp) (hh : s.host = .writeTcap n :: rest) (hb : s.busy = false)
      (hn : n < 2 ^ s.cfg.idxW) (ht : t = { s with host := rest, tcap := n })
  | writeSrc (i : Nat) (b : Byte) (rest : List HostOp) (hh : s.host = .writeSrc i b :: rest) (hb : s.busy = false)
      (hn : i < s.cfg.srcCap) (ht : t = { s with host := rest, src := Memory.write s.src i b })
  | writeTgt (i : Nat) (b : Byte) (rest : List HostOp) (hh : s.host = .writeTgt i b :: rest) (hb : s.busy = false)
      (hn : i < s.cfg.tgtCap) (ht : t = { s with host := rest, tgt := Memory.write s.tgt i b })
  | read (v d : Nat) (rest : List HostOp) (hh : s.host.tail = rest) (ht : t = { s with host := rest, rdata := v, draws := d })
  | reset (rest : List HostOp) (hh : s.host = .reset :: rest) (ht : t = resetBlock { s with host := rest })

theorem engineStep_cases {u t : State} (h : engineStep u = .next t) :
    (u.busy = true ∧ ∃ i, fetch u = .ok i ∧ settle i (exec i u) = .next t) ∨ (u.busy = false ∧ t = u) := by
  unfold engineStep at h
  split at h
  · rename_i hb
    split at h
    · rename_i i hf
      exact .inl ⟨hb, i, hf, h⟩
    · cases h
  · rename_i hb
    cases h
    exact .inr ⟨by simpa using hb, rfl⟩

theorem readReg_next {r : HostReg} {s t : State} (h : readReg r s = .next t) :
    ∃ v d, t = { s with rdata := v, draws := d } := by
  cases r <;> simp only [readReg, returns, returnsFree] at h
  · cases h; exact ⟨_, _, rfl⟩
  · split at h <;> cases h <;> exact ⟨_, _, rfl⟩
  · split at h <;> cases h <;> exact ⟨_, _, rfl⟩
  · cases h; exact ⟨_, _, rfl⟩
  · split at h <;> cases h <;> exact ⟨_, _, rfl⟩

/-- What a step can do. -/
theorem step_cases {s t : State} (h : step s = .next t) : StepCase s t := by
  unfold step at h
  cases hh : s.host with
  | nil =>
    simp only [turn, hh] at h
    rcases engineStep_cases h with ⟨hb, i, hf, he⟩ | ⟨hb, rfl⟩
    · exact .engine s i (.inl rfl) hb hf he
    · exact .idle (.inl rfl) hb
  | cons op rest =>
    simp only [turn, hh] at h
    split at h
    · rename_i u heq
      split at heq
      · cases heq
        rcases engineStep_cases h with ⟨hb, i, hf, he⟩ | ⟨hb, rfl⟩
        · exact .engine s i (.inl rfl) hb hf he
        · exact .idle (.inl rfl) hb
      · cases op <;> simp only [hostMove] at heq
        case pause =>
          cases heq
          rcases engineStep_cases h with ⟨hb, i, hf, he⟩ | ⟨hb, rfl⟩
          · exact .engine _ i (.inr ⟨_, rest, hh, rfl⟩) hb hf he
          · exact .idle (.inr ⟨_, rest, hh, rfl⟩) hb
        case writeCmd c => split at heq <;> cases heq
        all_goals cases heq
    · rename_i i u heq
      split at heq
      · cases heq
      · rename_i hw
        clear hw
        cases op <;> simp only [hostMove] at heq
        case writeCmd c =>
          split at heq
          · rename_i j hj
            cases heq
            rw [exec_of_decodeCommand hj] at h
            cases h
            exact .command c rest hh rfl
          · cases heq
        all_goals cases heq
    · rename_i o heq
      split at heq
      · cases heq
      · rename_i hw
        subst h
        have hw' : op = .await → s.busy = false := fun e => by
          cases hb : s.busy
          · rfl
          · exact absurd ⟨e, hb⟩ hw
        clear hw
        cases op <;> simp only [hostMove] at heq
        case pause => cases heq
        case await =>
          cases heq
          exact .idle (.inr ⟨_, rest, hh, rfl⟩) (hw' rfl)
        case writeCmd c =>
          split at heq
          · cases heq
          · cases heq
            exact .command c rest hh rfl
        case writeSlen n =>
          simp only [Turn.done.injEq, ifOwned, ifFits] at heq
          split at heq
          · cases heq
          · rename_i hb
            split at heq
            · rename_i hn
              cases heq
              exact .writeSlen n rest hh (by simpa [State.busy, State.phase] using hb) hn rfl
            · cases heq
        case writeTcap n =>
          simp only [Turn.done.injEq, ifOwned, ifFits] at heq
          split at heq
          · cases heq
          · rename_i hb
            split at heq
            · rename_i hn
              cases heq
              exact .writeTcap n rest hh (by simpa [State.busy, State.phase] using hb) hn rfl
            · cases heq
        case writeSrc i b =>
          simp only [Turn.done.injEq, ifOwned] at heq
          split at heq
          · cases heq
          · rename_i hb
            split at heq
            · rename_i hn
              cases heq
              exact .writeSrc i b rest hh (by simpa [State.busy, State.phase] using hb) hn rfl
            · cases heq
        case writeTgt i b =>
          simp only [Turn.done.injEq, ifOwned] at heq
          split at heq
          · cases heq
          · rename_i hb
            split at heq
            · rename_i hn
              cases heq
              exact .writeTgt i b rest hh (by simpa [State.busy, State.phase] using hb) hn rfl
            · cases heq
        case readReg r =>
          simp only [Turn.done.injEq] at heq
          obtain ⟨v, d, rfl⟩ := readReg_next heq
          exact .read v d rest (by simp [hh]) rfl
        case readSrc i =>
          simp only [Turn.done.injEq, returns, returnsFree] at heq
          split at heq
          · split at heq <;> cases heq <;> exact .read _ _ rest (by simp [hh]) rfl
          · cases heq
        case readTgt i =>
          simp only [Turn.done.injEq, returns, returnsFree] at heq
          split at heq
          · split at heq <;> cases heq <;> exact .read _ _ rest (by simp [hh]) rfl
          · cases heq
        case reset =>
          cases heq
          exact .reset rest hh rfl

end Sys2Proof.Machine
end

