-- ==== Sys2Proof/Laws/HostCalls.lean ====
section
/-! SUPPORT. The host's calls of spec/30_encoding.md R69: what their sequence is when the call fits, and what loading the source
does. -/

namespace Sys2Proof.Machine

/-- A call that fits the memories is R69's sequence as written: nothing is cut off. -/
theorem callOps_fits {p : Params} (hp : p.wf) {bs : List Byte} {n : Nat} (hs : bs.length ≤ p.srcCap) (ht : n ≤ p.tgtCap)
    (c : Byte) :
    callOps p bs n c = loadSrc 0 bs ++ [.writeSlen bs.length, .writeTcap n, .writeCmd c, .await] := by
  obtain ⟨h1, h2⟩ := hp
  rw [callOps, List.take_of_length_le hs, Nat.min_eq_left (by omega), Nat.min_eq_left (by omega)]

/-- The lengths a call writes are ones the registers hold, and a length above SRC_CAP is written as one that is still above it. -/
theorem callOps_length {p : Params} (hp : p.wf) (n : Nat) :
    min n (2 ^ p.idxW - 1) < 2 ^ p.idxW ∧ (p.srcCap < n → p.srcCap < min n (2 ^ p.idxW - 1)) ∧
      (p.tgtCap < n → p.tgtCap < min n (2 ^ p.idxW - 1)) := by
  obtain ⟨h1, h2⟩ := hp
  omega

/-- Running one step further from a step that answers a next state. -/
theorem run_next {s t : State} (h : step s = .next t) (k : Nat) : Sys2Proof.core.run (k + 1) s = Sys2Proof.core.run k t := by
  have h' : Sys2Proof.core.step s = .next t := h
  simp only [Host.Core.run, h']

/-- One write of the host to SRC, in range, while no command is in progress. -/
theorem step_writeSrc {s : State} {i : Nat} {b : Byte} {rest : List HostOp} (hb : s.busy = false) (hi : i < s.cfg.srcCap)
    (h : s.host = .writeSrc i b :: rest) :
    step s = .next { s with host := rest, src := Memory.write s.src i b } := by
  have hb' : State.busy { s with host := rest } = false := hb
  simp [step, turn, h, hostMove, ifOwned, hb', hi]

/-- Loading a byte string that fits takes one step a byte and leaves exactly its bytes written from the index on. -/
theorem run_loadSrc (bs : List Byte) : ∀ (a : Nat) (rest : List HostOp) (s : State), s.busy = false →
    a + bs.length ≤ s.cfg.srcCap → s.host = loadSrc a bs ++ rest →
    Sys2Proof.core.run bs.length s = .next { s with host := rest, src := Memory.writeAll s.src a bs } := by
  induction bs with
  | nil =>
    intro a rest s _ _ h
    have h' : s.host = rest := h
    subst h'
    rfl
  | cons b bs ih =>
    intro a rest s hb hc h
    rw [List.length_cons] at hc
    have hs := step_writeSrc hb (by omega) (h : s.host = .writeSrc a b :: (loadSrc (a + 1) bs ++ rest))
    have hr := ih (a + 1) rest { s with host := loadSrc (a + 1) bs ++ rest, src := Memory.write s.src a b } hb
      (show a + 1 + bs.length ≤ s.cfg.srcCap by omega) rfl
    exact (run_next hs bs.length).trans hr

end Sys2Proof.Machine
end

