-- ==== Sys2Proof/Laws/PerInstr.lean ====
section
/-! SUPPORT. One statement for every instruction, as syntax: how many bytes its encoding has (spec/30_encoding.md R60, R62, R65),
which for a token or class is also how far the step moves SI (spec/10_state.md R14). -/

namespace Sys2Proof.Laws.TokenSize

open Sys2Proof.Machine

/-- The number of bytes of an instruction's encoding; none for the four helpers. -/
def size : Instr → Option Nat
  | .dec | .enc | .decq | .encq => some 1
  | .dEsc _ _ => some 3
  | .dSoft t | .dHard t => some (match t with | .crlf => 2 | .cr => 1 | .lf => 1)
  | .dUsc | .dLit _ | .dDrop _ | .eLit _ | .eSym _ => some 1
  | .eCrlf => some 2
  | .dEob | .eEob => some 0
  | .padchk | .softbrk _ | .symbol _ | .flushws => none

/-- The encoding of i has that many bytes. -/
def Statement (i : Instr) : Prop := (encode i).map List.length = size i

theorem dec : Statement .dec := rfl
theorem enc : Statement .enc := rfl
theorem decq : Statement .decq := rfl
theorem encq : Statement .encq := rfl
theorem dEsc (h g : Byte) : Statement (.dEsc h g) := rfl
theorem dSoft (t : Term) : Statement (.dSoft t) := by cases t <;> rfl
theorem dHard (t : Term) : Statement (.dHard t) := by cases t <;> rfl
theorem dUsc : Statement .dUsc := rfl
theorem dLit (b : Byte) : Statement (.dLit b) := rfl
theorem dDrop (b : Byte) : Statement (.dDrop b) := rfl
theorem dEob : Statement .dEob := rfl
theorem padchk : Statement .padchk := rfl
theorem eLit (b : Byte) : Statement (.eLit b) := rfl
theorem eCrlf : Statement .eCrlf := rfl
theorem eSym (v : Byte) : Statement (.eSym v) := rfl
theorem eEob : Statement .eEob := rfl
theorem softbrk (k : Nat) : Statement (.softbrk k) := rfl
theorem symbol (v : Byte) : Statement (.symbol v) := rfl
theorem flushws : Statement .flushws := rfl

end Sys2Proof.Laws.TokenSize
end

