-- ==== Sys2Proof/Tests/Slice0.lean ====
section
/-! SUPPORT. The model's own tests: ill-formed instructions refused, words of the encodings decoded, table lookups of
spec/95_test_vectors.md section 2, one or two small steps per instruction from the worked examples of the rules, and one named
witness for every statement that has hypotheses. -/

namespace Sys2Proof.Tests

open Sys2Proof.Machine

/-! ### WellFormed refuses -/

theorem test_wf_dEsc_high : (Instr.dEsc 0x47#8 0x41#8).wf = false := by decide
theorem test_wf_dEsc_low : (Instr.dEsc 0x41#8 0x67#8).wf = false := by decide
theorem test_wf_dLit_illegal : (Instr.dLit 0x7F#8).wf = false := by decide
theorem test_wf_dLit_terminator : (Instr.dLit 0x0D#8).wf = false := by decide
theorem test_wf_dDrop_legal : (Instr.dDrop 0x41#8).wf = false := by decide
theorem test_wf_dDrop_cr : (Instr.dDrop 0x0D#8).wf = false := by decide
theorem test_wf_dDrop_lf : (Instr.dDrop 0x0A#8).wf = false := by decide
theorem test_wf_eLit_not_literal : (Instr.eLit 0x3D#8).wf = false := by decide
theorem test_wf_eSym_alphanumeric : (Instr.eSym 0x41#8).wf = false := by decide
theorem test_wf_softbrk_width : (Instr.softbrk 2).wf = false := by decide
theorem test_admits_dUsc_needs_q : (Ctx.dec false true).admits .dUsc = false := by decide
theorem test_admits_eCrlf_needs_standard : (Ctx.enc true).admits .eCrlf = false := by decide

/-! ### Words written out from the encodings (R60, R62, R65) decode -/

theorem test_decode_dec : decode .cmd [0b00000000#8] = .ok (.dec, []) := by decide
theorem test_decode_enc : decode .cmd [0b00000001#8] = .ok (.enc, []) := by decide
theorem test_decode_decq : decode .cmd [0b00000010#8] = .ok (.decq, []) := by decide
theorem test_decode_encq : decode .cmd [0b00000011#8] = .ok (.encq, []) := by decide
theorem test_decode_reserved : decode .cmd [0b00000100#8] = .error (.reservedCommand 0x04#8) := by decide
/-- `=4A` and a byte after it -/
theorem test_decode_dEsc :
    decode (.dec false false) [0b00111101#8, 0b00110100#8, 0b01000001#8, 0b01111010#8] =
      .ok (.dEsc 0x34#8 0x41#8, [0x7A#8]) := by decide
/-- `=4` at the end of the buffer is no escape (R63) -/
theorem test_decode_truncated : decode (.dec false false) [0b00111101#8, 0b00110100#8] = .ok (.dLit 0x3D#8, [0x34#8]) := by decide
/-- `=0Z` is no escape (R67) -/
theorem test_decode_not_hex :
    decode (.dec false false) [0b00111101#8, 0b00110000#8, 0b01011010#8] = .ok (.dLit 0x3D#8, [0x30#8, 0x5A#8]) := by decide
theorem test_decode_dSoft_crlf :
    decode (.dec false true) [0b00001101#8, 0b00001010#8] = .ok (.dSoft .crlf, []) := by decide
theorem test_decode_dSoft_cr : decode (.dec false true) [0b00001101#8] = .ok (.dSoft .cr, []) := by decide
theorem test_decode_dHard_lf_cr :
    decode (.dec true false) [0b00001010#8, 0b00001101#8] = .ok (.dHard .lf, [0x0D#8]) := by decide
theorem test_decode_dUsc : decode (.dec true false) [0b01011111#8] = .ok (.dUsc, []) := by decide
theorem test_decode_dLit : decode (.dec false false) [0b01011111#8] = .ok (.dLit 0x5F#8, []) := by decide
theorem test_decode_dDrop : decode (.dec false false) [0b01111111#8] = .ok (.dDrop 0x7F#8, []) := by decide
theorem test_decode_dEob : decode (.dec false false) [] = .ok (.dEob, []) := by decide
theorem test_decode_eLit : decode (.enc false) [0b00100000#8] = .ok (.eLit 0x20#8, []) := by decide
theorem test_decode_eCrlf : decode (.enc false) [0b00001101#8, 0b00001010#8] = .ok (.eCrlf, []) := by decide
theorem test_decode_eSym_lone_cr : decode (.enc false) [0b00001101#8] = .ok (.eSym 0x0D#8, []) := by decide
theorem test_decode_eSym_q : decode (.enc true) [0b00001101#8, 0b00001010#8] = .ok (.eSym 0x0D#8, [0x0A#8]) := by decide
theorem test_decode_eEob : decode (.enc true) [] = .ok (.eEob, []) := by decide
theorem test_encode_helpers :
    encode .padchk = none ∧ encode (.softbrk 1) = none ∧ encode (.symbol 0x20#8) = none ∧ encode .flushws = none := by decide
/-- the fixed words of spec/opcode_table.json: DECQ, D.USC, E.CRLF -/
theorem test_table_words :
    decodeTableWord 8 2 = some .decq ∧ decodeTableWord 8 95 = some .dUsc ∧ decodeTableWord 16 3338 = some .eCrlf := by decide
/-- D.ESC's row with h = `4` and g = `1` -/
theorem test_table_dEsc : decodeTableWord 24 0x3D3431 = some (.dEsc 0x34#8 0x31#8) := by decide

/-! ### Table lookups (95_test_vectors T1 to T19, E rows of R150) -/

/-- T1 to T6 -/
theorem test_tdec_digits :
    tdec 0x30#8 = 1#8 ∧ tdec 0x39#8 = 10#8 ∧ tdec 0x41#8 = 11#8 ∧ tdec 0x46#8 = 16#8 ∧ tdec 0x61#8 = 11#8 ∧
      tdec 0x66#8 = 16#8 := by decide
/-- T7 -/
theorem test_tdec_neighbours : ∀ c ∈ [0x47#8, 0x67#8, 0x2F#8, 0x3A#8, 0x40#8, 0x60#8], tdec c = 0#8 := by decide
/-- T10, T11, T12, T13 -/
theorem test_tenc :
    tenc 0x7A#9 = 0x33#8 ∧ tenc 0x7B#9 = 0x44#8 ∧ tenc 0x40#9 = 0x32#8 ∧ tenc 0x41#9 = 0x30#8 ∧ tenc 0x1FF#9 = 0x46#8 ∧
      tenc 0x156#9 = 0x41#8 ∧ tenc 0x157#9 = 0x42#8 := by decide
/-- T14, T15 -/
theorem test_tlit :
    (∀ c ∈ [0x09#8, 0x20#8, 0x3C#8, 0x3E#8, 0x7E#8, 0x3F#8], tlit c = 1#8) ∧
      ∀ c ∈ [0x3D#8, 0x5F#8, 0x7F#8, 0x0D#8, 0x0A#8, 0x1F#8, 0x08#8, 0x0B#8, 0x80#8, 0xFF#8, 0x00#8], tlit c = 0#8 := by decide
/-- T18, T19 -/
theorem test_tlitr :
    (∀ c ∈ [0x30#8, 0x39#8, 0x41#8, 0x5A#8, 0x61#8, 0x7A#8], tlitr c = 1#8) ∧
      ∀ c ∈ [0x2F#8, 0x3A#8, 0x40#8, 0x5B#8, 0x60#8, 0x7B#8, 0x20#8, 0x09#8, 0x5F#8, 0x2E#8], tlitr c = 0#8 := by decide
/-- R150's values -/
theorem test_etl :
    etl 0 = 0 ∧ etl 1 = 3 ∧ etl 24 = 72 ∧ etl 25 = 75 ∧ etl 26 = 81 ∧ etl 50 = 153 ∧ etl 51 = 159 ∧ etl 75 = 231 ∧
      etl 150 = 465 ∧ etl 1000 = 3117 := by decide

/-! ### States for the tests -/

/-- The bytes of a memory from index 0 on. -/
def bytesAt (bs : List Byte) : Memory := Memory.writeAll [] 0 bs

/-- No command in progress: a source, SLEN its length, a TCAP; 16 bytes of SRC and 96 of TGT. -/
def idle (bs : List Byte) (tcap : Nat) : State :=
  { State.resetWith { srcCap := 16, tgtCap := 96, idxW := 32, eobCheck := true } with
    src := bytesAt bs, slen := bs.length, tcap := tcap }

/-- A command in progress at SI, with the output so far. -/
def scanning (op q : Bool) (bs : List Byte) (si : Nat) (out : List Byte) (line : Nat) : State :=
  { idle bs 90 with status := 0x01#8, op := op, q := q, si := si, ti := out.length, line := line, tgt := bytesAt out }

/-- An encode command in progress with n literals `a` and then v on the current line, nothing else written. -/
def longLine (n : Nat) (v : Byte) : State :=
  { idle [0x61#8] 90 with status := 0x01#8, op := true, ti := n + 1, line := n + 1, tgt := [(n, v)] }

/-- o is a next state that meets p. -/
def nextIs (o : Host.Outcome State Fault Refusal) (p : State → Bool) : Bool :=
  match o with
  | .next t => p t
  | .fault _ => false
  | .refused _ => false

/-! ### One or two small steps per instruction -/

/-- R160: DEC latches OP = 0, Q = 0 and sets BUSY. -/
theorem test_dec : nextIs (exec .dec (idle [0x61#8] 1)) (fun t =>
    t.status == 0x01#8 && t.si == 0 && t.ti == 0 && t.op == false && t.q == false) = true := by decide
/-- R163: DEC with TCAP one less than SLEN is BufferTooSmall. -/
theorem test_dec_too_small :
    nextIs (exec .dec (idle [0x61#8, 0x62#8] 1)) (fun t => t.status == 0x0B#8 && t.tcap == 1) = true := by decide
/-- R163: `ENC "abc"` passes with TCAP = ETL(3) = 9 ... -/
theorem test_enc : nextIs (exec .enc (idle [0x61#8, 0x62#8, 0x63#8] 9)) (fun t =>
    t.status == 0x01#8 && t.op == true && t.q == false) = true := by decide
/-- ... and raises BufferTooSmall with TCAP = 8. -/
theorem test_enc_too_small :
    nextIs (exec .enc (idle [0x61#8, 0x62#8, 0x63#8] 8)) (fun t => t.status == 0x0B#8) = true := by decide
/-- R60: DECQ latches Q = 1. -/
theorem test_decq : nextIs (exec .decq (idle [0x5F#8] 1)) (fun t => t.status == 0x01#8 && t.op == false && t.q == true) = true := by
  decide
/-- R186: TCAP above TGT_CAP is InvalidArgument, although it is also large enough. -/
theorem test_decq_range : nextIs (exec .decq (idle [] 97)) (fun t => t.status == 0x07#8) = true := by decide
/-- R60: ENCQ latches OP = 1, Q = 1. -/
theorem test_encq : nextIs (exec .encq (idle [] 0)) (fun t => t.status == 0x01#8 && t.op == true && t.q == true) = true := by decide
/-- R102: `=e9` gives 0xE9. -/
theorem test_dEsc :
    nextIs (exec (.dEsc 0x65#8 0x39#8) (scanning false false [0x3D#8, 0x65#8, 0x39#8] 0 [] 0)) (fun t =>
      t.tgtByte 0 == 0xE9#8 && t.ti == 1 && t.si == 3) = true := by decide
/-- R103's example in R104's step: source `a= \t\r\n` at the CR, output `a= \t`. -/
theorem test_dSoft :
    nextIs (exec (.dSoft .crlf) (scanning false false [0x61#8, 0x3D#8, 0x20#8, 0x09#8, 0x0D#8, 0x0A#8] 4
      [0x61#8, 0x3D#8, 0x20#8, 0x09#8] 0)) (fun t => t.ti == 1 && t.rw == 2 && t.si == 6 && t.tgtByte 0 == 0x61#8) = true := by
  decide
/-- R105's worked example: `a \r\nb` at the CR. -/
theorem test_dHard :
    nextIs (exec (.dHard .crlf) (scanning false false [0x61#8, 0x20#8, 0x0D#8, 0x0A#8, 0x62#8] 2 [0x61#8, 0x20#8] 0)) (fun t =>
      t.tgtByte 1 == 0x0D#8 && t.tgtByte 2 == 0x0A#8 && t.ti == 3 && t.si == 4) = true := by decide
/-- R105: `a\r`: a lone CR stays one. -/
theorem test_dHard_cr :
    nextIs (exec (.dHard .cr) (scanning false false [0x61#8, 0x0D#8] 1 [0x61#8] 0)) (fun t =>
      t.tgtByte 1 == 0x0D#8 && t.ti == 2 && t.si == 2) = true := by decide
/-- R106 -/
theorem test_dUsc :
    nextIs (exec .dUsc (scanning false true [0x5F#8] 0 [] 0)) (fun t => t.tgtByte 0 == 0x20#8 && t.ti == 1 && t.si == 1) = true := by
  decide
/-- R107 -/
theorem test_dLit :
    nextIs (exec (.dLit 0x5A#8) (scanning false false [0x5A#8] 0 [] 0)) (fun t =>
      t.tgtByte 0 == 0x5A#8 && t.ti == 1 && t.si == 1) = true := by decide
/-- R108 -/
theorem test_dDrop :
    nextIs (exec (.dDrop 0xFF#8) (scanning false false [0x61#8, 0xFF#8] 1 [0x61#8] 0)) (fun t => t.ti == 1 && t.si == 2) = true := by
  decide
/-- R109: `a= \t` at its end gives `a`. -/
theorem test_dEob :
    nextIs (exec .dEob (scanning false false [0x61#8, 0x3D#8, 0x20#8, 0x09#8] 4 [0x61#8, 0x3D#8, 0x20#8, 0x09#8] 0)) (fun t =>
      t.ti == 1 && t.si == 4) = true := by decide
/-- R103: `a \r\n` at index 2: no `=`. -/
theorem test_padchk :
    nextIs (exec .padchk { scanning false false [0x61#8, 0x20#8, 0x0D#8, 0x0A#8] 2 [0x61#8, 0x20#8] 0 with rw := 2 }) (fun t =>
      t.rw == 1 && t.ti == 1) = true := by decide
/-- R103: `=20\r\n` at index 3: the space is data. -/
theorem test_padchk_escape :
    nextIs (exec .padchk { scanning false false [0x3D#8, 0x32#8, 0x30#8, 0x0D#8, 0x0A#8] 3 [0x20#8] 0 with rw := 3 }) (fun t =>
      t.rw == 3 && t.ti == 1) = true := by decide
/-- R132: with LINE = 75 a break precedes the literal. -/
theorem test_eLit_break :
    nextIs (exec (.eLit 0x61#8) (longLine 74 0x61#8)) (fun t =>
      t.tgtByte 75 == 0x3D#8 && t.tgtByte 77 == 0x0A#8 && t.tgtByte 78 == 0x61#8 && t.ti == 79 && t.line == 1 && t.si == 1) = true := by
  decide
/-- R134: with LINE = 74 none does. -/
theorem test_eLit :
    nextIs (exec (.eLit 0x61#8) (longLine 73 0x61#8)) (fun t => t.tgtByte 74 == 0x61#8 && t.ti == 75 && t.line == 75) = true := by
  decide
/-- R133: `ENC "a \r\nb"` at the pair. -/
theorem test_eCrlf :
    nextIs (exec .eCrlf (scanning true false [0x61#8, 0x20#8, 0x0D#8, 0x0A#8, 0x62#8] 2 [0x61#8, 0x20#8] 2)) (fun t =>
      t.tgtByte 1 == 0x3D#8 && t.tgtByte 2 == 0x32#8 && t.tgtByte 3 == 0x30#8 && t.tgtByte 4 == 0x0D#8 && t.tgtByte 5 == 0x0A#8 &&
        t.ti == 6 && t.line == 0 && t.si == 4) = true := by decide
/-- R136: 72 bytes `a` then `=`: no break, LINE 75. -/
theorem test_eSym :
    nextIs (exec (.eSym 0x3D#8) (longLine 71 0x61#8)) (fun t =>
      t.tgtByte 72 == 0x3D#8 && t.tgtByte 73 == 0x33#8 && t.tgtByte 74 == 0x44#8 && t.ti == 75 && t.line == 75 && t.si == 1) = true := by
  decide
/-- R136: 73 bytes `a` then `=`: a break, LINE 3. -/
theorem test_eSym_break :
    nextIs (exec (.eSym 0x3D#8) (longLine 72 0x61#8)) (fun t => t.tgtByte 75 == 0x0A#8 && t.ti == 79 && t.line == 3) = true := by
  decide
/-- R138: 74 bytes `a` then SP: the flush inserts a break (WLEN 80). -/
theorem test_eEob_break :
    nextIs (exec .eEob (longLine 74 0x20#8)) (fun t =>
      t.tgtByte 74 == 0x3D#8 && t.tgtByte 76 == 0x0A#8 && t.tgtByte 79 == 0x30#8 && t.ti == 80 && t.line == 3) = true := by decide
/-- R138: the empty source: nothing happens. -/
theorem test_eEob_empty :
    nextIs (exec .eEob (scanning true false [] 0 [] 0)) (fun t => t.ti == 0 && t.line == 0 && t.si == 0) = true := by decide
/-- R134: LINE = 73, k = 3: a break. -/
theorem test_softbrk :
    nextIs (exec (.softbrk 3) (longLine 72 0x61#8)) (fun t => t.tgtByte 73 == 0x3D#8 && t.ti == 76 && t.line == 0) = true := by decide
/-- R134: any LINE with Q = 1: none. -/
theorem test_softbrk_q :
    nextIs (exec (.softbrk 3) { longLine 80 0x61#8 with q := true }) (fun t => t.ti == 81 && t.line == 81) = true := by decide
/-- R135: `SYMBOL(0xFF)` writes `=FF`. -/
theorem test_symbol :
    nextIs (exec (.symbol 0xFF#8) (scanning true false [0xFF#8] 0 [] 0)) (fun t =>
      t.tgtByte 0 == 0x3D#8 && t.tgtByte 1 == 0x46#8 && t.tgtByte 2 == 0x46#8 && t.ti == 3 && t.line == 3 && t.si == 0) = true := by
  decide
/-- R137: 72 literals and SP, LINE 73: no break, `=20`, LINE 75. -/
theorem test_flushws :
    nextIs (exec .flushws (longLine 72 0x20#8)) (fun t =>
      t.tgtByte 72 == 0x3D#8 && t.tgtByte 74 == 0x30#8 && t.ti == 75 && t.line == 75) = true := by decide
/-- R137: the last byte is no SP or TAB. -/
theorem test_flushws_none : nextIs (exec .flushws (longLine 72 0x61#8)) (fun t => t.ti == 73 && t.line == 73) = true := by decide

/-! ### Steps of the machine -/

/-- R61: a reserved command word raises InvalidArgument. -/
theorem test_step_reserved :
    nextIs (step { idle [] 0 with host := [.writeCmd 0x04#8] }) (fun t => t.status == 0x07#8 && t.host == []) = true := by decide
/-- R166: the end of `DEC ""`: DONE, WLEN 0. -/
theorem test_step_end :
    nextIs (step (scanning false false [] 0 [] 0)) (fun t => t.status == 0x02#8 && t.wlen == 0) = true := by decide
/-- R69: the call of two bytes for a block with one byte of SRC and three index bits loads the one, writes both lengths, and ... -/
theorem test_call_too_large :
    decodeCall { srcCap := 1, tgtCap := 1, idxW := 3, eobCheck := true } false [0x61#8, 0x62#8] =
      [.writeSrc 0 0x61#8, .writeSlen 2, .writeTcap 2, .writeCmd 0x00#8, .await] := by decide
/-- ... its command answers InvalidArgument. -/
theorem test_call_too_large_ends :
    nextIs (step { State.resetWith { srcCap := 1, tgtCap := 1, idxW := 3, eobCheck := true } with
      slen := 2, tcap := 2, host := [.writeCmd 0x00#8, .await] }) (fun t => t.status == 0x07#8) = true := by decide
/-- log 18: a table word placed at reset is the next step's instruction. -/
theorem test_withFetchWord :
    nextIs (step (State.reset.withFetchWord 16 3338)) (fun t => t.ti == 2 && t.si == 2 && t.busy) = true := by decide

/-! ### Witnesses: a state and operands that meet each statement's hypotheses together -/

/-- ResetClearsEveryRegister, while BUSY -/
theorem witness_reset : ∃ s rest, State.host s = .reset :: rest ∧ s.busy = true :=
  ⟨{ scanning false false [0x61#8] 0 [] 0 with host := [.reset] }, [], rfl, by decide⟩

/-- HostWritesChangeOnePlace: each clause, at the top of its range -/
theorem witness_host_writes :
    (∃ s rest n, State.busy s = false ∧ s.host = .writeSlen n :: rest ∧ n < 2 ^ s.cfg.idxW ∧ n + 1 = 2 ^ s.cfg.idxW) ∧
    (∃ s rest n, State.busy s = false ∧ s.host = .writeTcap n :: rest ∧ n < 2 ^ s.cfg.idxW ∧ n + 1 = 2 ^ s.cfg.idxW) ∧
    (∃ s rest i b, State.busy s = false ∧ s.host = .writeSrc i b :: rest ∧ i < s.cfg.srcCap ∧ i + 1 = s.cfg.srcCap) ∧
    (∃ s rest i b, State.busy s = false ∧ s.host = .writeTgt i b :: rest ∧ i < s.cfg.tgtCap ∧ i + 1 = s.cfg.tgtCap) :=
  ⟨⟨{ idle [] 0 with host := [.writeSlen 4294967295] }, [], 4294967295, by decide, rfl, by decide, by decide⟩,
    ⟨{ idle [] 0 with host := [.writeTcap 4294967295] }, [], 4294967295, by decide, rfl, by decide, by decide⟩,
    ⟨{ idle [] 0 with host := [.writeSrc 15 0x61#8] }, [], 15, 0x61#8, by decide, rfl, by decide, by decide⟩,
    ⟨{ idle [] 0 with host := [.writeTgt 95 0x61#8] }, [], 95, 0x61#8, by decide, rfl, by decide, by decide⟩⟩

/-- HostWritesRefusedWhileBusy -/
theorem witness_host_write_busy : ∃ s op rest, State.busy s = true ∧ s.host = op :: rest ∧ ∃ n, op = .writeSlen n :=
  ⟨{ scanning false false [0x61#8] 0 [] 0 with host := [.writeSlen 0] }, .writeSlen 0, [], by decide, rfl, 0, rfl⟩

theorem witness_host_write_busy_others :
    (∃ s rest n, State.busy s = true ∧ s.host = .writeTcap n :: rest) ∧
    (∃ s rest i b, State.busy s = true ∧ s.host = .writeSrc i b :: rest) ∧
    (∃ s rest i b, State.busy s = true ∧ s.host = .writeTgt i b :: rest) :=
  ⟨⟨{ scanning true false [0x61#8] 0 [] 0 with host := [.writeTcap 0] }, [], 0, by decide, rfl⟩,
    ⟨{ scanning true false [0x61#8] 0 [] 0 with host := [.writeSrc 0 0x61#8] }, [], 0, 0x61#8, by decide, rfl⟩,
    ⟨{ scanning true false [0x61#8] 0 [] 0 with host := [.writeTgt 0 0x61#8] }, [], 0, 0x61#8, by decide, rfl⟩⟩

/-- HostReadsReturnTheState: the clauses that ask for no command in progress, at the last index -/
theorem witness_host_reads :
    (∃ s rest, State.busy s = false ∧ s.host = .readReg .wlen :: rest) ∧
    (∃ s rest i, State.busy s = false ∧ s.host = .readSrc i :: rest ∧ i < s.cfg.srcCap ∧ i + 1 = s.cfg.srcCap) ∧
    (∃ s rest i, State.busy s = false ∧ s.host = .readTgt i :: rest ∧ i < s.cfg.tgtCap ∧ i + 1 = s.cfg.tgtCap) :=
  ⟨⟨{ idle [] 0 with host := [.readReg .wlen] }, [], by decide, rfl⟩,
    ⟨{ idle [] 0 with host := [.readSrc 15] }, [], 15, by decide, rfl, by decide, by decide⟩,
    ⟨{ idle [] 0 with host := [.readTgt 95] }, [], 95, by decide, rfl, by decide, by decide⟩⟩

/-- HostReadsReturnTheState: CMD and STATUS while BUSY, and the two length registers -/
theorem witness_host_reads_registers :
    (∃ s rest, State.busy s = true ∧ s.host = .readReg .cmd :: rest) ∧
    (∃ s rest, State.busy s = true ∧ s.host = .readReg .status :: rest) ∧
    (∃ s rest, State.busy s = false ∧ s.host = .readReg .slen :: rest) ∧
    (∃ s rest, State.busy s = false ∧ s.host = .readReg .tcap :: rest) :=
  ⟨⟨{ scanning false false [] 0 [] 0 with host := [.readReg .cmd] }, [], by decide, rfl⟩,
    ⟨{ scanning false false [] 0 [] 0 with host := [.readReg .status] }, [], by decide, rfl⟩,
    ⟨{ idle [] 0 with host := [.readReg .slen] }, [], by decide, rfl⟩,
    ⟨{ idle [] 0 with host := [.readReg .tcap] }, [], by decide, rfl⟩⟩

/-- IdleBlockKeepsItsState -/
theorem witness_idle : (idle [0x61#8] 1).host = [] ∧ (idle [0x61#8] 1).busy = false := ⟨rfl, by decide⟩

/-- CommandStartsItsScan: each command at the smallest TCAP it accepts -/
theorem witness_command_starts :
    Accepts 0x00#8 (idle [0x61#8] 1) ∧ Accepts 0x02#8 (idle [0x61#8] 1) ∧ Accepts 0x01#8 (idle [0x61#8] 3) ∧
      Accepts 0x03#8 (idle [0x61#8] 3) ∧ (idle [0x61#8] 1).busy = false ∧ (idle [0x61#8] 3).busy = false := by
  unfold Accepts; decide

/-- StartChecksDecideTheOutcome: a write of each outcome's own, on the states where the checks meet -/
theorem witness_start_checks :
    (∃ s rest, State.host s = .writeCmd 0x04#8 :: rest ∧ s.busy = false) ∧
    (∃ s rest, State.host s = .writeCmd 0x00#8 :: rest ∧ s.busy = false ∧ s.slen = s.cfg.srcCap + 1) ∧
    (∃ s rest, State.host s = .writeCmd 0x00#8 :: rest ∧ s.busy = false ∧ s.slen = s.cfg.srcCap ∧ s.tcap = s.cfg.tgtCap + 1) ∧
    (∃ s rest, State.host s = .writeCmd 0x00#8 :: rest ∧ s.busy = false ∧ s.tcap + 1 = s.slen) ∧
    (∃ s rest, State.host s = .writeCmd 0x01#8 :: rest ∧ s.busy = false ∧ s.tcap + 1 = etl s.slen) ∧
    (∃ s rest, State.host s = .writeCmd 0x01#8 :: rest ∧ s.busy = false ∧ s.tcap = etl s.slen) :=
  ⟨⟨{ idle [] 0 with host := [.writeCmd 0x04#8] }, [], rfl, by decide⟩,
    ⟨{ idle [] 0 with host := [.writeCmd 0x00#8], slen := 17 }, [], rfl, by decide, rfl⟩,
    ⟨{ idle [] 97 with host := [.writeCmd 0x00#8], slen := 16 }, [], rfl, by decide, rfl, rfl⟩,
    ⟨{ idle [0x61#8] 0 with host := [.writeCmd 0x00#8] }, [], rfl, by decide, rfl⟩,
    ⟨{ idle [0x61#8] 2 with host := [.writeCmd 0x01#8] }, [], rfl, by decide, by decide⟩,
    ⟨{ idle [0x61#8] 3 with host := [.writeCmd 0x01#8] }, [], rfl, by decide, by decide⟩⟩

/-- CommandWhileBusyIsIgnored -/
theorem witness_command_busy : ∃ s rest, State.host s = .writeCmd 0x01#8 :: rest ∧ s.busy = true :=
  ⟨{ scanning false false [0x61#8] 0 [] 0 with host := [.writeCmd 0x01#8] }, [], rfl, by decide⟩

/-- PostCheckEndsTheCommand: the command ends in DONE ... -/
theorem witness_post_check : ∃ s u i, State.host s = [] ∧ s.busy = true ∧ fetch s = .ok i ∧ i = .dEob ∧ exec i s = .next u ∧
    u.si = u.slen ∧ u.ti = u.tcap :=
  ⟨{ scanning false false [0x61#8] 1 [0x61#8] 0 with tcap := 1 }, _, .dEob, rfl, by decide, rfl, rfl, rfl, rfl, rfl⟩

/-- ... or, from a state no run reaches, in Overflow, by the one test or the other. -/
theorem witness_post_check_overflow :
    (∃ s u i, State.host s = [] ∧ s.busy = true ∧ fetch s = .ok i ∧ i = .eEob ∧ exec i s = .next u ∧ u.tcap < u.ti) ∧
    (∃ s u i, State.host s = [] ∧ s.busy = true ∧ fetch s = .ok i ∧ i = .eEob ∧ exec i s = .next u ∧ u.si ≠ u.slen) :=
  ⟨⟨{ scanning true false [] 0 [0x61#8] 1 with tcap := 0 }, _, .eEob, rfl, by decide, rfl, rfl, rfl, by decide⟩,
    ⟨{ scanning true false [] 1 [0x61#8] 1 with tcap := 1 }, _, .eEob, rfl, by decide, rfl, rfl, rfl, by decide⟩⟩

/-- StepRunsTheDecodedInstruction: the decoder's bytes, the encoder's, and a command word; with nothing pending and with a wait -/
theorem witness_step_runs :
    (∃ s i r, State.busy s = true ∧ s.slen ≤ s.cfg.srcCap ∧ decode s.ctx (window s) = .ok (i, r) ∧ s.host = [] ∧ s.op = false) ∧
    (∃ s i r rest, State.busy s = true ∧ s.slen ≤ s.cfg.srcCap ∧ decode s.ctx (window s) = .ok (i, r) ∧
      s.host = .await :: rest ∧ s.op = true) ∧
    (∃ s c i r rest, State.host s = .writeCmd c :: rest ∧ decode .cmd [c] = .ok (i, r)) :=
  ⟨⟨scanning false false [0x3D#8, 0x34#8, 0x41#8] 0 [] 0, .dEsc 0x34#8 0x41#8, [], by decide, by decide, by decide, rfl, rfl⟩,
    ⟨{ scanning true false [0x0D#8, 0x0A#8] 0 [] 0 with host := [.await] }, .eCrlf, [], [], by decide, by decide, by decide, rfl, rfl⟩,
    ⟨{ idle [] 0 with host := [.writeCmd 0x03#8] }, 0x03#8, .encq, [], [], rfl, by decide⟩⟩

/-- DecodeStepSelection: `=41` whole, cut short by SLEN, and at the end; a pair and its CR alone; `_` in both modes -/
theorem witness_decode_selection :
    fetch (scanning false false [0x3D#8, 0x34#8, 0x31#8] 0 [] 0) = .ok (.dEsc 0x34#8 0x31#8) ∧
    fetch { scanning false false [0x3D#8, 0x34#8, 0x31#8] 0 [] 0 with slen := 2 } = .ok (.dLit 0x3D#8) ∧
    fetch (scanning false false [0x3D#8, 0x34#8, 0x31#8] 3 [0x41#8] 0) = .ok .dEob ∧
    fetch (scanning false false [0x3D#8, 0x0D#8, 0x0A#8] 1 [0x3D#8] 0) = .ok (.dSoft .crlf) ∧
    fetch { scanning false false [0x0D#8, 0x0A#8] 0 [] 0 with slen := 1 } = .ok (.dHard .cr) ∧
    fetch (scanning false true [0x5F#8] 0 [] 0) = .ok .dUsc ∧ fetch (scanning false false [0x5F#8] 0 [] 0) = .ok (.dLit 0x5F#8) ∧
    fetch (scanning false false [0x80#8] 0 [] 0) = .ok (.dDrop 0x80#8) := by decide

/-- EncodeStepSelection: a pair and its CR alone; SP in both modes; the end -/
theorem witness_encode_selection :
    fetch (scanning true false [0x0D#8, 0x0A#8] 0 [] 0) = .ok .eCrlf ∧
    fetch { scanning true false [0x0D#8, 0x0A#8] 0 [] 0 with slen := 1 } = .ok (.eSym 0x0D#8) ∧
    fetch (scanning true true [0x0D#8, 0x0A#8] 0 [] 0) = .ok (.eSym 0x0D#8) ∧
    fetch (scanning true false [0x20#8] 0 [] 0) = .ok (.eLit 0x20#8) ∧ fetch (scanning true true [0x20#8] 0 [] 0) = .ok (.eSym 0x20#8) ∧
    fetch (scanning true true [0x20#8] 1 [] 0) = .ok .eEob := by decide

/-- FetchReadsOnlyBelowSlen: two sources that differ at SLEN -/
theorem witness_fetch_below : ∃ s t : State, t.si = s.si ∧ t.slen = s.slen ∧ t.op = s.op ∧ t.q = s.q ∧ t.cfg = s.cfg ∧
    (∀ i, i < s.slen → t.srcByte i = s.srcByte i) ∧ t.srcByte s.slen ≠ s.srcByte s.slen :=
  ⟨{ scanning false false [0x3D#8, 0x34#8, 0x41#8] 0 [] 0 with slen := 2 },
    { scanning false false [0x3D#8, 0x34#8, 0x42#8] 0 [] 0 with slen := 2 }, rfl, rfl, rfl, rfl, rfl, by decide, by decide⟩

/-- EscapeWritesTheDecodedByte, at the last index of TGT -/
theorem witness_escape : ∃ (h g : Byte) (s : State), tdec h ≠ 0#8 ∧ tdec g ≠ 0#8 ∧ s.ti < s.cfg.tgtCap ∧ s.ti + 1 = s.cfg.tgtCap :=
  ⟨0x46#8, 0x66#8, { idle [] 0 with ti := 95 }, by decide, by decide, by decide, rfl⟩

/-- LiteralAndUnderscoreWriteOneByte, both forms, at the last index of TGT -/
theorem witness_literal :
    (∃ (i : Instr) (b : Byte) (s : State), i = .dLit b ∧ s.ti < s.cfg.tgtCap ∧ s.ti + 1 = s.cfg.tgtCap) ∧
    (∃ (i : Instr) (b : Byte) (s : State), (i = .dUsc ∧ b = 0x20#8) ∧ s.ti < s.cfg.tgtCap) :=
  ⟨⟨.dLit 0x61#8, 0x61#8, { idle [] 0 with ti := 95 }, rfl, by decide, rfl⟩, ⟨.dUsc, 0x20#8, idle [] 0, ⟨rfl, rfl⟩, by decide⟩⟩

/-- PadchkWalksTheSource, at the end of SRC -/
theorem witness_padchk : ∃ s : State, s.rw ≤ s.cfg.srcCap ∧ s.rw = s.cfg.srcCap := ⟨{ idle [] 0 with rw := 16 }, by decide, rfl⟩

/-- SoftBreakWritesNothing, EndOfBufferChecksPadding, at the end of SRC -/
theorem witness_breaks : ∃ s : State, s.cfg.eobCheck = true ∧ s.si ≤ s.cfg.srcCap ∧ s.si = s.cfg.srcCap :=
  ⟨{ idle [] 0 with si := 16 }, rfl, by decide, rfl⟩

/-- HardBreakCopiesTheTerminator: `a\r` at its CR with one byte of TGT left, and a pair that only fits once its padding is out -/
theorem witness_hard_break :
    (∃ (e : Term) (s : State), s.si ≤ s.cfg.srcCap ∧ s.ti - s.padTaken + (terminatorBytes e).length ≤ s.cfg.tgtCap ∧
      e = .cr ∧ s.si = 1 ∧ s.ti = 1 ∧ s.cfg.tgtCap = 2) ∧
    (∃ (e : Term) (s : State), s.si ≤ s.cfg.srcCap ∧ s.ti - s.padTaken + (terminatorBytes e).length ≤ s.cfg.tgtCap ∧
      e = .crlf ∧ s.cfg.tgtCap < s.ti + 2) :=
  ⟨⟨.cr, { scanning false false [0x61#8, 0x0D#8] 1 [0x61#8] 0 with
        cfg := { srcCap := 2, tgtCap := 2, idxW := 32, eobCheck := true }, tcap := 2 }, by decide, by decide, rfl, rfl, rfl, rfl⟩,
    ⟨.crlf, { scanning false false [0x61#8, 0x20#8, 0x0D#8, 0x0A#8] 2 [] 0 with ti := 95 }, by decide, by decide, rfl, by decide⟩⟩

/-- EndOfBufferCheckCanBeOff -/
theorem witness_eob_off : ∃ s : State, s.cfg.eobCheck = false :=
  ⟨State.resetWith { srcCap := 16, tgtCap := 96, idxW := 32, eobCheck := false }, rfl⟩

/-- SoftbrkBreaksAtSeventySix, EncodeLiteralCopiesItsByte: with a break and without, filling TGT -/
theorem witness_softbrk :
    (∃ s : State, s.ti + (breakBytes s.q s.line 1).length + 1 ≤ s.cfg.tgtCap ∧ s.line = 75 ∧ s.ti + 4 = s.cfg.tgtCap) ∧
    (∃ s : State, s.ti + (breakBytes s.q s.line 1).length + 1 ≤ s.cfg.tgtCap ∧ s.line = 74 ∧ s.ti + 1 = s.cfg.tgtCap) :=
  ⟨⟨{ idle [] 0 with ti := 92, line := 75 }, by decide, rfl, rfl⟩, ⟨{ idle [] 0 with ti := 95, line := 74 }, by decide, rfl, rfl⟩⟩

/-- SymbolWritesThreeBytes, EncodeSymbolForAnyOtherByte: with a break and without, filling TGT -/
theorem witness_symbol :
    (∃ s : State, s.ti + (breakBytes s.q s.line 3).length + 3 ≤ s.cfg.tgtCap ∧ s.line = 73 ∧ s.ti + 6 = s.cfg.tgtCap) ∧
    (∃ s : State, s.ti + (breakBytes s.q s.line 3).length + 3 ≤ s.cfg.tgtCap ∧ s.line = 72 ∧ s.ti + 3 = s.cfg.tgtCap) :=
  ⟨⟨{ idle [] 0 with ti := 90, line := 73 }, by decide, rfl, rfl⟩, ⟨{ idle [] 0 with ti := 93, line := 72 }, by decide, rfl, rfl⟩⟩

/-- FlushwsReemitsTrailingWhitespace, EncodeCrlfFlushesAndCopies, EncodeEndOfBufferFlushes: firing and not, TI = 0 among them -/
theorem witness_flushws :
    (∃ s : State, s.ti ≤ s.cfg.tgtCap ∧ s.flushStart + s.flushBytes.length + 2 ≤ s.cfg.tgtCap ∧ s.flushes ∧ s.flushBytes.length = 6) ∧
    (∃ s : State, s.ti ≤ s.cfg.tgtCap ∧ s.flushStart + s.flushBytes.length + 2 ≤ s.cfg.tgtCap ∧ s.flushes ∧ s.flushBytes.length = 3) ∧
    (∃ s : State, s.ti ≤ s.cfg.tgtCap ∧ s.flushStart + s.flushBytes.length + 2 ≤ s.cfg.tgtCap ∧ s.ti = 0) :=
  ⟨⟨longLine 73 0x20#8, by decide, by decide, by decide, by decide⟩, ⟨longLine 72 0x09#8, by decide, by decide, by decide, by decide⟩,
    ⟨idle [] 0, by decide, by decide, rfl⟩⟩

/-- AccessOutsideTheMemoriesFaults: the writes, each with one byte too many -/
theorem witness_outside_writes :
    (∃ s : State, s.cfg.tgtCap < s.ti + 1 ∧ s.ti = s.cfg.tgtCap) ∧
    (∃ s : State, s.q = false ∧ 76 ≤ s.line + 3 ∧ s.cfg.tgtCap < s.ti + 3 ∧ s.ti + 2 = s.cfg.tgtCap) ∧
    (∃ s : State, s.cfg.tgtCap < s.ti + (breakBytes s.q s.line 3).length + 3 ∧ s.ti + 2 = s.cfg.tgtCap) ∧
    (∃ s : State, s.cfg.tgtCap < s.ti + (breakBytes s.q s.line 1).length + 1 ∧ s.line = 75 ∧ s.ti + 3 = s.cfg.tgtCap) :=
  ⟨⟨{ idle [] 0 with ti := 96 }, by decide, rfl⟩, ⟨{ idle [] 0 with ti := 94, line := 73 }, rfl, by decide, by decide, rfl⟩,
    ⟨{ idle [] 0 with ti := 94 }, by decide, rfl⟩, ⟨{ idle [] 0 with ti := 93, line := 75 }, by decide, rfl, rfl⟩⟩

/-- AccessOutsideTheMemoriesFaults: the flush, at its read and at its write, and the pair after it -/
theorem witness_outside_flush :
    (∃ s : State, s.cfg.tgtCap < s.ti ∧ s.ti = s.cfg.tgtCap + 1) ∧
    (∃ s : State, s.ti = s.cfg.tgtCap ∧ s.cfg.tgtCap < s.flushStart + s.flushBytes.length) ∧
    (∃ s : State, s.ti = s.cfg.tgtCap ∧ ¬ s.flushes ∧ s.cfg.tgtCap < s.flushStart + s.flushBytes.length + 2) :=
  ⟨⟨{ idle [] 0 with ti := 97 }, by decide, rfl⟩, ⟨longLine 95 0x20#8, rfl, by decide⟩, ⟨longLine 95 0x61#8, rfl, by decide, by decide⟩⟩

/-- AccessOutsideTheMemoriesFaults: the reads of SRC, D.HARD's write, and the fetch -/
theorem witness_outside_reads :
    (∃ s : State, s.cfg.srcCap < s.rw ∧ s.rw = s.cfg.srcCap + 1) ∧
    (∃ s : State, s.cfg.srcCap < s.si ∧ s.si = s.cfg.srcCap + 1 ∧ s.cfg.eobCheck = true) ∧
    (∃ (e : Term) (s : State), s.si ≤ s.cfg.srcCap ∧ s.cfg.tgtCap < s.ti - s.padTaken + (terminatorBytes e).length ∧
      e = .crlf ∧ s.ti + 1 = s.cfg.tgtCap) ∧
    (∃ s : State, s.host = [] ∧ s.busy = true ∧ s.si < s.slen ∧ s.cfg.srcCap < s.si + min 3 (s.slen - s.si) ∧ s.si = s.cfg.srcCap) :=
  ⟨⟨{ idle [] 0 with rw := 17 }, by decide, rfl⟩, ⟨{ idle [] 0 with si := 17 }, by decide, rfl, rfl⟩,
    ⟨.crlf, { idle [0x0D#8, 0x0A#8] 0 with ti := 95 }, by decide, by decide, rfl, rfl⟩,
    ⟨{ scanning false false [] 16 [] 0 with slen := 17 }, rfl, by decide, by decide, by decide, rfl⟩⟩

/-- HostAccessOutOfRangeStops: each clause at the first index, and the first value, out of range -/
theorem witness_host_out_of_range :
    (∃ s rest i, State.host s = .readSrc i :: rest ∧ s.cfg.srcCap ≤ i ∧ i = s.cfg.srcCap) ∧
    (∃ s rest i, State.host s = .readTgt i :: rest ∧ s.cfg.tgtCap ≤ i ∧ i = s.cfg.tgtCap) ∧
    (∃ s rest i b, State.busy s = false ∧ s.host = .writeSrc i b :: rest ∧ s.cfg.srcCap ≤ i ∧ i = s.cfg.srcCap) ∧
    (∃ s rest i b, State.busy s = false ∧ s.host = .writeTgt i b :: rest ∧ s.cfg.tgtCap ≤ i ∧ i = s.cfg.tgtCap) ∧
    (∃ s rest n, State.busy s = false ∧ s.host = .writeSlen n :: rest ∧ 2 ^ s.cfg.idxW ≤ n ∧ n = 2 ^ s.cfg.idxW) ∧
    (∃ s rest n, State.busy s = false ∧ s.host = .writeTcap n :: rest ∧ 2 ^ s.cfg.idxW ≤ n ∧ n = 2 ^ s.cfg.idxW) :=
  ⟨⟨{ idle [] 0 with host := [.readSrc 16] }, [], 16, rfl, by decide, rfl⟩,
    ⟨{ idle [] 0 with host := [.readTgt 96] }, [], 96, rfl, by decide, rfl⟩,
    ⟨{ idle [] 0 with host := [.writeSrc 16 0x61#8] }, [], 16, 0x61#8, by decide, rfl, by decide, rfl⟩,
    ⟨{ idle [] 0 with host := [.writeTgt 96 0x61#8] }, [], 96, 0x61#8, by decide, rfl, by decide, rfl⟩,
    ⟨{ idle [] 0 with host := [.writeSlen 4294967296] }, [], 4294967296, by decide, rfl, by decide, by decide⟩,
    ⟨{ idle [] 0 with host := [.writeTcap 4294967296] }, [], 4294967296, by decide, rfl, by decide, by decide⟩⟩

/-- DecodeOfEncodeIsTheInstruction -/
theorem witness_decode_of_encode : ∃ (ctx : Ctx) (i : Instr) (bs rest : List Byte),
    i.wf = true ∧ ctx.admits i = true ∧ i.follows ctx rest = true ∧ encode i = some bs :=
  ⟨.dec false true, .dSoft .cr, [0x0D#8], [0x61#8], by decide, by decide, by decide, by decide⟩

/-- EncodeOfDecodeIsTheBytes -/
theorem witness_encode_of_decode : ∃ (ctx : Ctx) (bs rest : List Byte) (i : Instr), decode ctx bs = .ok (i, rest) ∧ ctx ≠ .cmd :=
  ⟨.enc false, [0x0D#8, 0x0A#8, 0x61#8], [0x61#8], .eCrlf, by decide, by decide⟩

/-- ReservedCommandWordsAreRejected: the first reserved word and the last command -/
theorem witness_reserved : (0x04#8 : Byte).extractLsb' 2 6 ≠ 0#6 ∧ (0x03#8 : Byte).extractLsb' 2 6 = 0#6 := by decide

/-- Source `a= \r\n` at its CR, the output `a= `: the space and the `=` stand to be taken out. -/
def softState : State := scanning false false [0x61#8, 0x3D#8, 0x20#8, 0x0D#8, 0x0A#8] 3 [0x61#8, 0x3D#8, 0x20#8] 0

/-- Source `a \r\n` at its CR, encoding, the output `a `. -/
def flushState : State := scanning true false [0x61#8, 0x20#8, 0x0D#8, 0x0A#8] 2 [0x61#8, 0x20#8] 2

theorem softState_scanOk : softState.ScanOk := fun _ => by
  refine ⟨by decide, by decide, by decide, fun _ => ?_, fun h => absurd h (by decide)⟩
  unfold State.DecodeOk; decide

theorem flushState_scanOk : flushState.ScanOk := fun _ => by
  refine ⟨by decide, by decide, by decide, fun h => absurd h (by decide), fun _ => ⟨by decide, 0, 0, ?_⟩⟩
  decide

/-- EveryStepKeepsTheScanInvariant, EngineStepMakesProgress, OverflowIsUnreachable: decoding ... -/
theorem witness_scan : ∃ s t, State.ScanOk s ∧ s.busy = true ∧ s.host = [] ∧ s.err ≠ QpError.overflow.code ∧ step s = .next t :=
  ⟨softState, _, softState_scanOk, by decide, rfl, by decide, rfl⟩

/-- ... and encoding. -/
theorem witness_scan_encode :
    ∃ s t, State.ScanOk s ∧ s.busy = true ∧ s.host = [] ∧ s.err ≠ QpError.overflow.code ∧ step s = .next t :=
  ⟨flushState, _, flushState_scanOk, by decide, rfl, by decide, rfl⟩

/-- EveryStepKeepsTheLineCounter -/
theorem witness_line : ∃ s t, State.LineOk s ∧ s.busy = true ∧ s.op = true ∧ s.q = false ∧ step s = .next t :=
  ⟨flushState, _, fun _ _ _ => ⟨by decide, by decide, by decide, by decide⟩, by decide, rfl, rfl, rfl⟩

/-- EveryStepKeepsStatusLegal, EveryStepKeepsMemoriesCanonical, EveryStepKeepsRegistersInWidth, ParametersNeverChange -/
theorem witness_invariants : ∃ s t, State.StatusOk s ∧ s.MemOk ∧ s.WidthOk ∧ step s = .next t :=
  ⟨flushState, _, by unfold State.StatusOk; decide, by unfold State.MemOk; decide, by unfold State.WidthOk; decide, rfl⟩

/-- EngineNeverWritesItsInputs: the command goes on -/
theorem witness_inputs : ∃ s t, State.host s = [] ∧ step s = .next t ∧ t.busy = true := ⟨flushState, _, rfl, rfl, by decide⟩

/-- AcceptedCommandEndsInDone -/
theorem witness_accepted : ∃ c s, State.busy s = false ∧ Accepts c s ∧ s.slen = s.cfg.srcCap :=
  ⟨0x00#8, { idle [] 16 with slen := 16 }, by decide, by unfold Accepts; decide, rfl⟩

/-- HostCallsRunToDone: a byte string that fills SRC -/
theorem witness_host_call : ∃ (bs : List Byte) (s : State), s.busy = false ∧ s.cfg.wf ∧ bs.length ≤ s.cfg.srcCap ∧
    bs.length = s.cfg.srcCap ∧ etl bs.length ≤ s.cfg.tgtCap := ⟨List.replicate 16 0x61#8, idle [] 0, by decide, by decide, by decide, rfl, by decide⟩

/-- HostCallsThatDoNotFitRaiseInvalidArgument: one byte more than SRC has, and a capacity above TGT's while the source fits -/
theorem witness_host_call_too_large :
    (∃ (bs : List Byte) (s : State), s.busy = false ∧ s.cfg.wf ∧ s.cfg.srcCap < bs.length ∧ bs.length = s.cfg.srcCap + 1) ∧
    (∃ (bs : List Byte) (s : State), s.busy = false ∧ s.cfg.wf ∧ s.cfg.tgtCap < etl bs.length ∧ bs.length = s.cfg.srcCap) :=
  ⟨⟨List.replicate 17 0x61#8, idle [] 0, by decide, by decide, by decide, rfl⟩,
    ⟨[0x61#8], State.resetWith { srcCap := 1, tgtCap := 2, idxW := 32, eobCheck := true }, by decide, by decide, by decide, rfl⟩⟩

/-- CommandIsAFunctionOfItsSource: two states with different TCAP, and different bytes at SLEN -/
theorem witness_function : ∃ c s s' t t', State.slen s' = State.slen s ∧ s'.cfg.eobCheck = s.cfg.eobCheck ∧
    (∀ i, i < s.slen → s'.srcByte i = s.srcByte i) ∧ Completes c s t ∧ Completes c s' t' :=
  ⟨0x01#8, idle [0x20#8] 3, { idle [0x20#8, 0x61#8] 9 with slen := 1 }, _, _, rfl, rfl, by decide, ⟨by decide, 3, rfl, rfl, rfl⟩,
    ⟨by decide, 3, rfl, rfl, rfl⟩⟩

/-- DecodeOfEncodedBufferIsTheSource: `ENC " "` and `DEC "=20"` -/
theorem witness_round_trip : ∃ s t u v, Completes (encWord false) s t ∧ State.slen u = State.wlen t ∧
    (∀ i, i < t.wlen → u.srcByte i = t.tgtByte i) ∧ Completes (decWord false) u v :=
  ⟨idle [0x20#8] 3, _, idle [0x3D#8, 0x32#8, 0x30#8] 3, _, ⟨by decide, 3, rfl, rfl, rfl⟩, rfl, by decide,
    ⟨by decide, 3, rfl, rfl, rfl⟩⟩

/-- EncodedOutputIsValid, EncodedOutputAlphabet: in both modes -/
theorem witness_encoded :
    (∃ s t, Completes (encWord false) s t ∧ 0 < State.wlen t) ∧ (∃ s t, Completes (encWord true) s t ∧ 0 < State.wlen t) :=
  ⟨⟨idle [0x3D#8] 3, _, ⟨by decide, 3, rfl, rfl, rfl⟩, by decide⟩, ⟨idle [0x5F#8] 3, _, ⟨by decide, 3, rfl, rfl, rfl⟩, by decide⟩⟩

/-- DecodeIgnoresTransportPadding: `\r\n` and ` \r\n` -/
theorem witness_padding : ∃ s s' t t', (State.cfg s').eobCheck = (State.cfg s).eobCheck ∧
    Padded (s.srcList s.slen) (s'.srcList s'.slen) ∧ Completes (decWord false) s t ∧ Completes (decWord false) s' t' :=
  ⟨idle [0x0D#8, 0x0A#8] 2, idle [0x20#8, 0x0D#8, 0x0A#8] 3, _, _, rfl, .pad 0x20#8 (by decide) (.same _ (.same _ .nil)),
    ⟨by decide, 3, rfl, rfl, rfl⟩, ⟨by decide, 4, rfl, rfl, rfl⟩⟩

/-- DecqDiffersFromDecInUnderscoresOnly: `_` -/
theorem witness_decq : ∃ s t t', Completes 0x00#8 s t ∧ Completes 0x02#8 s t' ∧ State.tgtByte t 0 ≠ t'.tgtByte 0 :=
  ⟨idle [0x5F#8] 1, _, _, ⟨by decide, 3, rfl, rfl, rfl⟩, ⟨by decide, 3, rfl, rfl, rfl⟩, by decide⟩

end Sys2Proof.Tests
end

section
/-! The parameters (spec/00_scope.md R6, spec/10_state.md R10): each operation a step is made of keeps `cfg`, and so does the step. -/

namespace Sys2Proof.Machine

theorem Untouched.cfg_eq {s t : State} (h : Untouched s t) : t.cfg = s.cfg := by
  obtain ⟨-, -, -, -, -, -, -, hcfg, -⟩ := h
  exact hcfg

theorem HostLeft.cfg_eq {s u : State} (h : HostLeft s u) : u.cfg = s.cfg := by
  obtain rfl | ⟨_, _, -, rfl⟩ := h <;> rfl

@[simp] theorem issue_cfg (c : Byte) (s : State) : (issue c s).cfg = s.cfg := by
  obtain ⟨-, h⟩ | ⟨-, e, -, h⟩ := issue_cases c s <;> simp [h]

@[simp] theorem writeCmd_cfg (c : Byte) (s : State) : (writeCmd c s).cfg = s.cfg := by
  cases hb : s.busy with
  | true => rw [writeCmd_busy hb]
  | false => rw [writeCmd_idle hb, issue_cfg]

@[simp] theorem finish_cfg (s : State) : (finish s).cfg = s.cfg := by
  by_cases h : s.si ≠ s.slen ∨ s.tcap < s.ti
  · simp [finish_overflow h]
  · simp [finish_done (s := s) (by omega) (by omega)]

@[simp] theorem resetBlock_cfg (s : State) : (resetBlock s).cfg = s.cfg := rfl

/-- An instruction of the scan, with the end of ISSUE after an end-of-buffer action, keeps the parameters. -/
theorem settle_exec_cfg {i : Instr} (hi : Instr.isScan i = true) {s t : State} (h : settle i (exec i s) = .next t) :
    t.cfg = s.cfg := by
  obtain ⟨u, hu, rfl⟩ := settle_eq_next h
  have hcfg : u.cfg = s.cfg := (exec_untouched hi hu).cfg_eq
  split
  · rw [finish_cfg, hcfg]
  · exact hcfg

theorem step_cfg {s t : State} (h : step s = .next t) : t.cfg = s.cfg := by
  cases step_cases h with
  | engine u i hu _ hf he => rw [settle_exec_cfg (fetch_isScan hf) he, hu.cfg_eq]
  | idle hu _ => exact hu.cfg_eq
  | command c rest _ ht => rw [ht, writeCmd_cfg]
  | writeSlen n rest _ _ _ ht => rw [ht]
  | writeTcap n rest _ _ _ ht => rw [ht]
  | writeSrc i b rest _ _ _ ht => rw [ht]
  | writeTgt i b rest _ _ _ ht => rw [ht]
  | read v d rest _ ht => rw [ht]
  | reset rest _ ht => rw [ht, resetBlock_cfg]

/-- Settles O46, by the cases of a step. -/
theorem parametersNeverChange : Obligations.ParametersNeverChange := fun _ _ => step_cfg

end Sys2Proof.Machine
end

section
/-! What a fetched instruction says of the source (spec/30_encoding.md R62, R63, R65): its own bytes stand at SI, below SLEN. -/

namespace Sys2Proof.Machine

theorem escapeAt_eq_some {bs rest : List Byte} {h g : Byte} (he : escapeAt bs = some (h, g, rest)) :
    bs = bEsc :: h :: g :: rest ∧ tdec h ≠ 0#8 ∧ tdec g ≠ 0#8 := by
  unfold escapeAt at he
  split at he
  · split at he
    · rename_i hc
      cases he
      exact ⟨by rw [hc.1], hc.2⟩
    · cases he
  · cases he

theorem terminatorAt_eq_some {bs rest : List Byte} {e : Term} (he : terminatorAt bs = some (e, rest)) :
    bs = termBytes e ++ rest := by
  unfold terminatorAt at he
  repeat' split at he
  all_goals cases he <;> simp_all [termBytes]

theorem terminatorAt_eq_none {b : Byte} {rest : List Byte} (he : terminatorAt (b :: rest) = none) : b ≠ bCr ∧ b ≠ bLf := by
  simp only [terminatorAt] at he
  refine ⟨fun hb => ?_, fun hb => ?_⟩ <;> subst hb
  · cases rest with
    | nil => simp at he
    | cons c rest => by_cases hc : c = bLf <;> simp [hc] at he
  · rw [if_neg (show bLf ≠ bCr by decide)] at he
    simp at he

/-- The instruction's operands are in range, its context admits it, and its encoding stands before the bytes left over. -/
structure ReadsAs (ctx : Ctx) (bs : List Byte) (i : Instr) (rest : List Byte) : Prop where
  wf : i.wf = true
  admits : ctx.admits i = true
  bytes : ∃ pre, encode i = some pre ∧ bs = pre ++ rest

theorem decodeToken_readsAs (q soft : Bool) (bs : List Byte) :
    ReadsAs (.dec q soft) bs (decodeToken q soft bs).1 (decodeToken q soft bs).2 := by
  unfold decodeToken
  split
  · rename_i h g rest he
    obtain ⟨rfl, hh, hg⟩ := escapeAt_eq_some he
    exact ⟨by simp [Instr.wf, hh, hg], rfl, _, rfl, rfl⟩
  · split
    · rename_i e rest he
      have hbs := terminatorAt_eq_some he
      cases soft
      · exact ⟨rfl, rfl, _, rfl, hbs⟩
      · exact ⟨rfl, rfl, _, rfl, hbs⟩
    · rename_i hterm
      split
      · exact ⟨rfl, rfl, _, rfl, rfl⟩
      · rename_i b rest _
        obtain ⟨hcr, hlf⟩ := terminatorAt_eq_none hterm
        split
        · rename_i hu
          exact ⟨rfl, hu.1, _, rfl, by rw [hu.2]; rfl⟩
        · rename_i hu
          split
          · rename_i hl
            exact ⟨by simp [Instr.wf, hl], by simpa [Ctx.admits, ← Bool.not_eq_true, imp_iff_not_or] using hu, _, rfl, rfl⟩
          · rename_i hl
            exact ⟨by simp [Instr.wf, hl, hcr, hlf], rfl, _, rfl, rfl⟩

/-- A literal of either mode is one of standard mode, and what is none of the mode's is none of Q mode's (R88 a). -/
theorem tlit_of_litTab {q : Bool} {b : Byte} (h : litTab q b = 1#8) : tlit b = 1#8 := by
  have hr : ∀ b : Byte, tlitr b = 1#8 → tlit b = 1#8 := by decide
  cases q
  · exact h
  · exact hr b h

theorem tlitr_of_not_litTab {q : Bool} {b : Byte} (h : litTab q b ≠ 1#8) : tlitr b ≠ 1#8 := by
  have hr : ∀ b : Byte, tlitr b = 1#8 → tlit b = 1#8 := by decide
  cases q
  · exact fun hb => h (hr b hb)
  · exact h

theorem decodeClass_readsAs (q : Bool) (bs : List Byte) :
    ReadsAs (.enc q) bs (decodeClass q bs).1 (decodeClass q bs).2 := by
  unfold decodeClass
  split
  · exact ⟨rfl, rfl, _, rfl, rfl⟩
  · rename_i b rest
    split
    · rename_i hl
      exact ⟨by simpa [Instr.wf] using tlit_of_litTab hl, by simpa [Ctx.admits] using hl, _, rfl, rfl⟩
    · rename_i hl
      split
      · rename_i hc
        obtain ⟨hq, hb, hr⟩ := hc
        refine ⟨rfl, by simp [Ctx.admits, hq], _, rfl, ?_⟩
        cases rest with
        | nil => simp at hr
        | cons c rest =>
          have hcl : c = bLf := by simpa using hr
          rw [hb, hcl]; rfl
      · exact ⟨by simpa [Instr.wf] using tlitr_of_not_litTab hl, by simpa [Ctx.admits] using hl, _, rfl, rfl⟩

/-- The instruction a fetch answers reads the bytes at SI. -/
theorem fetch_readsAs {s : State} {i : Instr} (h : fetch s = .ok i) : ∃ rest, ReadsAs s.ctx (window s) i rest := by
  unfold fetch at h
  unfold State.ctx
  split at h
  · split at h <;> cases h
    · rename_i hop
      rw [if_pos hop]
      exact ⟨_, decodeClass_readsAs _ _⟩
    · rename_i hop
      rw [if_neg hop]
      exact ⟨_, decodeToken_readsAs _ _ _⟩
  · cases h

/-- The bytes bs stand in SRC from SI on, below SLEN. -/
def State.SrcHas (s : State) (bs : List Byte) : Prop :=
  ∀ k (hk : k < bs.length), s.si + k < s.slen ∧ s.srcByte (s.si + k) = bs[k]

theorem srcHas_of_window {s : State} {bs rest : List Byte} (h : window s = bs ++ rest) : s.SrcHas bs := by
  intro k hk
  have hlen : (window s).length = bs.length + rest.length := by rw [h, List.length_append]
  have hkw : k < (window s).length := by omega
  refine ⟨?_, ?_⟩
  · rw [window_length] at hkw; omega
  · rw [← window_getElem s k hkw]
    simp [h, List.getElem_append_left hk]

theorem ReadsAs.srcHas {s : State} {i : Instr} {rest pre : List Byte} (h : ReadsAs s.ctx (window s) i rest)
    (hp : encode i = some pre) : s.SrcHas pre := by
  obtain ⟨pre', hp', hw⟩ := h.bytes
  obtain rfl : pre' = pre := Option.some.inj (hp'.symm.trans hp)
  exact srcHas_of_window hw

end Sys2Proof.Machine
end

section
/-! The fields an instruction of the scan leaves alone, one at a time. -/

namespace Sys2Proof.Machine

theorem Untouched.op_eq {s t : State} (h : Untouched s t) : t.op = s.op := by
  obtain ⟨hop, -⟩ := h
  exact hop

theorem Untouched.q_eq {s t : State} (h : Untouched s t) : t.q = s.q := by
  obtain ⟨-, hq, -⟩ := h
  exact hq

theorem Untouched.slen_eq {s t : State} (h : Untouched s t) : t.slen = s.slen := by
  obtain ⟨-, -, hslen, -⟩ := h
  exact hslen

theorem Untouched.tcap_eq {s t : State} (h : Untouched s t) : t.tcap = s.tcap := by
  obtain ⟨-, -, -, htcap, -⟩ := h
  exact htcap

theorem Untouched.status_eq {s t : State} (h : Untouched s t) : t.status = s.status := by
  obtain ⟨-, -, -, -, hstatus, -⟩ := h
  exact hstatus

theorem Untouched.wlen_eq {s t : State} (h : Untouched s t) : t.wlen = s.wlen := by
  obtain ⟨-, -, -, -, -, hwlen, -⟩ := h
  exact hwlen

theorem Untouched.src_eq {s t : State} (h : Untouched s t) : t.src = s.src ∧ t.srcEpoch = s.srcEpoch := by
  obtain ⟨-, -, -, -, -, -, hsrc, -, -, -, hepoch, -⟩ := h
  exact ⟨hsrc, hepoch⟩

end Sys2Proof.Machine
end

section
/-! The decoder's invariant (spec/41_decode.md R111, R112): what PADCHK would take out stands at the end of the output. -/

namespace Sys2Proof.Machine

/-- A byte that begins no trailing padding and no soft break: neither SP nor TAB nor `=`. -/
def isPlain (b : Byte) : Bool := !isPad b && b != bEsc

theorem isPlain_iff {b : Byte} : isPlain b = true ↔ isPad b = false ∧ b ≠ bEsc := by simp [isPlain]

theorem isPlain_of_hexDigit {b : Byte} (h : tdec b ≠ 0#8) : isPlain b = true := by
  have hx : ∀ b : Byte, tdec b ≠ 0#8 → isPlain b = true := by decide
  exact hx b h

theorem isPlain_of_illegal {b : Byte} (h : tlegal b ≠ 1#8) : isPlain b = true := by
  have hx : ∀ b : Byte, tlegal b ≠ 1#8 → isPlain b = true := by decide
  exact hx b h

theorem padSoft_succ_of_pad {rd : Nat → Byte} {n : Nat} (h : isPad (rd n) = true) : padSoft rd (n + 1) = padSoft rd n := by
  simp only [padSoft, padStart_succ_of_pad rd n h]

theorem padSoft_succ_of_not_pad {rd : Nat → Byte} {n : Nat} (h : isPad (rd n) = false) :
    padSoft rd (n + 1) = (rd n == bEsc) := by
  simp [padSoft, padStart_succ_of_not_pad rd n h]

/-- One more SP or TAB before SI is one more byte to take out. -/
theorem padTaken_succ_of_pad {s t : State} (hsi : t.si = s.si + 1) (hsrc : t.srcByte = s.srcByte)
    (hp : isPad (s.srcByte s.si) = true) : t.padTaken = s.padTaken + 1 := by
  have hle := padStart_le s.srcByte s.si
  simp only [State.padTaken, hsi, hsrc, padStart_succ_of_pad _ _ hp, padSoft_succ_of_pad hp]
  omega

/-- Right after an `=` it is the one byte to take out, and right after a plain byte there is none. -/
theorem padTaken_of_not_pad {s : State} {n : Nat} (hsi : s.si = n + 1) (hp : isPad (s.srcByte n) = false) :
    s.padTaken = if s.srcByte n = bEsc then 1 else 0 := by
  simp [State.padTaken, hsi, padStart_succ_of_not_pad _ _ hp, padSoft_succ_of_not_pad hp]

/-- After a plain byte the decoder's invariant is the bounds alone. -/
theorem decodeOk_after_plain {s : State} {n : Nat} (hcap : s.slen ≤ s.tcap) (hti : s.ti ≤ s.si) (hsi : s.si = n + 1)
    (hb : isPlain (s.srcByte n) = true) : s.DecodeOk := by
  obtain ⟨hp, he⟩ := isPlain_iff.1 hb
  have h0 : s.padTaken = 0 := by rw [padTaken_of_not_pad hsi hp, if_neg he]
  exact ⟨hcap, hti, by omega, fun k hk => by omega⟩

/-- The state D.LIT answers. -/
def State.copied (b : Byte) (s : State) : State := (s.emitted [b]).advance 1

theorem copied_si (b : Byte) (s : State) : (s.copied b).si = s.si + 1 := rfl
theorem copied_ti (b : Byte) (s : State) : (s.copied b).ti = s.ti + 1 := rfl
theorem copied_srcByte (b : Byte) (s : State) : (s.copied b).srcByte = s.srcByte := rfl
theorem copied_tgtByte_ti (b : Byte) (s : State) : (s.copied b).tgtByte s.ti = b := emitted_new [b] s 0 (by simp)

theorem copied_tgtByte_of_lt {b : Byte} {s : State} {i : Nat} (h : i < s.ti) : (s.copied b).tgtByte i = s.tgtByte i :=
  emitted_old [b] s i h

/-- Copying the byte at SI keeps the decoder's invariant: SP and TAB lengthen the run, `=` begins one, any other byte ends it. -/
theorem copied_decodeOk {s : State} {b : Byte} (h : s.DecodeOk) (hb : s.srcByte s.si = b) : (s.copied b).DecodeOk := by
  obtain ⟨hcap, hti, hpad, hsame⟩ := h
  have hcur : (s.copied b).tgtByte s.ti = s.srcByte s.si := by rw [copied_tgtByte_ti, hb]
  refine ⟨hcap, by rw [copied_ti, copied_si]; omega, ?_⟩
  rw [copied_srcByte, copied_ti, copied_si]
  by_cases hp : isPad (s.srcByte s.si) = true
  · rw [padTaken_succ_of_pad (copied_si b s) (copied_srcByte b s) hp]
    refine ⟨by omega, fun k hk => ?_⟩
    cases k with
    | zero => exact hcur
    | succ k =>
      rw [show s.ti + 1 - 1 - (k + 1) = s.ti - 1 - k by omega, show s.si + 1 - 1 - (k + 1) = s.si - 1 - k by omega,
        copied_tgtByte_of_lt (by omega)]
      exact hsame k (by omega)
  · rw [padTaken_of_not_pad (copied_si b s) (by simpa [copied_srcByte] using hp)]
    have hone : (if (s.copied b).srcByte s.si = bEsc then 1 else 0) ≤ 1 := by split <;> omega
    refine ⟨by omega, fun k hk => ?_⟩
    obtain rfl : k = 0 := by omega
    exact hcur

/-- The last byte of a line terminator is plain. -/
theorem plain_at_end_of_term {s : State} {e : Term} (h : s.SrcHas (termBytes e)) :
    s.si + termSize e ≤ s.slen ∧ isPlain (s.srcByte (s.si + termSize e - 1)) = true := by
  cases e with
  | crlf =>
    obtain ⟨hlt, hb⟩ := h 1 (by simp [termBytes])
    exact ⟨hlt, by rw [show s.si + termSize .crlf - 1 = s.si + 1 from rfl, hb]; decide⟩
  | cr =>
    obtain ⟨hlt, hb⟩ := h 0 (by simp [termBytes])
    exact ⟨hlt, by rw [show s.si + termSize .cr - 1 = s.si + 0 from rfl, hb]; decide⟩
  | lf =>
    obtain ⟨hlt, hb⟩ := h 0 (by simp [termBytes])
    exact ⟨hlt, by rw [show s.si + termSize .lf - 1 = s.si + 0 from rfl, hb]; decide⟩

theorem termBytes_length (e : Term) : (termBytes e).length = termSize e := by cases e <;> rfl

theorem termSize_pos (e : Term) : 0 < termSize e := by cases e <;> decide

/-- A token's step keeps the decoder's invariant and SI within SLEN. -/
theorem exec_keeps_decodeOk {s t : State} {i : Instr} (hok : s.DecodeOk) (hop : s.op = false) (hf : fetch s = .ok i)
    (hi : i ≠ .dEob) (he : exec i s = .next t) : t.si ≤ t.slen ∧ t.DecodeOk := by
  obtain ⟨rest, hread⟩ := fetch_readsAs hf
  have hwf := hread.wf
  have hadm := hread.admits
  rw [State.ctx, hop, if_neg (by simp)] at hadm
  have ⟨hcap, hti, _, _⟩ := hok
  cases i
  case dEsc h g =>
    obtain ⟨-, hg⟩ : tdec h ≠ 0#8 ∧ tdec g ≠ 0#8 := by simpa [Instr.wf] using hwf
    obtain ⟨hlt, hb⟩ := hread.srcHas rfl 2 (by simp)
    obtain ⟨-, rfl⟩ := exec_dEsc_next.1 he
    refine ⟨hlt, decodeOk_after_plain (n := s.si + 2) hcap ?_ rfl (hb ▸ isPlain_of_hexDigit hg)⟩
    show s.ti + 1 ≤ s.si + 3; omega
  case dSoft e =>
    obtain ⟨hlt, hb⟩ := plain_at_end_of_term (hread.srcHas rfl)
    have hpos := termSize_pos e
    obtain ⟨-, rfl⟩ := exec_dSoft_next.1 he
    refine ⟨hlt, decodeOk_after_plain (n := s.si + termSize e - 1) hcap ?_ ?_ hb⟩
    · simp only [State.advance_ti, State.advance_si, padded_here_ti, padded_si, State.loadRw_si]; omega
    · simp only [State.advance_si, padded_si, State.loadRw_si]; omega
  case dHard e =>
    obtain ⟨hlt, hb⟩ := plain_at_end_of_term (hread.srcHas rfl)
    have hpos := termSize_pos e
    obtain ⟨-, -, rfl⟩ := exec_dHard_next.1 he
    refine ⟨hlt, decodeOk_after_plain (n := s.si + termSize e - 1) hcap ?_ ?_ hb⟩
    · simp only [State.advance_ti, State.advance_si, emitted_ti, emitted_si, padded_here_ti, padded_si, State.loadRw_si,
        termBytes_length]
      omega
    · simp only [State.advance_si, emitted_si, padded_si, State.loadRw_si]; omega
  case dUsc =>
    obtain ⟨hlt, hb⟩ := hread.srcHas rfl 0 (by simp)
    obtain ⟨-, rfl⟩ := exec_dUsc_next.1 he
    refine ⟨hlt, decodeOk_after_plain (n := s.si) hcap ?_ rfl ((congrArg isPlain hb).trans (by decide))⟩
    exact Nat.succ_le_succ hti
  case dLit b =>
    obtain ⟨hlt, hb⟩ := hread.srcHas rfl 0 (by simp)
    obtain ⟨-, rfl⟩ := exec_dLit_next.1 he
    exact ⟨hlt, copied_decodeOk hok hb⟩
  case dDrop b =>
    obtain ⟨⟨hill, -⟩, -⟩ : (tlegal b ≠ 1#8 ∧ b ≠ bCr) ∧ b ≠ bLf := by simpa [Instr.wf] using hwf
    obtain ⟨hlt, hb⟩ := hread.srcHas rfl 0 (by simp)
    rw [exec_dDrop] at he
    cases he
    refine ⟨hlt, decodeOk_after_plain (n := s.si) hcap ?_ rfl ((congrArg isPlain hb).trans (isPlain_of_illegal hill))⟩
    show s.ti ≤ s.si + 1; omega
  case dEob => exact absurd rfl hi
  all_goals exact absurd hadm (by simp [Ctx.admits])

end Sys2Proof.Machine
end

section
/-! The encoder's invariant (spec/42_encode.md R140, R151): each source byte pays for at most three bytes of output, and each soft
break for itself, because it closes a line of at least 25 source bytes. -/

namespace Sys2Proof.Machine

/-- After n source bytes and b soft breaks, with the current line's content beginning at source index c, a TI and a LINE are within
what those pay for (R151). -/
structure Budget (q : Bool) (ti line n b c : Nat) : Prop where
  lineStart : c ≤ n
  breaks : 25 * b ≤ c
  output : ti ≤ 3 * n + 3 * b
  qNoBreak : q = true → b = 0
  line : q = false → line ≤ 75 ∧ line ≤ 3 * (n - c)

/-- The state's TI and LINE are within the budget. -/
def State.InBudget (s : State) (n b c : Nat) : Prop := Budget s.q s.ti s.line n b c

/-- A soft break before k bytes, k at most 3, closes a line that source bytes have paid for, and leaves room on the new line. -/
theorem State.InBudget.softBrk {s u : State} {n b c k : Nat} (h : s.InBudget n b c) (hk : k ≤ 3) (hs : softBrk k s = .ok u) :
    ∃ b' c', u.InBudget n b' c' ∧ (u.q = false → u.line + k ≤ 75) := by
  rcases softBrk_cases hs with ⟨hno, rfl⟩ | ⟨⟨hq, hfull⟩, -, rfl⟩
  · exact ⟨b, c, h, fun hq => by
      have hl : ¬ lineLimit ≤ u.line + k := fun hl => hno ⟨hq, hl⟩
      simp only [lineLimit] at hl
      omega⟩
  · obtain ⟨-, hline⟩ := h.line hq
    have hstart := h.lineStart
    have hbreaks := h.breaks
    have hout := h.output
    simp only [lineLimit] at hfull
    refine ⟨b + 1, n, ⟨le_rfl, by omega, ?_, ?_, ?_⟩, fun _ => by show 0 + k ≤ 75; omega⟩
    · show s.ti + 3 ≤ 3 * n + 3 * (b + 1); omega
    · simp [hq]
    · simp

/-- Appending at most three bytes that fit the line, for one source byte. -/
theorem State.InBudget.append {u : State} {n b c : Nat} {bs : List Byte} (h : u.InBudget n b c) (hbs : bs.length ≤ 3)
    (hfit : u.q = false → u.line + bs.length ≤ 75) :
    State.InBudget ((u.emitted bs).setLine (u.line + bs.length)) (n + 1) b c where
  lineStart := Nat.le_succ_of_le h.lineStart
  breaks := h.breaks
  output := by
    have := h.output
    show u.ti + bs.length ≤ 3 * (n + 1) + 3 * b
    omega
  qNoBreak := h.qNoBreak
  line hq := by
    obtain ⟨-, hline⟩ := h.line hq
    have := hfit hq
    have := h.lineStart
    show u.line + bs.length ≤ 75 ∧ u.line + bs.length ≤ 3 * (n + 1 - c)
    omega

/-- SYMBOL(v) is SOFTBRK(3) and the symbol's bytes. -/
theorem symbolOp_next {v : Byte} {s t : State} (h : symbolOp v s = .ok t) :
    ∃ u, softBrk 3 s = .ok u ∧ t = u.symboled v := by
  obtain ⟨u, hu, he⟩ := except_bind_ok_iff.1 h
  exact ⟨u, hu, (emit_map_ok_iff.1 he).2⟩

/-- A symbol pays for itself and its soft break with one source byte. -/
theorem State.InBudget.symbolOp {s t : State} {n b c : Nat} {v : Byte} (h : s.InBudget n b c) (hs : symbolOp v s = .ok t) :
    ∃ b' c', c' ≤ n ∧ t.InBudget (n + 1) b' c' := by
  obtain ⟨u, hu, rfl⟩ := symbolOp_next hs
  obtain ⟨b', c', hb, hfit⟩ := h.softBrk le_rfl hu
  exact ⟨b', c', hb.lineStart, hb.append (bs := symbolBytes v) le_rfl hfit⟩

/-- A SP or TAB that stands last was the literal of the byte just before SI: taking it back leaves a budget for the bytes before
that one. -/
def State.PadIsLiteral (s : State) (b c : Nat) : Prop :=
  s.flushes → s.q = false ∧ c < s.si ∧ 1 ≤ s.line ∧ s.takeBack.InBudget (s.si - 1) b c

/-- The encoder's invariant as a budget. -/
theorem encodeOk_iff (s : State) : s.EncodeOk ↔ etl s.slen ≤ s.tcap ∧
    ∃ b c, s.InBudget s.si b c ∧ (0 < b → c < s.si) ∧ s.PadIsLiteral b c := by
  refine and_congr_right fun _ => exists_congr fun b => exists_congr fun c => ?_
  constructor
  · rintro ⟨hstart, hbreaks, hcontent, hout, hqb, hline, hpad⟩
    refine ⟨⟨hstart, hbreaks, hout, hqb, hline⟩, hcontent, fun hf => ?_⟩
    obtain ⟨hq, hc, hl, hl', ht⟩ := hpad hf.1 hf.2
    obtain ⟨h75, -⟩ := hline hq
    exact ⟨hq, hc, hl, by omega, hbreaks, ht, hqb, fun _ => ⟨(Nat.sub_le _ _).trans h75, hl'⟩⟩
  · rintro ⟨h, hcontent, hpad⟩
    refine ⟨h.lineStart, h.breaks, hcontent, h.output, h.qNoBreak, h.line, fun h0 hp => ?_⟩
    obtain ⟨hq, hc, hl, hb⟩ := hpad ⟨h0, hp⟩
    exact ⟨hq, hc, hl, (hb.line hq).2, hb.output⟩

/-- FLUSHWS does not fire after a byte that is neither SP nor TAB (R137). -/
theorem not_flushes_of_last {s : State} (h : isPad (s.tgtByte (s.ti - 1)) = false) : ¬ s.flushes := by
  rintro ⟨-, hp⟩
  simp [h] at hp

/-- The last of the bytes `emit` wrote. -/
theorem emitted_last {bs : List Byte} {s : State} (h : bs ≠ []) :
    (s.emitted bs).tgtByte ((s.emitted bs).ti - 1) = bs.getLast h := by
  have hpos := List.length_pos_of_ne_nil h
  rw [emitted_ti, show s.ti + bs.length - 1 = s.ti + (bs.length - 1) by omega, emitted_new _ _ _ (by omega),
    List.getLast_eq_getElem]

/-- A symbol's last byte is a hex digit, no padding. -/
theorem symbolOp_not_flushes {v : Byte} {s t : State} (h : symbolOp v s = .ok t) : ¬ t.flushes := by
  obtain ⟨u, -, rfl⟩ := symbolOp_next h
  have hdigit : ∀ v : Byte, isPad ((symbolBytes v).getLast (by simp [symbolBytes])) = false := by decide
  exact not_flushes_of_last ((congrArg isPad (emitted_last (by simp [symbolBytes]))).trans (hdigit v))

/-- FLUSHWS leaves a budget at SI: what it takes back pays for the symbol and its break. -/
theorem flushWs_budget {s t : State} {b c : Nat} (hb : s.InBudget s.si b c) (hpad : s.PadIsLiteral b c)
    (h : flushWs s = .ok t) : ∃ b' c', t.InBudget s.si b' c' := by
  rcases flushWs_cases h with ⟨-, rfl⟩ | ⟨hf, -, hsym⟩
  · exact ⟨b, c, hb⟩
  · obtain ⟨-, hsi, -, hback⟩ := hpad hf
    obtain ⟨b', c', -, hb'⟩ := hback.symbolOp hsym
    exact ⟨b', c', by rwa [Nat.sub_add_cancel (by omega)] at hb'⟩

/-- An encoder state whose last output byte is no SP or TAB. -/
theorem encodeOk_of_budget {s : State} {b c : Nat} (hcap : etl s.slen ≤ s.tcap) (hb : s.InBudget s.si b c) (hc : c < s.si)
    (hf : ¬ s.flushes) : s.EncodeOk :=
  (encodeOk_iff s).2 ⟨hcap, b, c, hb, fun _ => hc, fun h => absurd h hf⟩

/-- No literal of Q mode is SP or TAB (R88 f). -/
theorem standard_of_pad_literal {q : Bool} {b : Byte} (hl : litTab q b = 1#8) (hp : isPad b = true) : q = false := by
  have hr : ∀ b : Byte, isPad b = true → tlitr b ≠ 1#8 := by decide
  cases q
  · rfl
  · exact absurd hl (hr b hp)

theorem softBrk_si {k : Nat} {s t : State} (h : softBrk k s = .ok t) : t.si = s.si := by
  rcases softBrk_cases h with ⟨-, rfl⟩ | ⟨-, -, rfl⟩ <;> rfl

theorem symbolOp_si {v : Byte} {s t : State} (h : symbolOp v s = .ok t) : t.si = s.si := by
  obtain ⟨u, hu, rfl⟩ := symbolOp_next h
  exact (softBrk_si hu : u.si = s.si)

theorem flushWs_si {s t : State} (h : flushWs s = .ok t) : t.si = s.si := by
  rcases flushWs_cases h with ⟨-, rfl⟩ | ⟨-, -, hsym⟩
  · rfl
  · simpa using symbolOp_si hsym

/-- A class's step keeps the encoder's invariant and SI within SLEN. -/
theorem exec_keeps_encodeOk {s t : State} {i : Instr} (hok : s.EncodeOk) (hop : s.op = true) (hf : fetch s = .ok i)
    (hi : i ≠ .eEob) (he : exec i s = .next t) : t.si ≤ t.slen ∧ t.EncodeOk := by
  obtain ⟨rest, hread⟩ := fetch_readsAs hf
  have hadm := hread.admits
  rw [State.ctx, if_pos hop] at hadm
  have hu := exec_untouched (fetch_isScan hf) he
  obtain ⟨hcap, b, c, hb, -, hpad⟩ := (encodeOk_iff s).1 hok
  rw [← hu.slen_eq, ← hu.tcap_eq] at hcap
  rw [hu.slen_eq]
  cases i
  case eLit v =>
    have hlit : litTab s.q v = 1#8 := by simpa [Ctx.admits] using hadm
    obtain ⟨hlt, -⟩ := hread.srcHas rfl 0 (by simp)
    obtain ⟨u, hbrk, -, rfl⟩ := exec_eLit_next.1 he
    obtain ⟨b', c', hb', hfit⟩ := hb.softBrk (by omega) hbrk
    have hsi := softBrk_si hbrk
    rw [← hsi] at hb' hlt
    refine ⟨hlt, (encodeOk_iff _).2 ⟨hcap, b', c', hb'.append (bs := [v]) (by simp) hfit, ?_, fun hfl => ?_⟩⟩
    · exact fun _ => Nat.lt_succ_of_le hb'.lineStart
    · have hlast : isPad v = true := (congrArg isPad (emitted_last (s := u) (bs := [v]) (by simp))).symm.trans hfl.2
      exact ⟨(softBrk_untouched hbrk).q_eq.trans (standard_of_pad_literal hlit hlast),
        Nat.lt_succ_of_le hb'.lineStart, Nat.succ_pos _, hb'⟩
  case eCrlf =>
    obtain ⟨hlt, -⟩ := hread.srcHas rfl 1 (by simp)
    obtain ⟨u, hflush, -, rfl⟩ := exec_eCrlf_next.1 he
    obtain ⟨b', c', hb'⟩ := flushWs_budget hb hpad hflush
    have hsi := flushWs_si hflush
    have hstart := hb'.lineStart
    have hout := hb'.output
    refine ⟨?_, encodeOk_of_budget hcap (b := b') (c := c') ⟨?_, hb'.breaks, ?_, hb'.qNoBreak, ?_⟩ ?_ ?_⟩
    · show u.si + 2 ≤ s.slen; omega
    · show c' ≤ u.si + 2; omega
    · show u.ti + 2 ≤ 3 * (u.si + 2) + 3 * b'; omega
    · exact fun _ => ⟨Nat.zero_le _, Nat.zero_le _⟩
    · show c' < u.si + 2; omega
    · exact not_flushes_of_last ((congrArg isPad (emitted_last (s := u) (bs := hardBreakBytes) (by simp [hardBreakBytes]))).trans
        (by decide))
  case eSym v =>
    obtain ⟨hlt, -⟩ := hread.srcHas rfl 0 (by simp)
    obtain ⟨u, hsym, rfl⟩ := exec_eSym_next.1 he
    obtain ⟨b', c', hc', hb'⟩ := hb.symbolOp hsym
    have hsi := symbolOp_si hsym
    rw [← hsi] at hb' hc' hlt
    exact ⟨hlt, encodeOk_of_budget hcap hb' (Nat.lt_succ_of_le hc')
      (show ¬ u.flushes from symbolOp_not_flushes hsym)⟩
  case eEob => exact absurd rfl hi
  all_goals exact absurd hadm (by simp [Ctx.admits])

end Sys2Proof.Machine
end

section
/-! An invariant over every step, from what it needs of each kind of step. -/

namespace Sys2Proof.Machine

/-- P survives each kind of step: what the host does to its own fields, the engine's instruction, a command's issue, a host write
in range and a reset. -/
structure KeptByEachMove (P : State → Prop) : Prop where
  host : ∀ {s : State} (rest : List HostOp), P s → P { s with host := rest }
  read : ∀ {s : State} (v d : Nat), P s → P { s with rdata := v, draws := d }
  engine : ∀ {s t : State} {i : Instr}, P s → s.busy = true → fetch s = .ok i → settle i (exec i s) = .next t → P t
  issue : ∀ {s : State} (c : Byte), P s → s.busy = false → P (issue c s)
  writeSlen : ∀ {s : State} {n : Nat}, P s → s.busy = false → n < 2 ^ s.cfg.idxW → P { s with slen := n }
  writeTcap : ∀ {s : State} {n : Nat}, P s → s.busy = false → n < 2 ^ s.cfg.idxW → P { s with tcap := n }
  writeSrc : ∀ {s : State} {i : Nat} (b : Byte), P s → s.busy = false → i < s.cfg.srcCap →
    P { s with src := Memory.write s.src i b }
  writeTgt : ∀ {s : State} {i : Nat} (b : Byte), P s → s.busy = false → i < s.cfg.tgtCap →
    P { s with tgt := Memory.write s.tgt i b }
  reset : ∀ {s : State}, P s → P (resetBlock s)

theorem KeptByEachMove.hostLeft {P : State → Prop} (h : KeptByEachMove P) {s u : State} (hu : HostLeft s u) (hs : P s) : P u := by
  obtain rfl | ⟨_, rest, -, rfl⟩ := hu
  · exact hs
  · exact h.host rest hs

theorem KeptByEachMove.writeCmd {P : State → Prop} (h : KeptByEachMove P) {s : State} (c : Byte) (hs : P s) :
    P (writeCmd c s) := by
  cases hb : s.busy with
  | true => rwa [writeCmd_busy hb]
  | false => rw [writeCmd_idle hb]; exact h.issue c hs hb

/-- What every kind of step keeps, every step keeps. -/
theorem KeptByEachMove.step {P : State → Prop} (h : KeptByEachMove P) {s t : State} (hs : P s)
    (hst : step s = .next t) : P t := by
  cases step_cases hst with
  | engine u i hu hb hf he => exact h.engine (h.hostLeft hu hs) hb hf he
  | idle hu _ => exact h.hostLeft hu hs
  | command c rest _ ht => rw [ht]; exact h.writeCmd c (h.host rest hs)
  | writeSlen n rest _ hb hn ht => rw [ht]; exact h.host rest (h.writeSlen hs hb hn)
  | writeTcap n rest _ hb hn ht => rw [ht]; exact h.host rest (h.writeTcap hs hb hn)
  | writeSrc i b rest _ hb hn ht => rw [ht]; exact h.host rest (h.writeSrc b hs hb hn)
  | writeTgt i b rest _ hb hn ht => rw [ht]; exact h.host rest (h.writeTgt b hs hb hn)
  | read v d rest _ ht => rw [ht]; exact h.host rest (h.read v d hs)
  | reset rest _ ht => rw [ht]; exact h.reset (h.host rest hs)

/-- The engine's instruction either ends the command, after an end-of-buffer action, or is a step of the scan that goes on. -/
theorem settle_exec_cases {s t : State} {i : Instr} (h : settle i (exec i s) = .next t) :
    (∃ u, exec i s = .next u ∧ t = finish u) ∨ (i ≠ .dEob ∧ i ≠ .eEob ∧ exec i s = .next t) := by
  obtain ⟨u, hu, ht⟩ := settle_eq_next h
  split at ht
  · exact .inl ⟨u, hu, ht⟩
  · rename_i hi
    exact .inr ⟨fun hd => hi (.inl hd), fun he => hi (.inr he), ht ▸ hu⟩

theorem resetBlock_not_busy (s : State) : (resetBlock s).busy = false :=
  State.not_busy_of_status (e := 0#2) (p := stIdle) rfl (by decide)

end Sys2Proof.Machine
end

section
/-! The scan invariant over every step (spec/10_state.md R12, R111, R151). -/

namespace Sys2Proof.Machine

theorem scanOk_of_not_busy {s : State} (h : s.busy = false) : s.ScanOk := fun hb => absurd hb (by simp [h])

/-- A command that starts has written nothing and read nothing. -/
theorem started_scanOk {c : Byte} {s : State} (h : Accepts c s) : (s.started c).ScanOk := by
  obtain ⟨-, hslen, htcap, hdec, henc⟩ := h
  refine fun _ => ⟨hslen, htcap, Nat.zero_le _, fun hop => ?_, fun hop => ?_⟩
  · exact ⟨hdec hop, le_rfl, le_rfl, fun k hk => absurd hk (Nat.not_lt_zero k)⟩
  · exact ⟨henc hop, 0, 0, by simp⟩

theorem issue_scanOk (c : Byte) (s : State) : (issue c s).ScanOk := by
  obtain ⟨hacc, h⟩ | ⟨-, e, -, h⟩ := issue_cases c s
  · rw [h]; exact started_scanOk hacc
  · rw [h]; exact scanOk_of_not_busy (raise_not_busy _ _)

/-- A token's or class's step keeps the invariant; the end of the command leaves BUSY. -/
theorem engine_keeps_scanOk {s t : State} {i : Instr} (hok : s.ScanOk) (hb : s.busy = true) (hf : fetch s = .ok i)
    (h : settle i (exec i s) = .next t) : t.ScanOk := by
  rcases settle_exec_cases h with ⟨u, -, rfl⟩ | ⟨hd, he, hx⟩
  · exact scanOk_of_not_busy (finish_not_busy u)
  · have hu := exec_untouched (fetch_isScan hf) hx
    obtain ⟨hslen, htcap, -, hdec, henc⟩ := hok hb
    intro _
    rw [hu.slen_eq, hu.tcap_eq, hu.cfg_eq, hu.op_eq, ← hu.slen_eq]
    refine ⟨hu.slen_eq ▸ hslen, htcap, ?_⟩
    cases hop : s.op with
    | false =>
      obtain ⟨hsi, hok'⟩ := exec_keeps_decodeOk (hdec hop) hop hf hd hx
      exact ⟨hsi, fun _ => hok', fun h => absurd h (by simp)⟩
    | true =>
      obtain ⟨hsi, hok'⟩ := exec_keeps_encodeOk (henc hop) hop hf he hx
      exact ⟨hsi, fun h => absurd h (by simp), fun _ => hok'⟩

theorem scanOk_keptByEachMove : KeptByEachMove State.ScanOk where
  host _ h := h
  read _ _ h := h
  engine := engine_keeps_scanOk
  issue c _ _ := issue_scanOk c _
  writeSlen _ hb _ := scanOk_of_not_busy hb
  writeTcap _ hb _ := scanOk_of_not_busy hb
  writeSrc _ _ hb _ := scanOk_of_not_busy hb
  writeTgt _ _ hb _ := scanOk_of_not_busy hb
  reset _ := scanOk_of_not_busy (resetBlock_not_busy _)

/-- Settles O40: the scan invariant survives each kind of step. -/
theorem everyStepKeepsTheScanInvariant : Obligations.EveryStepKeepsTheScanInvariant :=
  fun _ _ => scanOk_keptByEachMove.step

end Sys2Proof.Machine
end

section
/-! STATUS stays legal (spec/10_state.md R21). -/

namespace Sys2Proof.Machine

theorem State.StatusOk.congr {s t : State} (h : s.StatusOk) (hst : t.status = s.status) : t.StatusOk := by
  simpa only [State.StatusOk, State.err, State.phase, hst] using h

theorem statusOk_of_word {s : State} {e p : BitVec 2} (h : s.status = statusWord e p) (hep : e ≠ 0#2 ↔ p = stError) :
    s.StatusOk := by
  simpa [State.StatusOk, State.err, State.phase, h] using hep

theorem raise_statusOk (e : QpError) (s : State) : (s.raise e).StatusOk :=
  statusOk_of_word (State.raise_status s e) (by cases e <;> decide)

/-- A legal STATUS of a command in progress has no error. -/
theorem err_zero_of_busy {s : State} (h : s.StatusOk) (hb : s.busy = true) : s.err = 0#2 := by
  obtain ⟨-, herr⟩ := h
  by_contra hne
  exact absurd (((State.busy_iff s).1 hb).symm.trans (herr.1 hne)) (by decide)

theorem finish_statusOk {s : State} (h : s.StatusOk) (hb : s.busy = true) : (finish s).StatusOk := by
  by_cases hc : s.si ≠ s.slen ∨ s.tcap < s.ti
  · rw [finish_overflow hc]; exact raise_statusOk _ _
  · rw [finish_done (by omega) (by omega)]
    have herr : s.publish.err = 0#2 := err_zero_of_busy h hb
    exact statusOk_of_word (e := 0#2) (p := stDone) (by simp [herr]) (by decide)

theorem issue_statusOk (c : Byte) (s : State) : (issue c s).StatusOk := by
  obtain ⟨-, h⟩ | ⟨-, e, -, h⟩ := issue_cases c s
  · rw [h]; exact statusOk_of_word (started_status c s) (by decide)
  · rw [h]; exact raise_statusOk _ _

theorem engine_keeps_statusOk {s t : State} {i : Instr} (hok : s.StatusOk) (hb : s.busy = true) (hf : fetch s = .ok i)
    (h : settle i (exec i s) = .next t) : t.StatusOk := by
  rcases settle_exec_cases h with ⟨u, hx, rfl⟩ | ⟨-, -, hx⟩
  · have hu := exec_untouched (fetch_isScan hf) hx
    exact finish_statusOk (hok.congr hu.status_eq) (hu.busy.trans hb)
  · exact hok.congr (exec_untouched (fetch_isScan hf) hx).status_eq

theorem statusOk_keptByEachMove : KeptByEachMove State.StatusOk where
  host _ h := h
  read _ _ h := h
  engine := engine_keeps_statusOk
  issue c _ _ := issue_statusOk c _
  writeSlen h _ _ := h
  writeTcap h _ _ := h
  writeSrc _ h _ _ := h
  writeTgt _ h _ _ := h
  reset _ := statusOk_of_word (e := 0#2) (p := stIdle) rfl (by decide)

/-- Settles O37: a legal STATUS survives each kind of step. -/
theorem everyStepKeepsStatusLegal : Obligations.EveryStepKeepsStatusLegal :=
  fun _ _ => statusOk_keptByEachMove.step

end Sys2Proof.Machine
end

section
/-! The memories stay canonical (spec/10_state.md R24, R25): the engine writes TGT only where it has the indices. -/

namespace Sys2Proof.Machine

/-- TGT is canonical and lists only indices it has. -/
def State.TgtOk (s : State) : Prop := Memory.wf s.tgt ∧ Memory.below s.tgt s.cfg.tgtCap

theorem emitted_tgtOk {bs : List Byte} {s : State} (h : s.TgtOk) (hr : s.ti + bs.length ≤ s.cfg.tgtCap) : (s.emitted bs).TgtOk :=
  ⟨Memory.writeAll_wf h.1 _ _, Memory.writeAll_below h.2 bs hr⟩

theorem softBrk_tgtOk {k : Nat} {s t : State} (h : s.TgtOk) (hs : softBrk k s = .ok t) : t.TgtOk := by
  rcases softBrk_cases hs with ⟨-, rfl⟩ | ⟨-, hr, rfl⟩
  · exact h
  · exact emitted_tgtOk h hr

theorem symbolOp_tgtOk {v : Byte} {s t : State} (h : s.TgtOk) (hs : symbolOp v s = .ok t) : t.TgtOk := by
  obtain ⟨u, hu, he⟩ := except_bind_ok_iff.1 hs
  obtain ⟨hr, rfl⟩ := emit_map_ok_iff.1 he
  exact emitted_tgtOk (softBrk_tgtOk h hu) hr

theorem flushWs_tgtOk {s t : State} (h : s.TgtOk) (hs : flushWs s = .ok t) : t.TgtOk := by
  rcases flushWs_cases hs with ⟨-, rfl⟩ | ⟨-, -, hsym⟩
  · exact h
  · exact symbolOp_tgtOk (s := s.takeBack) h hsym

theorem exec_tgtOk {i : Instr} (hi : Instr.isScan i = true) {s t : State} (h : s.TgtOk) (hx : exec i s = .next t) : t.TgtOk := by
  cases i with
  | dec => cases hi
  | enc => cases hi
  | decq => cases hi
  | encq => cases hi
  | dEsc a b => obtain ⟨hr, rfl⟩ := exec_dEsc_next.1 hx; exact emitted_tgtOk h hr
  | dSoft e => obtain ⟨-, rfl⟩ := exec_dSoft_next.1 hx; exact h
  | dHard e => obtain ⟨-, hr, rfl⟩ := exec_dHard_next.1 hx; exact emitted_tgtOk (s := s.loadRw.padded) h hr
  | dUsc => obtain ⟨hr, rfl⟩ := exec_dUsc_next.1 hx; exact emitted_tgtOk h hr
  | dLit b => obtain ⟨hr, rfl⟩ := exec_dLit_next.1 hx; exact emitted_tgtOk h hr
  | dDrop b => rw [exec_dDrop] at hx; cases hx; exact h
  | dEob => rcases exec_dEob_next hx with ⟨-, rfl⟩ | ⟨-, -, rfl⟩ <;> exact h
  | padchk => obtain ⟨-, rfl⟩ := exec_padchk_next.1 hx; exact h
  | eLit b => obtain ⟨u, hu, hr, rfl⟩ := exec_eLit_next.1 hx; exact emitted_tgtOk (softBrk_tgtOk h hu) hr
  | eCrlf => obtain ⟨u, hu, hr, rfl⟩ := exec_eCrlf_next.1 hx; exact emitted_tgtOk (flushWs_tgtOk h hu) hr
  | eSym v => obtain ⟨u, hu, rfl⟩ := exec_eSym_next.1 hx; exact (symbolOp_tgtOk h hu : u.TgtOk)
  | eEob => exact flushWs_tgtOk h (exec_eEob_next.1 hx)
  | softbrk k => exact softBrk_tgtOk h (exec_softbrk_next.1 hx)
  | symbol v => exact symbolOp_tgtOk h (exec_symbol_next.1 hx)
  | flushws => exact flushWs_tgtOk h (exec_flushws_next.1 hx)

theorem memOk_iff (s : State) : s.MemOk ↔ (Memory.wf s.src ∧ Memory.below s.src s.cfg.srcCap) ∧ s.TgtOk := by
  unfold State.MemOk State.TgtOk
  tauto

/-- SRC as it was, and TGT as it was or emptied. -/
theorem State.MemOk.of_tgt {s t : State} (h : s.MemOk) (hsrc : t.src = s.src) (hcfg : t.cfg = s.cfg)
    (htgt : t.tgt = s.tgt ∨ t.tgt = []) : t.MemOk := by
  obtain ⟨hwf, hwf', hb, hb'⟩ := h
  unfold State.MemOk
  rw [hsrc, hcfg]
  rcases htgt with htgt | htgt <;> rw [htgt]
  · exact ⟨hwf, hwf', hb, hb'⟩
  · exact ⟨hwf, List.Pairwise.nil, hb, by simp⟩

theorem raise_tgt (e : QpError) (s : State) : (s.raise e).tgt = s.tgt ∨ (s.raise e).tgt = [] := by
  cases e
  · exact .inl rfl
  · exact .inl rfl
  · exact .inr rfl

theorem raise_memOk {s : State} (h : s.MemOk) (e : QpError) : (s.raise e).MemOk :=
  h.of_tgt (State.raise_src s e) (State.raise_cfg s e) (raise_tgt e s)

theorem finish_memOk {s : State} (h : s.MemOk) : (finish s).MemOk := by
  by_cases hc : s.si ≠ s.slen ∨ s.tcap < s.ti
  · rw [finish_overflow hc]; exact raise_memOk h _
  · rw [finish_done (by omega) (by omega)]; exact h

theorem issue_memOk {s : State} (h : s.MemOk) (c : Byte) : (issue c s).MemOk := by
  obtain ⟨-, hi⟩ | ⟨-, e, -, hi⟩ := issue_cases c s
  · rw [hi]; exact h
  · rw [hi]; exact raise_memOk (s := s.enterBusy.latch c) h e

theorem engine_keeps_memOk {s t : State} {i : Instr} (hok : s.MemOk) (hf : fetch s = .ok i)
    (h : settle i (exec i s) = .next t) : t.MemOk := by
  have hscan := fetch_isScan hf
  have hexec : ∀ {u}, exec i s = .next u → u.MemOk := fun hx => by
    have hu := exec_untouched hscan hx
    obtain ⟨hsrc, htgt⟩ := (memOk_iff s).1 hok
    rw [memOk_iff, hu.src_eq.1, hu.cfg_eq]
    exact ⟨hsrc, exec_tgtOk hscan htgt hx⟩
  rcases settle_exec_cases h with ⟨u, hx, rfl⟩ | ⟨-, -, hx⟩
  · exact finish_memOk (hexec hx)
  · exact hexec hx

theorem resetBlock_memOk (s : State) : (resetBlock s).MemOk :=
  ⟨List.Pairwise.nil, List.Pairwise.nil, by simp [resetBlock, State.resetWith], by simp [resetBlock, State.resetWith]⟩

theorem memOk_keptByEachMove : KeptByEachMove State.MemOk where
  host _ h := h
  read _ _ h := h
  engine h _ := engine_keeps_memOk h
  issue c h _ := issue_memOk h c
  writeSlen h _ _ := h
  writeTcap h _ _ := h
  writeSrc b h _ hi := by
    obtain ⟨hwf, hwf', hb, hb'⟩ := h
    exact ⟨Memory.write_wf hwf _ b, hwf', Memory.write_below hb hi b, hb'⟩
  writeTgt b h _ hi := by
    obtain ⟨hwf, hwf', hb, hb'⟩ := h
    exact ⟨hwf, Memory.write_wf hwf' _ b, hb, Memory.write_below hb' hi b⟩
  reset _ := resetBlock_memOk _

/-- Settles O38: the canonical form survives each kind of step. -/
theorem everyStepKeepsMemoriesCanonical : Obligations.EveryStepKeepsMemoriesCanonical :=
  fun _ _ => memOk_keptByEachMove.step

end Sys2Proof.Machine
end

section
/-! SLEN, TCAP and WLEN keep their width (spec/10_state.md R19, R20, R22). -/

namespace Sys2Proof.Machine

theorem fit_lt (p : Params) (n : Nat) : p.fit n < 2 ^ p.idxW := Nat.mod_lt _ (Nat.two_pow_pos _)

/-- SLEN and TCAP as they were, and a WLEN that fits. -/
theorem State.WidthOk.of_wlen {s t : State} (h : s.WidthOk) (hslen : t.slen = s.slen) (htcap : t.tcap = s.tcap)
    (hcfg : t.cfg = s.cfg) (hwlen : t.wlen < 2 ^ s.cfg.idxW) : t.WidthOk := by
  obtain ⟨hs, ht, -⟩ := h
  unfold State.WidthOk
  rw [hslen, htcap, hcfg]
  exact ⟨hs, ht, hwlen⟩

/-- An error leaves a drawn WLEN (U2, log 6). -/
theorem raise_wlen (e : QpError) (s : State) : (s.raise e).wlen = s.cfg.fit (Config.freeIdx s.draws) := by cases e <;> rfl

theorem raise_widthOk {s : State} (h : s.WidthOk) (e : QpError) : (s.raise e).WidthOk :=
  h.of_wlen (State.raise_slen s e) (State.raise_tcap s e) (State.raise_cfg s e) (raise_wlen e s ▸ fit_lt _ _)

/-- The WLEN of a command that ends in DONE is a TI at most TCAP. -/
theorem finish_widthOk {s : State} (h : s.WidthOk) : (finish s).WidthOk := by
  by_cases hc : s.si ≠ s.slen ∨ s.tcap < s.ti
  · rw [finish_overflow hc]; exact raise_widthOk h _
  · have hti : s.ti ≤ s.tcap := by omega
    rw [finish_done (by omega) hti]
    have ⟨_, htcap, _⟩ := h
    exact h.of_wlen rfl rfl rfl (hti.trans_lt htcap)

theorem enterBusy_widthOk {s : State} (h : s.WidthOk) : s.enterBusy.WidthOk :=
  h.of_wlen rfl rfl rfl (fit_lt _ _)

theorem issue_widthOk {s : State} (h : s.WidthOk) (c : Byte) : (issue c s).WidthOk := by
  obtain ⟨-, hi⟩ | ⟨-, e, -, hi⟩ := issue_cases c s
  · rw [hi]; exact enterBusy_widthOk h
  · rw [hi]; exact raise_widthOk (s := s.enterBusy.latch c) (enterBusy_widthOk h) e

theorem engine_keeps_widthOk {s t : State} {i : Instr} (hok : s.WidthOk) (hf : fetch s = .ok i)
    (h : settle i (exec i s) = .next t) : t.WidthOk := by
  have ⟨_, _, hwlen⟩ := hok
  have hexec : ∀ {u}, exec i s = .next u → u.WidthOk := fun hx =>
    have hu := exec_untouched (fetch_isScan hf) hx
    hok.of_wlen hu.slen_eq hu.tcap_eq hu.cfg_eq (hu.wlen_eq ▸ hwlen)
  rcases settle_exec_cases h with ⟨u, hx, rfl⟩ | ⟨-, -, hx⟩
  · exact finish_widthOk (hexec hx)
  · exact hexec hx

theorem resetBlock_widthOk (s : State) : (resetBlock s).WidthOk :=
  ⟨Nat.two_pow_pos _, Nat.two_pow_pos _, Nat.two_pow_pos _⟩

theorem widthOk_keptByEachMove : KeptByEachMove State.WidthOk where
  host _ h := h
  read _ _ h := h
  engine h _ := engine_keeps_widthOk h
  issue c h _ := issue_widthOk h c
  writeSlen h _ hn := ⟨hn, h.2⟩
  writeTcap h _ hn := ⟨h.1, hn, h.2.2⟩
  writeSrc _ h _ _ := h
  writeTgt _ h _ _ := h
  reset _ := resetBlock_widthOk _

/-- Settles O39: the widths survive each kind of step. -/
theorem everyStepKeepsRegistersInWidth : Obligations.EveryStepKeepsRegistersInWidth :=
  fun _ _ => widthOk_keptByEachMove.step

end Sys2Proof.Machine
end

section
/-! Reset meets the invariants (spec/10_state.md R30): no command is in progress, both memories are empty, every register is 0. -/

namespace Sys2Proof.Machine

theorem resetWith_not_busy (p : Params) : (State.resetWith p).busy = false :=
  State.not_busy_of_status (e := 0#2) (p := stIdle) rfl (by decide)

/-- Settles O42. -/
theorem resetMeetsTheInvariants : Obligations.ResetMeetsTheInvariants := fun p => by
  have hidle := resetWith_not_busy p
  obtain ⟨hsrc, htgt⟩ := reset_memory_wf p
  refine ⟨statusOk_of_word (e := 0#2) (p := stIdle) rfl (by decide), ?_, ?_, scanOk_of_not_busy hidle, ?_⟩
  · exact ⟨hsrc, htgt, by simp [State.resetWith], by simp [State.resetWith]⟩
  · exact ⟨Nat.two_pow_pos _, Nat.two_pow_pos _, Nat.two_pow_pos _⟩
  · exact fun hb => absurd hb (by simp [hidle])

end Sys2Proof.Machine
end

section
/-! The engine's inputs (spec/10_state.md R17, R24; spec/20_memory.md R48). -/

namespace Sys2Proof.Machine

/-- SRC, SLEN and TCAP are as they were. -/
structure SameInputs (s t : State) : Prop where
  src : t.src = s.src
  srcEpoch : t.srcEpoch = s.srcEpoch
  slen : t.slen = s.slen
  tcap : t.tcap = s.tcap

theorem Untouched.sameInputs {s t : State} (h : Untouched s t) : SameInputs s t :=
  ⟨h.src_eq.1, h.src_eq.2, h.slen_eq, h.tcap_eq⟩

theorem SameInputs.trans {s t u : State} (h : SameInputs s t) (h' : SameInputs t u) : SameInputs s u :=
  ⟨h'.src.trans h.src, h'.srcEpoch.trans h.srcEpoch, h'.slen.trans h.slen, h'.tcap.trans h.tcap⟩

/-- The end of a command leaves the inputs to the host (R165, R184). -/
theorem finish_sameInputs (s : State) : SameInputs s (finish s) := by
  by_cases hc : s.si ≠ s.slen ∨ s.tcap < s.ti
  · rw [finish_overflow hc]
    exact ⟨State.raise_src _ _, State.raise_srcEpoch _ _, State.raise_slen _ _, State.raise_tcap _ _⟩
  · rw [finish_done (by omega) (by omega)]
    exact ⟨rfl, rfl, rfl, rfl⟩

/-- With nothing pending at the host a step is the engine's. -/
theorem step_of_no_host {s : State} (h : s.host = []) : step s = engineStep s := by simp only [step, turn, h]

/-- Settles O45: the scan's instructions touch neither the inputs nor OP and Q, and the end of the command leaves BUSY. -/
theorem engineNeverWritesItsInputs : Obligations.EngineNeverWritesItsInputs := by
  intro s t hh hst
  rw [step_of_no_host hh] at hst
  suffices h : SameInputs s t ∧ (t.busy = true → t.op = s.op ∧ t.q = s.q) by
    obtain ⟨⟨hsrc, hepoch, hslen, htcap⟩, hmode⟩ := h
    exact ⟨hsrc, hepoch, hslen, htcap, hmode⟩
  rcases engineStep_cases hst with ⟨-, i, hf, he⟩ | ⟨-, rfl⟩
  · rcases settle_exec_cases he with ⟨u, hx, rfl⟩ | ⟨-, -, hx⟩
    · have hu := exec_untouched (fetch_isScan hf) hx
      exact ⟨hu.sameInputs.trans (finish_sameInputs u), fun hb => absurd hb (by simp [finish_not_busy])⟩
    · have hu := exec_untouched (fetch_isScan hf) hx
      exact ⟨hu.sameInputs, fun _ => ⟨hu.op_eq, hu.q_eq⟩⟩
  · exact ⟨⟨rfl, rfl, rfl, rfl⟩, fun _ => ⟨rfl, rfl⟩⟩

end Sys2Proof.Machine
end

section
/-! Fetching reads SRC below SLEN only (spec/20_memory.md R43). -/

namespace Sys2Proof.Machine

/-- PADCHK's walk from index n reads below n only. -/
theorem padStart_congr {rd rd' : Nat → Byte} {n : Nat} (h : ∀ i, i < n → rd' i = rd i) : padStart rd' n = padStart rd n := by
  induction n with
  | zero => rfl
  | succ n ih => rw [padStart, padStart, h n (by omega), ih fun i hi => h i (by omega)]

theorem padSoft_congr {rd rd' : Nat → Byte} {n : Nat} (h : ∀ i, i < n → rd' i = rd i) : padSoft rd' n = padSoft rd n := by
  have hle := padStart_le rd n
  rw [padSoft, padSoft, padStart_congr h]
  by_cases h0 : 0 < padStart rd n
  · rw [h _ (by omega)]
  · simp [h0]

theorem window_congr {s t : State} (hsi : t.si = s.si) (hslen : t.slen = s.slen)
    (h : ∀ i, i < s.slen → t.srcByte i = s.srcByte i) : window t = window s := by
  unfold window
  rw [hsi, hslen]
  refine List.map_congr_left fun k hk => h _ ?_
  rw [List.mem_range] at hk
  omega

/-- PADCHK's answer does not matter to the end-of-buffer action. -/
theorem decodeToken_nil (q soft : Bool) : decodeToken q soft [] = (.dEob, []) := rfl

/-- Settles O16: the window and, below SLEN, PADCHK's answer at SI read no byte at or above SLEN. -/
theorem fetchReadsOnlyBelowSlen : Obligations.FetchReadsOnlyBelowSlen := by
  intro s t hsi hslen hop hq hcfg hsrc
  have htok : decodeToken s.q (padSoft t.srcByte s.si) (window s) = decodeToken s.q (padSoft s.srcByte s.si) (window s) := by
    rcases Nat.lt_or_ge s.si s.slen with hlt | hge
    · rw [padSoft_congr fun i hi => hsrc i (by omega)]
    · rw [window_nil hge, decodeToken_nil, decodeToken_nil]
  unfold fetch
  rw [window_congr hsi hslen hsrc, hsi, hop, hq, hcfg, htok]

end Sys2Proof.Machine
end

section
/-! The host's operations, one step each (spec/10_state.md R18 to R25, spec/70_reset_and_hazards.md R200, R211). -/

namespace Sys2Proof.Machine

/-- An operation of the host that is neither a wait nor the engine's turn is the whole step. -/
theorem step_of_done {s : State} {op : HostOp} {rest : List HostOp} {o : Host.Outcome State Fault Refusal}
    (hh : s.host = op :: rest) (ha : op ≠ .await) (hm : hostMove op { s with host := rest } = .done o) : step s = o := by
  simp [step, turn, hh, ha, hm]

/-- While the host waits for the command in progress, a step is the engine's. -/
theorem step_of_await {s : State} {rest : List HostOp} (hh : s.host = .await :: rest) (hb : s.busy = true) :
    step s = engineStep s := by
  simp [step, turn, hh, hb]

/-- A pause leaves the engine one step. -/
theorem step_of_pause {s : State} {rest : List HostOp} (hh : s.host = .pause :: rest) :
    step s = engineStep { s with host := rest } := by
  simp [step, turn, hh, hostMove]

theorem engineStep_of_fetch {s : State} {i : Instr} (hb : s.busy = true) (hf : fetch s = .ok i) :
    engineStep s = settle i (exec i s) := by
  simp [engineStep, hb, hf]

theorem ifOwned_idle {s : State} (h : s.busy = false) (o : Host.Outcome State Fault Refusal) : ifOwned s o = o := by
  simp [ifOwned, h]

theorem ifOwned_busy {s : State} (h : s.busy = true) (o : Host.Outcome State Fault Refusal) :
    ifOwned s o = .refused .hostWriteWhileBusy := by
  simp [ifOwned, h]

theorem ifFits_fits {s : State} {n : Nat} (h : n < 2 ^ s.cfg.idxW) (o : Host.Outcome State Fault Refusal) :
    ifFits s n o = o := if_pos h

theorem ifFits_wide {s : State} {n : Nat} (h : 2 ^ s.cfg.idxW ≤ n) (o : Host.Outcome State Fault Refusal) :
    ifFits s n o = .refused .valueTooWide := if_neg (Nat.not_lt.2 h)

/-! ### Writes -/

theorem step_writeSlen {s : State} {n : Nat} {rest : List HostOp} (hh : s.host = .writeSlen n :: rest) :
    step s = ifOwned s (ifFits s n (.next { s with host := rest, slen := n })) :=
  step_of_done hh (by simp) rfl

theorem step_writeTcap {s : State} {n : Nat} {rest : List HostOp} (hh : s.host = .writeTcap n :: rest) :
    step s = ifOwned s (ifFits s n (.next { s with host := rest, tcap := n })) :=
  step_of_done hh (by simp) rfl

theorem step_writeSrc_any {s : State} {i : Nat} {b : Byte} {rest : List HostOp} (hh : s.host = .writeSrc i b :: rest) :
    step s = ifOwned s (if i < s.cfg.srcCap then .next { s with host := rest, src := Memory.write s.src i b }
      else .fault .srcOutOfRange) :=
  step_of_done hh (by simp) rfl

theorem step_writeTgt_any {s : State} {i : Nat} {b : Byte} {rest : List HostOp} (hh : s.host = .writeTgt i b :: rest) :
    step s = ifOwned s (if i < s.cfg.tgtCap then .next { s with host := rest, tgt := Memory.write s.tgt i b }
      else .fault .tgtOutOfRange) :=
  step_of_done hh (by simp) rfl

/-- A byte of SRC after a write of one byte. -/
theorem srcByte_after_write (s : State) (rest : List HostOp) (i : Nat) (b : Byte) (j : Nat) :
    State.srcByte { s with host := rest, src := Memory.write s.src i b } j = if j = i then b else s.srcByte j := by
  simp only [State.srcByte, Memory.read_write]
  split <;> rfl

/-- A byte of TGT after a write of one byte. -/
theorem tgtByte_after_write (s : State) (rest : List HostOp) (i : Nat) (b : Byte) (j : Nat) :
    State.tgtByte { s with host := rest, tgt := Memory.write s.tgt i b } j = if j = i then b else s.tgtByte j := by
  simp only [State.tgtByte, Memory.read_write]
  split <;> rfl

/-- Settles O4: while no command is in progress a write in range is done, and is one write of a register or memory. -/
theorem hostWritesChangeOnePlace : Obligations.HostWritesChangeOnePlace := by
  intro s rest hb
  refine ⟨fun n hh hn => ?_, fun n hh hn => ?_, fun i b hh hi => ?_, fun i b hh hi => ?_⟩
  · rw [step_writeSlen hh, ifOwned_idle hb, ifFits_fits hn]
  · rw [step_writeTcap hh, ifOwned_idle hb, ifFits_fits hn]
  · refine ⟨_, step_writeSrc hb hi hh, rfl, ?_, fun j hj => ?_⟩
    · rw [srcByte_after_write, if_pos rfl]
    · rw [srcByte_after_write, if_neg hj]
  · refine ⟨{ s with host := rest, tgt := Memory.write s.tgt i b }, ?_, rfl, ?_, fun j hj => ?_⟩
    · rw [step_writeTgt_any hh, ifOwned_idle hb, if_pos hi]
    · rw [tgtByte_after_write, if_pos rfl]
    · rw [tgtByte_after_write, if_neg hj]

/-- Settles O5, by the four writes. -/
theorem hostWritesRefusedWhileBusy : Obligations.HostWritesRefusedWhileBusy := by
  rintro s op rest hb hh (⟨n, rfl⟩ | ⟨n, rfl⟩ | ⟨i, b, rfl⟩ | ⟨i, b, rfl⟩)
  · rw [step_writeSlen hh, ifOwned_busy hb]
  · rw [step_writeTcap hh, ifOwned_busy hb]
  · rw [step_writeSrc_any hh, ifOwned_busy hb]
  · rw [step_writeTgt_any hh, ifOwned_busy hb]

/-! ### Reads -/

theorem step_readReg {s : State} {r : HostReg} {rest : List HostOp} (hh : s.host = .readReg r :: rest) :
    step s = readReg r { s with host := rest } :=
  step_of_done hh (by simp) rfl

/-- A read that is unspecified while BUSY. -/
def readOwned (v : Nat) (s : State) : Host.Outcome State Fault Refusal := if s.busy then returnsFree s else returns v s

theorem readOwned_idle {s : State} (h : s.busy = false) (v : Nat) (rest : List HostOp) :
    readOwned v { s with host := rest } = .next { s with host := rest, rdata := v } :=
  if_neg (Bool.eq_false_iff.1 h)

theorem step_readSrc {s : State} {i : Nat} {rest : List HostOp} (hh : s.host = .readSrc i :: rest) :
    step s = if i < s.cfg.srcCap then readOwned (s.srcByte i).toNat { s with host := rest } else .fault .srcOutOfRange :=
  step_of_done hh (by simp) rfl

theorem step_readTgt {s : State} {i : Nat} {rest : List HostOp} (hh : s.host = .readTgt i :: rest) :
    step s = if i < s.cfg.tgtCap then readOwned (s.tgtByte i).toNat { s with host := rest } else .fault .tgtOutOfRange :=
  step_of_done hh (by simp) rfl

/-- The three registers whose read is unspecified while BUSY (U4, log 10). -/
theorem readReg_owned (s : State) :
    readReg .slen s = readOwned s.slen s ∧ readReg .tcap s = readOwned s.tcap s ∧ readReg .wlen s = readOwned s.wlen s :=
  ⟨rfl, rfl, rfl⟩

/-- Settles O6, by the register or memory that is read. -/
theorem hostReadsReturnTheState : Obligations.HostReadsReturnTheState := by
  intro s rest
  obtain ⟨hslen, htcap, hwlen⟩ := readReg_owned { s with host := rest }
  refine ⟨fun hh => step_readReg hh, fun hh => step_readReg hh, fun hb =>
    ⟨fun hh => ?_, fun hh => ?_, fun hh => ?_, fun i hh hi => ?_, fun i hh hi => ?_⟩⟩
  · rw [step_readReg hh, hslen, readOwned_idle hb]
  · rw [step_readReg hh, htcap, readOwned_idle hb]
  · rw [step_readReg hh, hwlen, readOwned_idle hb]
  · rw [step_readSrc hh, if_pos hi, readOwned_idle hb]
  · rw [step_readTgt hh, if_pos hi, readOwned_idle hb]

/-- Settles O55, by the access: each is stopped by its own bound. -/
theorem hostAccessOutOfRangeStops : Obligations.HostAccessOutOfRangeStops := by
  intro s rest
  refine ⟨fun i hh hi => ?_, fun i hh hi => ?_, fun hb =>
    ⟨fun i b hh hi => ?_, fun i b hh hi => ?_, fun n hh hn => ?_, fun n hh hn => ?_⟩⟩
  · rw [step_readSrc hh, if_neg (Nat.not_lt.2 hi)]
  · rw [step_readTgt hh, if_neg (Nat.not_lt.2 hi)]
  · rw [step_writeSrc_any hh, ifOwned_idle hb, if_neg (Nat.not_lt.2 hi)]
  · rw [step_writeTgt_any hh, ifOwned_idle hb, if_neg (Nat.not_lt.2 hi)]
  · rw [step_writeSlen hh, ifOwned_idle hb, ifFits_wide hn]
  · rw [step_writeTcap hh, ifOwned_idle hb, ifFits_wide hn]

/-! ### Reset and commands -/

theorem step_reset {s : State} {rest : List HostOp} (hh : s.host = .reset :: rest) :
    step s = .next (resetBlock { s with host := rest }) :=
  step_of_done hh (by simp) rfl

/-- An emptied memory reads as its epoch's free bytes (U7, log 5). -/
theorem resetBlock_bytes (s : State) (i : Nat) :
    (resetBlock s).srcByte i = Config.freeSrc (s.srcEpoch + 1) i ∧ (resetBlock s).tgtByte i = Config.freeTgt (s.tgtEpoch + 1) i :=
  ⟨rfl, rfl⟩

/-- Settles O3. -/
theorem resetClearsEveryRegister : Obligations.ResetClearsEveryRegister := by
  refine ⟨fun p => rfl, fun s rest hh => ⟨_, step_reset hh, ?_⟩⟩
  have hbytes := resetBlock_bytes { s with host := rest }
  exact ⟨rfl, rfl, rfl, rfl, rfl, rfl, rfl, rfl, rfl, rfl, rfl, rfl, fun i => (hbytes i).1, fun i => (hbytes i).2⟩

/-- Each of the four commands is the write of its word. -/
theorem exec_command {i : Instr} (h : i ∈ [Instr.dec, Instr.enc, Instr.decq, Instr.encq]) (s : State) :
    ∃ c, exec i s = .next (writeCmd c s) := by
  simp only [List.mem_cons, List.not_mem_nil, or_false] at h
  rcases h with rfl | rfl | rfl | rfl
  · exact ⟨_, exec_dec s⟩
  · exact ⟨_, exec_enc s⟩
  · exact ⟨_, exec_decq s⟩
  · exact ⟨_, exec_encq s⟩

/-- Settles O10: both ways to write CMD go through `writeCmd`. -/
theorem commandWhileBusyIsIgnored : Obligations.CommandWhileBusyIsIgnored := by
  refine ⟨fun i s hi hb => ?_, fun s c rest hh hb => ?_⟩
  · obtain ⟨c, hc⟩ := exec_command hi s
    rw [hc, writeCmd_busy hb]
  · exact (step_writeCmd hh).trans (congrArg _ (writeCmd_busy hb))

theorem decode_cmd_ok {c : Byte} {i : Instr} {r : List Byte} (h : decode .cmd [c] = .ok (i, r)) : decodeCommand c = .ok i := by
  cases hc : decodeCommand c with
  | ok j => simp_all [decode, Except.map]
  | error e => simp_all [decode, Except.map]

/-- Settles O13, by whose turn it is. -/
theorem stepRunsTheDecodedInstruction : Obligations.StepRunsTheDecodedInstruction := by
  refine ⟨fun s i r hb hcap hd => ⟨?_, fun rest => ?_⟩, fun s c i r rest hh hd => ?_⟩
  · have hf := fetch_of_decode hcap hd
    rintro (hh | ⟨rest, hh⟩)
    · rw [step_of_no_host hh, engineStep_of_fetch hb hf]
    · rw [step_of_await hh hb, engineStep_of_fetch hb hf]
  · rw [step_of_pause rfl]
    exact engineStep_of_fetch hb (fetch_of_decode (s := { s with host := rest }) hcap hd)
  · rw [step_writeCmd hh, exec_of_decodeCommand (decode_cmd_ok hd)]

end Sys2Proof.Machine
end

section
/-! Accesses outside the memories (spec/20_memory.md R43, R45; log 12): how far each operation writes TGT, and where it stops. -/

namespace Sys2Proof.Machine

/-! ### Writes -/

/-- The answer of an operation whose output ends at index n of a TGT of cap bytes: it leaves TI there, or TGT has no room for it. -/
inductive WritesTo (cap n : Nat) : Except Fault State → Prop where
  | done {t : State} (hn : n ≤ cap) (hti : t.ti = n) (hcap : t.cfg.tgtCap = cap) : WritesTo cap n (.ok t)
  | full (hn : cap < n) : WritesTo cap n (.error .tgtOutOfRange)

theorem WritesTo.fault {cap n : Nat} {x : Except Fault State} (h : WritesTo cap n x) (hn : cap < n) :
    outcome x = .fault .tgtOutOfRange := by
  cases h with
  | done hle => omega
  | full => rfl

/-- Writes of registers other than TI may follow. -/
theorem WritesTo.map {cap n : Nat} {x : Except Fault State} (h : WritesTo cap n x) {f : State → State}
    (hti : ∀ t, (f t).ti = t.ti) (hcfg : ∀ t, (f t).cfg = t.cfg) : WritesTo cap n (x.map f) := by
  cases h with
  | done hn ht hcap => exact .done hn ((hti _).trans ht) (by rw [hcfg, hcap])
  | full hn => exact .full hn

/-- A further write may follow; it begins where the first one ended. -/
theorem WritesTo.bind {cap m k : Nat} {x : Except Fault State} (h : WritesTo cap m x) {f : State → Except Fault State}
    (hf : ∀ t, WritesTo t.cfg.tgtCap (t.ti + k) (f t)) : WritesTo cap (m + k) (x.bind f) := by
  cases h with
  | @done t _ hti hcap => exact hti ▸ hcap ▸ hf t
  | full hn => exact .full (by omega)

theorem emit_writesTo (bs : List Byte) (s : State) : WritesTo s.cfg.tgtCap (s.ti + bs.length) (emit bs s) := by
  unfold emit
  split
  · rename_i h
    exact .done h rfl rfl
  · rename_i h
    exact .full (Nat.lt_of_not_le h)

theorem breakBytes_of_break {q : Bool} {line k : Nat} (h : q = false ∧ lineLimit ≤ line + k) :
    breakBytes q line k = softBreakBytes := if_pos h

theorem breakBytes_of_no_break {q : Bool} {line k : Nat} (h : ¬ (q = false ∧ lineLimit ≤ line + k)) :
    breakBytes q line k = [] := if_neg h

/-- SOFTBRK(k) when it breaks is one write of three bytes. -/
theorem softBrk_writesTo {k : Nat} {s : State} (h : s.q = false ∧ lineLimit ≤ s.line + k) :
    WritesTo s.cfg.tgtCap (s.ti + 3) (softBrk k s) := by
  rw [softBrk, if_pos h]
  exact (emit_writesTo softBreakBytes s).map (fun _ => rfl) fun _ => rfl

/-- SOFTBRK(k) and what is written after it, where without a break SOFTBRK accesses nothing. -/
theorem softBrk_bind_writesTo {k n : Nat} {s : State} {f : State → Except Fault State}
    (hf : ∀ t, WritesTo t.cfg.tgtCap (t.ti + n) (f t)) :
    WritesTo s.cfg.tgtCap (s.ti + (breakBytes s.q s.line k).length + n) ((softBrk k s).bind f) := by
  by_cases hc : s.q = false ∧ lineLimit ≤ s.line + k
  · rw [breakBytes_of_break hc]
    exact (softBrk_writesTo hc).bind hf
  · rw [breakBytes_of_no_break hc, softBrk_none hc]
    exact hf s

theorem symbolOp_writesTo (v : Byte) (s : State) :
    WritesTo s.cfg.tgtCap (s.ti + (breakBytes s.q s.line 3).length + 3) (symbolOp v s) :=
  softBrk_bind_writesTo fun t => (emit_writesTo (symbolBytes v) t).map (fun _ => rfl) fun _ => rfl

/-- Where FLUSHWS leaves TI. -/
theorem flushEnd_of_flushes {s : State} (h : s.flushes) :
    s.flushStart + s.flushBytes.length = s.ti - 1 + (breakBytes s.q (s.line - 1) 3).length + 3 := by
  simp only [State.flushStart, State.flushBytes, if_pos h, List.length_append, hexSymbol, List.length_cons, List.length_nil]
  omega

theorem flushEnd_of_not_flushes {s : State} (h : ¬ s.flushes) : s.flushStart + s.flushBytes.length = s.ti := by
  simp only [State.flushStart, State.flushBytes, if_neg h, List.length_nil, Nat.add_zero]

/-- What FLUSHWS re-emits is longer than what it takes out. -/
theorem ti_le_flushEnd (s : State) : s.ti ≤ s.flushStart + s.flushBytes.length := by
  by_cases hf : s.flushes
  · rw [flushEnd_of_flushes hf]; omega
  · rw [flushEnd_of_not_flushes hf]

/-- FLUSHWS with TI above TGT has no byte to read. -/
theorem flushWs_above {s : State} (h : s.cfg.tgtCap < s.ti) : flushWs s = .error .tgtOutOfRange := by
  rw [flushWs, if_pos (by omega), if_neg (by omega)]

theorem flushWs_writesTo (s : State) : WritesTo s.cfg.tgtCap (s.flushStart + s.flushBytes.length) (flushWs s) := by
  rcases Nat.lt_or_ge s.cfg.tgtCap s.ti with hout | hr
  · rw [flushWs_above hout]
    exact .full (Nat.lt_of_lt_of_le hout (ti_le_flushEnd s))
  · by_cases hf : s.flushes
    · rw [flushWs_fires hf hr, flushEnd_of_flushes hf]
      exact symbolOp_writesTo _ s.takeBack
    · rw [flushWs_none hf hr, flushEnd_of_not_flushes hf]
      exact .done hr rfl rfl

/-! ### Reads of SRC -/

theorem padchk_outside {s : State} (h : s.cfg.srcCap < s.rw) : padchk s = .error .srcOutOfRange :=
  if_neg (Nat.not_le.2 h)

theorem padchkHere_outside {s : State} (h : s.cfg.srcCap < s.si) : padchkHere s = .error .srcOutOfRange := by
  rw [padchkHere, padchk_outside (s := s.loadRw) h]
  rfl

theorem fetch_outside {s : State} (h : s.si < s.slen) (hout : s.cfg.srcCap < s.si + min 3 (s.slen - s.si)) :
    fetch s = .error .srcOutOfRange :=
  if_neg (by rw [window_length]; omega)

theorem engineStep_of_fetch_error {s : State} {e : Fault} (hb : s.busy = true) (hf : fetch s = .error e) :
    engineStep s = .fault e := by
  simp [engineStep, hb, hf]

/-! ### The instructions -/

/-- The decoder's three one-byte writes. -/
theorem emit_one_fault {s : State} (h : s.cfg.tgtCap < s.ti + 1) (b : Byte) (k : Nat) :
    outcome ((emit [b] s).map (State.advance k)) = .fault .tgtOutOfRange :=
  WritesTo.fault ((emit_writesTo [b] s).map (fun _ => rfl) fun _ => rfl) h

theorem exec_eLit_fault {s : State} (h : s.cfg.tgtCap < s.ti + (breakBytes s.q s.line 1).length + 1) (b : Byte) :
    exec (.eLit b) s = .fault .tgtOutOfRange :=
  WritesTo.fault (softBrk_bind_writesTo fun t => (emit_writesTo [b] t).map (fun _ => rfl) fun _ => rfl) h

theorem exec_eSym_fault {s : State} (h : s.cfg.tgtCap < s.ti + (breakBytes s.q s.line 3).length + 3) (v : Byte) :
    exec (.eSym v) s = .fault .tgtOutOfRange :=
  WritesTo.fault ((symbolOp_writesTo v s).map (fun _ => rfl) fun _ => rfl) h

theorem exec_eCrlf_fault {s : State} (h : s.cfg.tgtCap < s.flushStart + s.flushBytes.length + 2) :
    exec .eCrlf s = .fault .tgtOutOfRange :=
  WritesTo.fault ((flushWs_writesTo s).bind fun t => (emit_writesTo hardBreakBytes t).map (fun _ => rfl) fun _ => rfl) h

theorem terminatorBytes_length (e : Term) : (terminatorBytes e).length = (termBytes e).length := by cases e <;> rfl

theorem exec_dSoft_outside {s : State} (h : s.cfg.srcCap < s.si) (e : Term) : exec (.dSoft e) s = .fault .srcOutOfRange := by
  rw [exec, execDSoft, padchkHere_outside h]
  rfl

theorem exec_dHard_outside {s : State} (h : s.cfg.srcCap < s.si) (e : Term) : exec (.dHard e) s = .fault .srcOutOfRange := by
  rw [exec, execDHard, padchkHere_outside h]
  rfl

/-- D.HARD writes its terminator at the TI that PADCHK leaves. -/
theorem exec_dHard_fault {s : State} {e : Term} (h : s.si ≤ s.cfg.srcCap)
    (hout : s.cfg.tgtCap < s.ti - s.padTaken + (terminatorBytes e).length) : exec (.dHard e) s = .fault .tgtOutOfRange := by
  rw [terminatorBytes_length, ← padded_here_ti] at hout
  rw [exec, execDHard, padchkHere_ok h]
  exact WritesTo.fault ((emit_writesTo (termBytes e) s.loadRw.padded).map (fun _ => rfl) fun _ => rfl) hout

theorem exec_padchk_outside {s : State} (h : s.cfg.srcCap < s.rw) : exec .padchk s = .fault .srcOutOfRange := by
  rw [exec, execPadchk, padchk_outside h]
  rfl

/-- Settles O32, by the index at which each instruction's output ends and the source bytes it reads. -/
theorem accessOutsideTheMemoriesFaults : Obligations.AccessOutsideTheMemoriesFaults := by
  intro s
  have hle := ti_le_flushEnd s
  refine ⟨fun h => ⟨fun _ _ => emit_one_fault h _ 3, fun b => emit_one_fault h b 1, emit_one_fault h bSp 1⟩,
    fun k hq hl h => (softBrk_writesTo ⟨hq, hl⟩).fault h,
    fun h => ⟨fun v => (symbolOp_writesTo v s).fault h, exec_eSym_fault h⟩,
    exec_eLit_fault, fun h => ?flush, fun h => ?pair, exec_padchk_outside,
    fun h => ⟨exec_dSoft_outside h, exec_dHard_outside h, fun hc => ?eob⟩,
    fun e => exec_dHard_fault, fun hh hb hlt hout => ?fetch⟩
  case flush =>
    have hf := (flushWs_writesTo s).fault (by omega)
    exact ⟨hf, hf⟩
  case pair => exact exec_eCrlf_fault (by omega)
  case eob => rw [exec_dEob_on hc, padchkHere_outside h, outcome_error]
  case fetch => rw [step_of_no_host hh, engineStep_of_fetch_error hb (fetch_outside hlt hout)]

end Sys2Proof.Machine
end

section
/-! The decoder of tokens, arm by arm (spec/30_encoding.md R62, R63): which bytes each arm reads. -/

namespace Sys2Proof.Machine

theorem escapeAt_of_ne {b : Byte} (hb : b ≠ bEsc) (rest : List Byte) : escapeAt (b :: rest) = none := by
  cases he : escapeAt (b :: rest) with
  | none => rfl
  | some x =>
    obtain ⟨h, g, r⟩ := x
    obtain ⟨hbs, -⟩ := escapeAt_eq_some he
    exact absurd (List.cons.inj hbs).1 hb

/-- Only a lone CR needs a condition on what follows (R62 priority 2b). -/
theorem terminatorAt_termBytes {e : Term} {rest : List Byte} (h : e = .cr → rest.head? ≠ some bLf) :
    terminatorAt (termBytes e ++ rest) = some (e, rest) := by
  cases e with
  | crlf => rfl
  | lf => rfl
  | cr =>
    cases rest with
    | nil => rfl
    | cons c rest =>
      have hc : c ≠ bLf := by simpa using h rfl
      simp [termBytes, terminatorAt, hc]

/-- A lone CR is not followed by LF. -/
theorem terminatorAt_cr_eq_some {bs rest : List Byte} (h : terminatorAt bs = some (.cr, rest)) : rest.head? ≠ some bLf := by
  intro hlf
  cases rest with
  | nil => simp at hlf
  | cons c rest =>
    obtain rfl : c = bLf := by simpa using hlf
    rw [terminatorAt_eq_some h] at h
    simp [termBytes, terminatorAt] at h

theorem terminatorAt_of_ne {b : Byte} (hcr : b ≠ bCr) (hlf : b ≠ bLf) (rest : List Byte) : terminatorAt (b :: rest) = none := by
  simp [terminatorAt, hcr, hlf]

theorem decodeToken_escape {h g : Byte} (hh : tdec h ≠ 0#8) (hg : tdec g ≠ 0#8) (q soft : Bool) (rest : List Byte) :
    decodeToken q soft (bEsc :: h :: g :: rest) = (.dEsc h g, rest) := by
  simp [decodeToken, escapeAt, hh, hg]

/-- The token of a line terminator, by PADCHK's answer (R101). -/
def breakToken (soft : Bool) (e : Term) : Instr := if soft then .dSoft e else .dHard e

theorem decodeToken_terminator {e : Term} {rest : List Byte} (h : e = .cr → rest.head? ≠ some bLf) (q soft : Bool) :
    decodeToken q soft (termBytes e ++ rest) = (breakToken soft e, rest) := by
  have hesc : escapeAt (termBytes e ++ rest) = none := by
    cases e <;> exact escapeAt_of_ne (by decide) _
  simp only [decodeToken, hesc, terminatorAt_termBytes h, breakToken]

/-- A byte that begins neither an escape nor a line terminator is a token of its own. -/
def byteToken (q : Bool) (b : Byte) : Instr :=
  if q = true ∧ b = bUsc then .dUsc else if tlegal b = 1#8 then .dLit b else .dDrop b

theorem decodeToken_byte {b : Byte} {rest : List Byte} (hesc : escapeAt (b :: rest) = none) (hcr : b ≠ bCr) (hlf : b ≠ bLf)
    (q soft : Bool) : decodeToken q soft (b :: rest) = (byteToken q b, rest) := by
  simp only [decodeToken, hesc, terminatorAt_of_ne hcr hlf, byteToken]
  split
  · rfl
  · split <;> rfl

/-- What decodeToken reads, arm by arm. -/
inductive TokenArm (q soft : Bool) : List Byte → Instr → List Byte → Prop where
  | eob : TokenArm q soft [] .dEob []
  | escape {h g : Byte} {rest : List Byte} (hh : tdec h ≠ 0#8) (hg : tdec g ≠ 0#8) :
      TokenArm q soft (bEsc :: h :: g :: rest) (.dEsc h g) rest
  | terminator {e : Term} {rest : List Byte} (h : e = .cr → rest.head? ≠ some bLf) :
      TokenArm q soft (termBytes e ++ rest) (breakToken soft e) rest
  | byte {b : Byte} {rest : List Byte} (hesc : escapeAt (b :: rest) = none) (hcr : b ≠ bCr) (hlf : b ≠ bLf) :
      TokenArm q soft (b :: rest) (byteToken q b) rest

/-- Every byte string has its arm (R67). -/
theorem decodeToken_arm (q soft : Bool) (bs : List Byte) :
    TokenArm q soft bs (decodeToken q soft bs).1 (decodeToken q soft bs).2 := by
  cases hesc : escapeAt bs with
  | some x =>
    obtain ⟨h, g, rest⟩ := x
    obtain ⟨rfl, hh, hg⟩ := escapeAt_eq_some hesc
    rw [decodeToken_escape hh hg]
    exact .escape hh hg
  | none =>
    cases hterm : terminatorAt bs with
    | some x =>
      obtain ⟨e, rest⟩ := x
      obtain rfl := terminatorAt_eq_some hterm
      have hcr : e = .cr → rest.head? ≠ some bLf := by
        rintro rfl
        exact terminatorAt_cr_eq_some hterm
      rw [decodeToken_terminator hcr]
      exact .terminator hcr
    | none =>
      cases bs with
      | nil => exact .eob
      | cons b rest =>
        obtain ⟨hcr, hlf⟩ := terminatorAt_eq_none hterm
        rw [decodeToken_byte hesc hcr hlf]
        exact .byte hesc hcr hlf

end Sys2Proof.Machine
end

section
/-! The encoder's classes, arm by arm (spec/30_encoding.md R65). -/

namespace Sys2Proof.Machine

theorem decodeClass_literal {q : Bool} {b : Byte} (h : litTab q b = 1#8) (rest : List Byte) :
    decodeClass q (b :: rest) = (.eLit b, rest) := if_pos h

theorem decodeClass_pair (rest : List Byte) : decodeClass false (bCr :: bLf :: rest) = (.eCrlf, rest) := by
  simp [decodeClass, litTab, show tlit bCr ≠ 1#8 by decide]

theorem decodeClass_symbol {q : Bool} {b : Byte} {rest : List Byte} (h : litTab q b ≠ 1#8)
    (hpair : ¬ (q = false ∧ b = bCr ∧ rest.head? = some bLf)) : decodeClass q (b :: rest) = (.eSym b, rest) :=
  (if_neg h).trans (if_neg hpair)

/-- What decodeClass reads, arm by arm. -/
inductive ClassArm (q : Bool) : List Byte → Instr → List Byte → Prop where
  | eob : ClassArm q [] .eEob []
  | literal {b : Byte} {rest : List Byte} (h : litTab q b = 1#8) : ClassArm q (b :: rest) (.eLit b) rest
  | pair {rest : List Byte} (hq : q = false) : ClassArm q (bCr :: bLf :: rest) .eCrlf rest
  | symbol {b : Byte} {rest : List Byte} (h : litTab q b ≠ 1#8) (hpair : ¬ (q = false ∧ b = bCr ∧ rest.head? = some bLf)) :
      ClassArm q (b :: rest) (.eSym b) rest

/-- Every byte string has its arm. -/
theorem decodeClass_arm (q : Bool) (bs : List Byte) : ClassArm q bs (decodeClass q bs).1 (decodeClass q bs).2 := by
  cases bs with
  | nil => exact .eob
  | cons b rest =>
    by_cases hlit : litTab q b = 1#8
    · rw [decodeClass_literal hlit]
      exact .literal hlit
    · by_cases hpair : q = false ∧ b = bCr ∧ rest.head? = some bLf
      · obtain ⟨rfl, rfl, hlf⟩ := hpair
        obtain ⟨rest', rfl⟩ := List.head?_eq_some_iff.1 hlf
        rw [decodeClass_pair]
        exact .pair rfl
      · rw [decodeClass_symbol hlit hpair]
        exact .symbol hlit hpair

end Sys2Proof.Machine
end

section
/-! Decoding and encoding agree (spec/30_encoding.md R60 to R67). -/

namespace Sys2Proof.Machine

/-! ### Command words -/

/-- The four command words are those with bits 7:2 zero (R60). -/
theorem commandWord_iff (c : Byte) :
    c.extractLsb' 2 6 = 0#6 ↔ c = 0x00#8 ∨ c = 0x01#8 ∨ c = 0x02#8 ∨ c = 0x03#8 := by
  revert c; decide

theorem decodeCommand_reserved {c : Byte} (h : c.extractLsb' 2 6 ≠ 0#6) : decodeCommand c = .error (.reservedCommand c) := by
  have hc := mt (commandWord_iff c).2 h
  simp only [not_or] at hc
  obtain ⟨h0, h1, h2, h3⟩ := hc
  simp only [decodeCommand, if_neg h0, if_neg h1, if_neg h2, if_neg h3]

/-- What decodeCommand reads, arm by arm. -/
inductive CommandArm : Byte → Instr → Prop where
  | dec : CommandArm 0x00#8 .dec
  | enc : CommandArm 0x01#8 .enc
  | decq : CommandArm 0x02#8 .decq
  | encq : CommandArm 0x03#8 .encq

theorem commandArm_of_decodeCommand {c : Byte} {i : Instr} (h : decodeCommand c = .ok i) : CommandArm c i := by
  by_cases hc : c.extractLsb' 2 6 = 0#6
  · rcases (commandWord_iff c).1 hc with rfl | rfl | rfl | rfl <;> cases h
    · exact .dec
    · exact .enc
    · exact .decq
    · exact .encq
  · rw [decodeCommand_reserved hc] at h
    cases h

theorem decode_cmd (c : Byte) (rest : List Byte) : decode .cmd (c :: rest) = (decodeCommand c).map fun i => (i, rest) := rfl

/-- Settles O35: bits 7:2 decide. -/
theorem reservedCommandWordsAreRejected : Obligations.ReservedCommandWordsAreRejected := by
  refine fun c => ⟨fun h => ?_, fun h => ?_⟩
  · rw [decode_cmd, decodeCommand_reserved h]
    rfl
  · rcases (commandWord_iff c).1 h with rfl | rfl | rfl | rfl
    · exact ⟨.dec, rfl⟩
    · exact ⟨.enc, rfl⟩
    · exact ⟨.decq, rfl⟩
    · exact ⟨.encq, rfl⟩

/-! ### Decoding an encoding -/

/-- A legal byte is no line terminator (R88 g). -/
theorem not_terminator_of_legal {b : Byte} (h : tlegal b = 1#8) : b ≠ bCr ∧ b ≠ bLf := by
  refine ⟨?_, ?_⟩ <;> rintro rfl <;> exact absurd h (by decide)

theorem decode_cmd_encode {i : Instr} {bs : List Byte} (hadm : Ctx.cmd.admits i = true) (henc : encode i = some bs)
    (rest : List Byte) : decode .cmd (bs ++ rest) = .ok (i, rest) := by
  cases i <;> cases henc
  case dec => rfl
  case enc => rfl
  case decq => rfl
  case encq => rfl
  all_goals exact absurd hadm (by simp [Ctx.admits])

theorem decodeToken_encode {q soft : Bool} {i : Instr} {bs rest : List Byte} (hwf : i.wf = true)
    (hadm : (Ctx.dec q soft).admits i = true) (hfol : i.follows (.dec q soft) rest = true) (henc : encode i = some bs) :
    decodeToken q soft (bs ++ rest) = (i, rest) := by
  cases i <;> cases henc
  case dEsc h g =>
    obtain ⟨hh, hg⟩ : tdec h ≠ 0#8 ∧ tdec g ≠ 0#8 := by simpa [Instr.wf] using hwf
    exact decodeToken_escape hh hg q soft rest
  case dSoft e =>
    obtain rfl : soft = true := hadm
    refine decodeToken_terminator ?_ q true
    rintro rfl
    simpa [Instr.follows] using hfol
  case dHard e =>
    obtain rfl : soft = false := by simpa [Ctx.admits] using hadm
    refine decodeToken_terminator ?_ q false
    rintro rfl
    simpa [Instr.follows] using hfol
  case dUsc =>
    obtain rfl : q = true := hadm
    exact decodeToken_byte (escapeAt_of_ne (by decide) rest) (by decide) (by decide) true soft
  case dLit b =>
    have hleg : tlegal b = 1#8 := by simpa [Instr.wf] using hwf
    have husc : ¬ (q = true ∧ b = bUsc) := by simpa [Ctx.admits, imp_iff_not_or] using hadm
    have hesc : escapeAt (b :: rest) = none := by
      by_cases hb : b = bEsc
      · subst hb; simpa [Instr.follows] using hfol
      · exact escapeAt_of_ne hb rest
    obtain ⟨hcr, hlf⟩ := not_terminator_of_legal hleg
    exact (decodeToken_byte hesc hcr hlf q soft).trans (by simp only [byteToken, if_neg husc, if_pos hleg])
  case dDrop b =>
    obtain ⟨⟨hill, hcr⟩, hlf⟩ : (tlegal b ≠ 1#8 ∧ b ≠ bCr) ∧ b ≠ bLf := by simpa [Instr.wf] using hwf
    have husc : ¬ (q = true ∧ b = bUsc) := by rintro ⟨-, rfl⟩; exact hill (by decide)
    have hesc : b ≠ bEsc := by rintro rfl; exact hill (by decide)
    exact (decodeToken_byte (escapeAt_of_ne hesc rest) hcr hlf q soft).trans (by simp only [byteToken, if_neg husc, if_neg hill])
  case dEob =>
    obtain rfl : rest = [] := by simpa [Instr.follows] using hfol
    rfl
  all_goals exact absurd hadm (by simp [Ctx.admits])

theorem decodeClass_encode {q : Bool} {i : Instr} {bs rest : List Byte} (hadm : (Ctx.enc q).admits i = true)
    (hfol : i.follows (.enc q) rest = true) (henc : encode i = some bs) : decodeClass q (bs ++ rest) = (i, rest) := by
  cases i <;> cases henc
  case eLit b => exact decodeClass_literal (by simpa [Ctx.admits] using hadm) rest
  case eCrlf =>
    obtain rfl : q = false := by simpa [Ctx.admits] using hadm
    exact decodeClass_pair rest
  case eSym v =>
    refine decodeClass_symbol (by simpa [Ctx.admits] using hadm) ?_
    rintro ⟨rfl, rfl, hlf⟩
    have hne : rest.head? ≠ some bLf := by simpa [Instr.follows] using hfol
    exact hne hlf
  case eEob =>
    obtain rfl : rest = [] := by simpa [Instr.follows] using hfol
    rfl
  all_goals exact absurd hadm (by simp [Ctx.admits])

/-- Settles O33, by the context. -/
theorem decodeOfEncodeIsTheInstruction : Obligations.DecodeOfEncodeIsTheInstruction := by
  intro ctx i bs rest hwf hadm hfol henc
  cases ctx with
  | cmd => exact decode_cmd_encode hadm henc rest
  | dec q soft => exact congrArg Except.ok (decodeToken_encode hwf hadm hfol henc)
  | enc q => exact congrArg Except.ok (decodeClass_encode hadm hfol henc)

/-! ### Encoding what was decoded -/

theorem decode_cmd_eq_ok {bs rest : List Byte} {i : Instr} (h : decode .cmd bs = .ok (i, rest)) :
    ∃ c, CommandArm c i ∧ bs = c :: rest := by
  cases bs with
  | nil => cases h
  | cons c bs =>
    rw [decode_cmd] at h
    cases hc : decodeCommand c with
    | error e => rw [hc] at h; cases h
    | ok j =>
      rw [hc] at h
      cases h
      exact ⟨c, commandArm_of_decodeCommand hc, rfl⟩

theorem CommandArm.reads {c : Byte} {i : Instr} (h : CommandArm c i) (rest : List Byte) :
    i.wf = true ∧ Ctx.cmd.admits i = true ∧ i.follows .cmd rest = true ∧ ∃ pre, encode i = some pre ∧ c :: rest = pre ++ rest := by
  cases h <;> exact ⟨rfl, rfl, rfl, _, rfl, rfl⟩

theorem breakToken_follows {e : Term} {rest : List Byte} (h : e = .cr → rest.head? ≠ some bLf) (q soft : Bool) :
    (breakToken soft e).follows (.dec q soft) rest = true := by
  cases e with
  | crlf => cases soft <;> rfl
  | lf => cases soft <;> rfl
  | cr => cases soft <;> exact bne_iff_ne.2 (h rfl)

theorem byteToken_follows {b : Byte} {rest : List Byte} (h : escapeAt (b :: rest) = none) (q soft : Bool) :
    (byteToken q b).follows (.dec q soft) rest = true := by
  unfold byteToken
  split
  · rfl
  · split
    · by_cases hb : b = bEsc
      · subst hb; simp [Instr.follows, h]
      · simp [Instr.follows, hb]
    · rfl

theorem TokenArm.follows {q soft : Bool} {bs rest : List Byte} {i : Instr} (h : TokenArm q soft bs i rest) :
    i.follows (.dec q soft) rest = true := by
  cases h with
  | eob => rfl
  | escape => rfl
  | terminator h => exact breakToken_follows h q soft
  | byte hesc => exact byteToken_follows hesc q soft

theorem ClassArm.follows {q : Bool} {bs rest : List Byte} {i : Instr} (h : ClassArm q bs i rest) :
    i.follows (.enc q) rest = true := by
  cases h with
  | eob => rfl
  | literal => rfl
  | pair => rfl
  | symbol _ hpair => cases q <;> simp_all [Instr.follows, imp_iff_not_or]

/-- Settles O34, by the context: the decoders' arms say what follows. -/
theorem encodeOfDecodeIsTheBytes : Obligations.EncodeOfDecodeIsTheBytes := by
  refine ⟨fun ctx bs rest i hd => ?_, fun ctx bs hctx => ?_⟩
  · cases ctx with
    | cmd =>
      obtain ⟨c, hc, rfl⟩ := decode_cmd_eq_ok hd
      exact hc.reads rest
    | dec q soft =>
      obtain ⟨rfl, rfl⟩ := Prod.ext_iff.1 (Except.ok.inj hd)
      obtain ⟨hwf, hadm, hbytes⟩ := decodeToken_readsAs q soft bs
      exact ⟨hwf, hadm, (decodeToken_arm q soft bs).follows, hbytes⟩
    | enc q =>
      obtain ⟨rfl, rfl⟩ := Prod.ext_iff.1 (Except.ok.inj hd)
      obtain ⟨hwf, hadm, hbytes⟩ := decodeClass_readsAs q bs
      exact ⟨hwf, hadm, (decodeClass_arm q bs).follows, hbytes⟩
  · cases ctx with
    | cmd => exact absurd rfl hctx
    | dec q soft => exact ⟨_, _, rfl⟩
    | enc q => exact ⟨_, _, rfl⟩

end Sys2Proof.Machine
end

section
/-! Which step the engine fetches, from the source bytes at SI (spec/41_decode.md R101, spec/42_encode.md R131). -/

namespace Sys2Proof.Machine

/-- Below SLEN the window begins with the byte at SI, and next comes the byte after it if that is below SLEN too. -/
theorem window_cons {s : State} (h : s.si < s.slen) :
    ∃ rest, window s = s.srcByte s.si :: rest ∧ ∀ b, rest.head? = some b ↔ s.si + 1 < s.slen ∧ s.srcByte (s.si + 1) = b := by
  rcases (by omega : s.si + 1 = s.slen ∨ s.si + 2 = s.slen ∨ s.si + 3 ≤ s.slen) with h1 | h2 | h3
  · exact ⟨_, window_one h1, fun b => by simp; omega⟩
  · exact ⟨_, window_two h2, fun b => by simp; omega⟩
  · exact ⟨_, window_three h3, fun b => by simp; omega⟩

/-- The escape test of the window is R63's, with its bound on the look ahead. -/
theorem escapeAt_window_eq_none {s : State}
    (h : ¬ (s.srcByte s.si = bEsc ∧ s.si + 2 < s.slen ∧ tdec (s.srcByte (s.si + 1)) ≠ 0#8 ∧ tdec (s.srcByte (s.si + 2)) ≠ 0#8)) :
    escapeAt (window s) = none := by
  cases he : escapeAt (window s) with
  | none => rfl
  | some x =>
    obtain ⟨a, b, rest⟩ := x
    obtain ⟨hw, ha, hb⟩ := escapeAt_eq_some he
    have hsrc : s.SrcHas [bEsc, a, b] := srcHas_of_window (rest := rest) hw
    obtain ⟨-, h0⟩ := hsrc 0 (by simp)
    obtain ⟨-, h1⟩ := hsrc 1 (by simp)
    obtain ⟨hlt, h2⟩ := hsrc 2 (by simp)
    exact absurd ⟨h0, hlt, h1 ▸ ha, h2 ▸ hb⟩ h

/-- The terminator at SI: a pair where CR LF stands below SLEN, else the lone byte (R62 priorities 2a, 2b). -/
def State.terminatorHere (s : State) : Term :=
  if s.srcByte s.si = bCr then if s.si + 1 < s.slen ∧ s.srcByte (s.si + 1) = bLf then .crlf else .cr else .lf

theorem window_terminator {s : State} (h : s.si < s.slen) (hb : s.srcByte s.si = bCr ∨ s.srcByte s.si = bLf) :
    ∃ rest, window s = termBytes s.terminatorHere ++ rest ∧ (s.terminatorHere = .cr → rest.head? ≠ some bLf) := by
  obtain ⟨rest, hw, hhead⟩ := window_cons h
  unfold State.terminatorHere
  by_cases hcr : s.srcByte s.si = bCr
  · rw [if_pos hcr]
    by_cases hlf : s.si + 1 < s.slen ∧ s.srcByte (s.si + 1) = bLf
    · obtain ⟨rest', rfl⟩ := List.head?_eq_some_iff.1 ((hhead _).2 hlf)
      rw [if_pos hlf]
      exact ⟨rest', by rw [hw, hcr]; rfl, fun h => by cases h⟩
    · rw [if_neg hlf]
      exact ⟨rest, by rw [hw, hcr]; rfl, fun _ => mt (hhead _).1 hlf⟩
  · rw [if_neg hcr]
    exact ⟨rest, by rw [hw, hb.resolve_left hcr]; rfl, fun h => by cases h⟩

/-- Settles O14, by the arms of the decoder in their order. -/
theorem decodeStepSelection : Obligations.DecodeStepSelection := by
  intro s hop hcap
  rw [fetch_ok hcap, hop, if_neg (by simp)]
  refine congrArg Except.ok ?_
  by_cases hend : s.slen ≤ s.si
  · rw [if_pos hend, window_nil hend, decodeToken_nil]
  rw [if_neg hend]
  have hlt := Nat.lt_of_not_le hend
  by_cases hesc : s.srcByte s.si = bEsc ∧ s.si + 2 < s.slen ∧ tdec (s.srcByte (s.si + 1)) ≠ 0#8 ∧
      tdec (s.srcByte (s.si + 2)) ≠ 0#8
  · obtain ⟨h0, hlt2, h1, h2⟩ := id hesc
    rw [if_pos hesc, window_three hlt2, h0, decodeToken_escape h1 h2]
  rw [if_neg hesc]
  by_cases hterm : s.srcByte s.si = bCr ∨ s.srcByte s.si = bLf
  · obtain ⟨rest, hw, hcr⟩ := window_terminator hlt hterm
    rw [if_pos hterm, hw, decodeToken_terminator hcr]
    rfl
  · rw [if_neg hterm]
    obtain ⟨hcr, hlf⟩ := not_or.1 hterm
    have hnone := escapeAt_window_eq_none hesc
    obtain ⟨rest, hw, -⟩ := window_cons hlt
    rw [hw] at hnone ⊢
    rw [decodeToken_byte hnone hcr hlf]
    rfl

/-- Settles O15, by the arms of the encoder in their order. -/
theorem encodeStepSelection : Obligations.EncodeStepSelection := by
  intro s hop hcap
  rw [fetch_ok hcap, if_pos hop]
  refine congrArg Except.ok ?_
  by_cases hend : s.slen ≤ s.si
  · rw [if_pos hend, window_nil hend]
    rfl
  rw [if_neg hend]
  obtain ⟨rest, hw, hhead⟩ := window_cons (Nat.lt_of_not_le hend)
  rw [hw]
  change _ = if litTab s.q (s.srcByte s.si) = 1#8 then _ else _
  by_cases hlit : litTab s.q (s.srcByte s.si) = 1#8
  · rw [if_pos hlit, decodeClass_literal hlit]
  rw [if_neg hlit]
  by_cases hpair : s.q = false ∧ s.srcByte s.si = bCr ∧ s.si + 1 < s.slen ∧ s.srcByte (s.si + 1) = bLf
  · obtain ⟨hq, hcr, hlf⟩ := id hpair
    obtain ⟨rest', rfl⟩ := List.head?_eq_some_iff.1 ((hhead _).2 hlf)
    rw [if_pos hpair, hq, hcr, decodeClass_pair]
  · rw [if_neg hpair, decodeClass_symbol hlit fun ⟨hq, hcr, hlf⟩ => hpair ⟨hq, hcr, (hhead _).1 hlf⟩]

/-- Settles O36: each word by evaluating the decoder. -/
theorem encodedWordsDecode : Obligations.EncodedWordsDecode :=
  ⟨rfl, rfl, rfl, rfl, rfl, rfl, rfl, rfl, rfl, rfl, rfl, rfl, rfl, rfl⟩

end Sys2Proof.Machine
end

section
/-! The scan from a legal state (spec/41_decode.md R112, spec/42_encode.md R151, spec/70_reset_and_hazards.md R215): no step of it
stops, each moves SI on, and at SLEN the command ends in DONE. -/

namespace Sys2Proof.Machine

/-! ### How far a step moves SI -/

/-- A fetch is the decoder's answer on the bytes at SI. -/
theorem decode_of_fetch {s : State} {i : Instr} (h : fetch s = .ok i) : ∃ rest, decode s.ctx (window s) = .ok (i, rest) := by
  unfold fetch at h
  unfold State.ctx
  split at h
  · split at h <;> cases h
    · rename_i hop
      exact ⟨_, by rw [if_pos hop]; rfl⟩
    · rename_i hop
      exact ⟨_, by rw [if_neg hop]; rfl⟩
  · cases h

/-- The end-of-buffer actions are fetched at the end of the buffer only. -/
theorem slen_le_of_fetch_eob {s : State} {i : Instr} (h : fetch s = .ok i) (hi : i = .dEob ∨ i = .eEob) : s.slen ≤ s.si := by
  obtain ⟨rest, hd⟩ := decode_of_fetch h
  obtain ⟨-, -, hfol, pre, henc, hw⟩ := encodeOfDecodeIsTheBytes.1 _ _ _ _ hd
  have hnil : window s = [] := by
    rcases hi with rfl | rfl <;> cases henc <;> simpa [Instr.follows, hw] using hfol
  have hlen := window_length s
  rw [hnil, List.length_nil] at hlen
  omega

/-- A token's or class's step moves SI past its bytes (R14). -/
theorem exec_si {s t : State} {i : Instr} {pre : List Byte} (hi : Instr.isScan i = true) (henc : encode i = some pre)
    (h : exec i s = .next t) : t.si = s.si + pre.length := by
  cases i <;> cases henc
  case dEsc => obtain ⟨-, rfl⟩ := exec_dEsc_next.1 h; rfl
  case dSoft e => obtain ⟨-, rfl⟩ := exec_dSoft_next.1 h; rw [termBytes_length]; rfl
  case dHard e => obtain ⟨-, -, rfl⟩ := exec_dHard_next.1 h; rw [termBytes_length]; rfl
  case dUsc => obtain ⟨-, rfl⟩ := exec_dUsc_next.1 h; rfl
  case dLit b => obtain ⟨-, rfl⟩ := exec_dLit_next.1 h; rfl
  case dDrop b => rw [exec_dDrop] at h; cases h; rfl
  case dEob => rcases exec_dEob_next h with ⟨-, rfl⟩ | ⟨-, -, rfl⟩ <;> rfl
  case eLit b =>
    obtain ⟨u, hu, -, rfl⟩ := exec_eLit_next.1 h
    exact congrArg (· + 1) (softBrk_si hu : u.si = s.si)
  case eCrlf =>
    obtain ⟨u, hu, -, rfl⟩ := exec_eCrlf_next.1 h
    exact congrArg (· + 2) (flushWs_si hu : u.si = s.si)
  case eSym v =>
    obtain ⟨u, hu, rfl⟩ := exec_eSym_next.1 h
    exact congrArg (· + 1) (symbolOp_si hu)
  case eEob => exact flushWs_si (exec_eEob_next.1 h)
  all_goals cases hi

/-- Only the end-of-buffer actions take no byte, and no instruction takes more than three. -/
theorem encode_length {i : Instr} {pre : List Byte} (h : encode i = some pre) (hd : i ≠ .dEob) (he : i ≠ .eEob) :
    0 < pre.length ∧ pre.length ≤ 3 := by
  cases i <;> cases h
  case dEob => exact absurd rfl hd
  case eEob => exact absurd rfl he
  case dSoft e => cases e <;> decide
  case dHard e => cases e <;> decide
  all_goals simp

/-! ### The decoder's steps -/

theorem decodeStep_succeeds {s : State} {i : Instr} (hok : s.DecodeOk) (hop : s.op = false) (hsi : s.si ≤ s.slen)
    (hslen : s.slen ≤ s.cfg.srcCap) (htcap : s.tcap ≤ s.cfg.tgtCap) (hf : fetch s = .ok i) :
    ∃ t, exec i s = .next t ∧ (i = .dEob ∨ i = .eEob → t.ti ≤ s.slen) := by
  obtain ⟨rest, hread⟩ := fetch_readsAs hf
  have hadm := hread.admits
  rw [State.ctx, hop, if_neg (by simp)] at hadm
  have ⟨hcap, hti, _, _⟩ := hok
  cases i
  case dEsc h g =>
    obtain ⟨hlt, -⟩ := hread.srcHas rfl 0 (by simp)
    exact ⟨_, exec_dEsc_next.2 ⟨by omega, rfl⟩, by simp⟩
  case dSoft e => exact ⟨_, exec_dSoft_next.2 ⟨by omega, rfl⟩, by simp⟩
  case dHard e =>
    obtain ⟨hlt, -⟩ := plain_at_end_of_term (hread.srcHas rfl)
    refine ⟨_, exec_dHard_next.2 ⟨by omega, ?_, rfl⟩, by simp⟩
    rw [padded_here_ti, termBytes_length]
    show _ ≤ s.cfg.tgtCap
    omega
  case dUsc =>
    obtain ⟨hlt, -⟩ := hread.srcHas rfl 0 (by simp)
    exact ⟨_, exec_dUsc_next.2 ⟨by omega, rfl⟩, by simp⟩
  case dLit b =>
    obtain ⟨hlt, -⟩ := hread.srcHas rfl 0 (by simp)
    exact ⟨_, exec_dLit_next.2 ⟨by omega, rfl⟩, by simp⟩
  case dDrop b => exact ⟨_, exec_dDrop b s, by simp⟩
  case dEob =>
    cases hchk : s.cfg.eobCheck with
    | false => exact ⟨_, exec_dEob_off hchk, fun _ => hti.trans hsi⟩
    | true =>
      refine ⟨_, (exec_dEob_on hchk).trans (congrArg outcome (padchkHere_ok (hsi.trans hslen))), fun _ => ?_⟩
      rw [padded_here_ti]
      omega
  all_goals exact absurd hadm (by simp [Ctx.admits])

/-! ### The encoder's steps -/

/-- After a soft break, if one is due, there is room for the three bytes of the source byte at n. -/
theorem State.InBudget.softBrk_fits {s : State} {n b c k : Nat} (h : s.InBudget n b c) (hk : k ≤ 3)
    (hroom : etl (n + 1) ≤ s.cfg.tgtCap) : ∃ u, Machine.softBrk k s = .ok u ∧ u.ti + 3 ≤ etl (n + 1) := by
  have hstart := h.lineStart
  have hbreaks := h.breaks
  have hout := h.output
  by_cases hc : s.q = false ∧ lineLimit ≤ s.line + k
  · obtain ⟨-, hline⟩ := h.line hc.1
    have hfull := hc.2
    simp only [lineLimit] at hfull
    have hetl := etl_bound (n := n + 1) (b := b + 1) fun _ => by omega
    refine ⟨_, softBrk_break hc (by omega), ?_⟩
    show s.ti + 3 + 3 ≤ _
    omega
  · have hetl := etl_bound (n := n + 1) (b := b) fun _ => by omega
    exact ⟨_, softBrk_none hc, by omega⟩

theorem State.InBudget.symbolOp_fits {s : State} {n b c : Nat} (h : s.InBudget n b c) (hroom : etl (n + 1) ≤ s.cfg.tgtCap)
    (v : Byte) : ∃ t, Machine.symbolOp v s = .ok t ∧ t.ti ≤ etl (n + 1) := by
  obtain ⟨u, hu, hti⟩ := h.softBrk_fits le_rfl hroom
  have hcap := (softBrk_untouched hu).cfg_eq
  exact ⟨_, except_bind_ok_iff.2 ⟨u, hu, emit_map_ok_iff.2 ⟨by rw [hcap]; exact hti.trans hroom, rfl⟩⟩, hti⟩

/-- FLUSHWS stays within what the source bytes before SI pay for. -/
theorem flushWs_fits {s : State} {b c : Nat} (hb : s.InBudget s.si b c) (hc : 0 < b → c < s.si) (hpad : s.PadIsLiteral b c)
    (hroom : etl s.si ≤ s.cfg.tgtCap) : ∃ t, flushWs s = .ok t ∧ t.ti ≤ etl s.si := by
  have hti : s.ti ≤ etl s.si := hb.output.trans <| etl_bound fun hpos => by
    have := hc hpos
    have := hb.breaks
    omega
  by_cases hf : s.flushes
  · rw [flushWs_fires hf (hti.trans hroom)]
    obtain ⟨-, hsi, -, hback⟩ := hpad hf
    have hn : s.si - 1 + 1 = s.si := by omega
    rw [← hn] at hroom ⊢
    exact hback.symbolOp_fits hroom _
  · exact ⟨s, flushWs_none hf (hti.trans hroom), hti⟩

theorem encodeStep_succeeds {s : State} {i : Instr} (hok : s.EncodeOk) (hop : s.op = true) (hsi : s.si ≤ s.slen)
    (htcap : s.tcap ≤ s.cfg.tgtCap) (hf : fetch s = .ok i) :
    ∃ t, exec i s = .next t ∧ (i = .dEob ∨ i = .eEob → t.ti ≤ etl s.slen) := by
  obtain ⟨rest, hread⟩ := fetch_readsAs hf
  have hadm := hread.admits
  rw [State.ctx, if_pos hop] at hadm
  obtain ⟨hcap, b, c, hb, hc, hpad⟩ := (encodeOk_iff s).1 hok
  have hroom : ∀ {n}, n ≤ s.slen → etl n ≤ s.cfg.tgtCap := fun hn => (etl_mono hn).trans (hcap.trans htcap)
  cases i
  case eLit v =>
    obtain ⟨hlt, -⟩ := hread.srcHas rfl 0 (by simp)
    obtain ⟨u, hu, hti⟩ := hb.softBrk_fits (k := 1) (by omega) (hroom hlt)
    refine ⟨_, exec_eLit_next.2 ⟨u, hu, ?_, rfl⟩, by simp⟩
    rw [(softBrk_untouched hu).cfg_eq]
    have := hti.trans (hroom hlt)
    omega
  case eCrlf =>
    obtain ⟨hlt, -⟩ := hread.srcHas rfl 1 (by simp)
    obtain ⟨u, hu, hti⟩ := flushWs_fits hb hc hpad (hroom hsi)
    refine ⟨_, exec_eCrlf_next.2 ⟨u, hu, ?_, rfl⟩, by simp⟩
    rw [(flushWs_untouched hu).cfg_eq]
    have hpay : etl s.si + 2 ≤ etl (s.si + 1 + 1) := by simp only [etl, wrapCols]; omega
    exact (Nat.add_le_add_right hti 2).trans (hpay.trans (hroom hlt))
  case eSym v =>
    obtain ⟨hlt, -⟩ := hread.srcHas rfl 0 (by simp)
    obtain ⟨u, hu, -⟩ := hb.symbolOp_fits (hroom hlt) v
    exact ⟨_, exec_eSym_next.2 ⟨u, hu, rfl⟩, by simp⟩
  case eEob =>
    obtain ⟨u, hu, hti⟩ := flushWs_fits hb hc hpad (hroom hsi)
    exact ⟨_, exec_eEob_next.2 hu, fun _ => hti.trans (etl_mono hsi)⟩
  all_goals exact absurd hadm (by simp [Ctx.admits])

end Sys2Proof.Machine
end

section
/-! Whole commands (spec/43_command.md R160, R165; spec/30_encoding.md R69): the engine's run to DONE, and the host's calls. -/

namespace Sys2Proof.Machine

/-! ### The engine's run -/

/-- The capacity the command in progress needs (R163): ETL(SLEN) to encode, SLEN to decode. -/
def State.need (s : State) : Nat := if s.op then etl s.slen else s.slen

/-- The command in progress in s has ended in DONE in t, with WLEN within the capacity it needed (R165). -/
structure EndsIn (s t : State) : Prop where
  phase : t.phase = stDone
  err : t.err = s.err
  wlen : t.wlen ≤ s.need
  inputs : SameInputs s t
  host : t.host = s.host

theorem Untouched.host_eq {s t : State} (h : Untouched s t) : t.host = s.host := by
  obtain ⟨-, -, -, -, -, -, -, -, hhost, -⟩ := h
  exact hhost

theorem Untouched.need_eq {s t : State} (h : Untouched s t) : t.need = s.need := by
  rw [State.need, h.op_eq, h.slen_eq, State.need]

theorem EndsIn.not_busy {s t : State} (h : EndsIn s t) : t.busy = false := by
  rw [State.busy, h.phase]
  decide

theorem EndsIn.of_untouched {s u t : State} (hu : Untouched s u) (h : EndsIn u t) : EndsIn s t where
  phase := h.phase
  err := h.err.trans (congrArg (BitVec.extractLsb' 2 2) hu.status_eq)
  wlen := hu.need_eq ▸ h.wlen
  inputs := hu.sameInputs.trans h.inputs
  host := h.host.trans hu.host_eq

theorem need_le_tcap {s : State} (hok : s.ScanOk) (hb : s.busy = true) : s.need ≤ s.tcap := by
  obtain ⟨-, -, -, hdec, henc⟩ := hok hb
  unfold State.need
  cases hop : s.op with
  | false => exact (hdec hop).1
  | true => exact (henc hop).1

/-- From a legal state a fetched instruction completes, the end-of-buffer action with TI within the capacity the command needs. -/
theorem scanStep_succeeds {s : State} {i : Instr} (hok : s.ScanOk) (hb : s.busy = true) (hf : fetch s = .ok i) :
    ∃ u, exec i s = .next u ∧ (i = .dEob ∨ i = .eEob → u.ti ≤ s.need) := by
  obtain ⟨hslen, htcap, hsi, hdec, henc⟩ := hok hb
  unfold State.need
  cases hop : s.op with
  | false => exact decodeStep_succeeds (hdec hop) hop hsi hslen htcap hf
  | true => exact encodeStep_succeeds (henc hop) hop hsi htcap hf

/-- The end of ISSUE with the source read and the output within the capacity needed (R165). -/
theorem finish_endsIn {s : State} (hsi : s.si = s.slen) (hti : s.ti ≤ s.need) (hneed : s.need ≤ s.tcap) :
    EndsIn s (finish s) := by
  have hinputs := finish_sameInputs s
  rw [finish_done hsi (hti.trans hneed)] at hinputs ⊢
  exact ⟨s.publish.setPhase_phase stDone, s.publish.setPhase_err stDone, hti, hinputs, rfl⟩

/-- The engine's step from a legal state: it moves SI on by 1 to 3, at most to SLEN, or ends the command in DONE (R215). -/
theorem engineStep_progress {s : State} (hok : s.ScanOk) (hb : s.busy = true) :
    ∃ t, engineStep s = .next t ∧ t.ScanOk ∧
      ((Untouched s t ∧ s.si < t.si ∧ t.si ≤ s.si + 3 ∧ t.si ≤ t.slen) ∨ (s.si = s.slen ∧ EndsIn s t)) := by
  obtain ⟨hslen, -, hsi, -⟩ := hok hb
  obtain ⟨i, hf⟩ : ∃ i, fetch s = .ok i := ⟨_, fetch_ok hslen⟩
  obtain ⟨u, hx, hti⟩ := scanStep_succeeds hok hb hf
  have hu := exec_untouched (fetch_isScan hf) hx
  obtain ⟨rest, hread⟩ := fetch_readsAs hf
  obtain ⟨pre, henc, -⟩ := hread.bytes
  have husi := exec_si (fetch_isScan hf) henc hx
  have hst : engineStep s = .next (if i = .dEob ∨ i = .eEob then finish u else u) := by
    rw [engineStep_of_fetch hb hf, hx, settle_next]
  have hok' := engine_keeps_scanOk hok hb hf (engineStep_of_fetch hb hf ▸ hst)
  refine ⟨_, hst, hok', ?_⟩
  by_cases hi : i = .dEob ∨ i = .eEob
  · rw [if_pos hi]
    have hend : s.si = s.slen := Nat.le_antisymm hsi (slen_le_of_fetch_eob hf hi)
    have hpre : pre = [] := by rcases hi with rfl | rfl <;> cases henc <;> rfl
    refine .inr ⟨hend, .of_untouched hu (finish_endsIn ?_ ?_ ?_)⟩
    · rw [husi, hpre, hu.slen_eq]; exact hend
    · rw [hu.need_eq]; exact hti hi
    · rw [hu.need_eq, hu.tcap_eq]; exact need_le_tcap hok hb
  · rw [if_neg hi] at hok' ⊢
    obtain ⟨hd, he⟩ := not_or.1 hi
    have hlen := encode_length henc hd he
    obtain ⟨-, -, hle, -⟩ := hok' (hu.busy.trans hb)
    exact .inl ⟨hu, by omega, by omega, hle⟩

/-- The host leaves the engine its turn while a command is in progress: it has nothing pending, or waits (log 4). -/
def State.yields (s : State) : Prop := s.host = [] ∨ ∃ rest, s.host = .await :: rest

theorem step_of_yields {s : State} (h : s.yields) (hb : s.busy = true) : step s = engineStep s := by
  rcases h with hh | ⟨rest, hh⟩
  · exact step_of_no_host hh
  · exact step_of_await hh hb

/-- The scan runs to DONE in at most one step for each source byte left and one more (R215). -/
theorem run_scan (n : Nat) {s : State} (hok : s.ScanOk) (hb : s.busy = true) (hy : s.yields) (hn : s.slen - s.si ≤ n) :
    ∃ k t, k ≤ n + 1 ∧ Sys2Proof.core.run k s = .next t ∧ EndsIn s t := by
  induction n generalizing s with
  | zero =>
    obtain ⟨t, hst, -, ⟨hu, hlt, -, hle⟩ | ⟨-, hend⟩⟩ := engineStep_progress hok hb
    · rw [hu.slen_eq] at hle
      omega
    · exact ⟨1, t, le_rfl, run_next ((step_of_yields hy hb).trans hst) 0, hend⟩
  | succ n ih =>
    obtain ⟨u, hst, hok', ⟨hu, hlt, -, -⟩ | ⟨-, hend⟩⟩ := engineStep_progress hok hb
    · have hslen := hu.slen_eq
      obtain ⟨k, t, hk, hrun, hend⟩ := ih hok' (hu.busy.trans hb) (by rw [State.yields, hu.host_eq]; exact hy) (by omega)
      exact ⟨k + 1, t, by omega, (run_next ((step_of_yields hy hb).trans hst) k).trans hrun, .of_untouched hu hend⟩
    · exact ⟨1, u, by omega, run_next ((step_of_yields hy hb).trans hst) 0, hend⟩

/-! ### The host's calls -/

theorem run_add {a : Nat} {s t : State} (h : Sys2Proof.core.run a s = .next t) (b : Nat) :
    Sys2Proof.core.run (a + b) s = Sys2Proof.core.run b t := by
  induction a generalizing s with
  | zero =>
    cases h
    rw [Nat.zero_add]
  | succ a ih =>
    rw [Nat.add_right_comm]
    cases hs : step s with
    | next u =>
      rw [run_next hs] at h ⊢
      exact ih h
    | fault f =>
      have hs' : Sys2Proof.core.step s = .fault f := hs
      simp only [Host.Core.run, hs'] at h
      cases h
    | refused r =>
      have hs' : Sys2Proof.core.step s = .refused r := hs
      simp only [Host.Core.run, hs'] at h
      cases h

/-- The state a call writes its command word in (R69): the bytes loaded, the lengths written, the wait pending. -/
def State.called (bs : List Byte) (n : Nat) (s : State) : State :=
  { s with
    host := [.await]
    src := Memory.writeAll s.src 0 (bs.take s.cfg.srcCap)
    slen := min bs.length (2 ^ s.cfg.idxW - 1)
    tcap := min n (2 ^ s.cfg.idxW - 1) }

/-- The two lengths and the command word of a call are three steps (R69). -/
theorem run_callRegisters {s : State} (hb : s.busy = false) {n m : Nat} (hn : n < 2 ^ s.cfg.idxW) (hm : m < 2 ^ s.cfg.idxW)
    {c : Byte} (hh : s.host = [.writeSlen n, .writeTcap m, .writeCmd c, .await]) :
    Sys2Proof.core.run 3 s = .next (issue c { s with host := [.await], slen := n, tcap := m }) := by
  obtain ⟨hslen, -⟩ := hostWritesChangeOnePlace s _ hb
  obtain ⟨-, htcap, -⟩ :=
    hostWritesChangeOnePlace { s with host := [.writeTcap m, .writeCmd c, .await], slen := n } [.writeCmd c, .await] hb
  have hcmd := step_writeCmd (s := { s with host := [.writeCmd c, .await], slen := n, tcap := m }) rfl
  rw [writeCmd_idle (s := { s with host := [.await], slen := n, tcap := m }) hb] at hcmd
  exact (run_next (hslen n hh hn) 2).trans ((run_next (htcap m rfl hm) 1).trans (run_next hcmd 0))

/-- A call runs to the issue of its command. -/
theorem run_callOps {s : State} (hb : s.busy = false) (hp : s.cfg.wf) (bs : List Byte) (n : Nat) (c : Byte) :
    ∃ k, Sys2Proof.core.run k { s with host := callOps s.cfg bs n c } = .next (issue c (s.called bs n)) := by
  obtain ⟨hslen, -⟩ := callOps_length hp bs.length
  obtain ⟨htcap, -⟩ := callOps_length hp n
  have hload := run_loadSrc (bs.take s.cfg.srcCap) 0 _ { s with host := callOps s.cfg bs n c } hb (by simp) rfl
  refine ⟨_, (run_add hload 3).trans (run_callRegisters ?_ ?_ ?_ rfl)⟩
  exacts [hb, hslen, htcap]

/-- A wait is over when no command is in progress (R69). -/
theorem step_await_over {s : State} {rest : List HostOp} (hh : s.host = .await :: rest) (hb : s.busy = false) :
    step s = .next { s with host := rest } := by
  simp [step, turn, hh, hb, hostMove]

/-- A call whose command, once issued, has run to its end in t ends in t with the wait over. -/
theorem call_ends {s t : State} {bs : List Byte} {n k : Nat} {c : Byte} (hb : s.busy = false) (hp : s.cfg.wf)
    (hrun : Sys2Proof.core.run k (issue c (s.called bs n)) = .next t) (hh : t.host = [.await]) (hbt : t.busy = false) :
    ∃ k, Sys2Proof.core.run k { s with host := callOps s.cfg bs n c } = .next { t with host := [] } := by
  obtain ⟨j, hcall⟩ := run_callOps hb hp bs n c
  exact ⟨j + (k + 1), (run_add hcall _).trans ((run_add hrun 1).trans (run_next (step_await_over hh hbt) 0))⟩

/-- The command word of a call: encode or decode, in either mode (R60). -/
def callWord (e q : Bool) : Byte := if e then encWord q else decWord q

theorem callWord_fields (e q : Bool) : (callWord e q).extractLsb' 2 6 = 0#6 ∧ (callWord e q).getLsbD 0 = e := by
  revert e q; decide

/-- A call's command is accepted when its lengths are within the memories and its capacity is what it needs (R161 to R163). -/
theorem accepts_callWord {s : State} {e : Bool} (q : Bool) (hslen : s.slen ≤ s.cfg.srcCap) (htcap : s.tcap ≤ s.cfg.tgtCap)
    (hneed : (if e then etl s.slen else s.slen) = s.tcap) : Accepts (callWord e q) s := by
  obtain ⟨hres, hop⟩ := callWord_fields e q
  rw [Accepts, hop]
  refine ⟨hres, hslen, htcap, ?_, ?_⟩
  · rintro rfl
    exact hneed.le
  · rintro rfl
    exact hneed.le

/-- Both calls are one sequence, by the operation's capacity and word. -/
theorem call_eq_callOps (p : Params) (e q : Bool) (bs : List Byte) :
    (if e then encodeCall p q bs else decodeCall p q bs) =
      callOps p bs (if e then etl bs.length else bs.length) (callWord e q) := by
  cases e <;> rfl

/-- A call that fits writes all its bytes and its lengths as they are. -/
theorem called_fits {s : State} (hp : s.cfg.wf) {bs : List Byte} {n : Nat} (hs : bs.length ≤ s.cfg.srcCap)
    (ht : n ≤ s.cfg.tgtCap) :
    s.called bs n = { s with host := [.await], src := Memory.writeAll s.src 0 bs, slen := bs.length, tcap := n } := by
  obtain ⟨hsrc, htgt⟩ := hp
  rw [State.called, List.take_of_length_le hs, Nat.min_eq_left (by omega), Nat.min_eq_left (by omega)]

theorem started_err (c : Byte) (s : State) : (s.started c).err = 0#2 :=
  (congrArg (BitVec.extractLsb' 2 2) (started_status c s)).trans (statusWord_err _ _)

/-- SRC after a byte string was loaded at index 0. -/
theorem srcList_of_loaded {s : State} {m : Memory} {bs : List Byte} (h : s.src = Memory.writeAll m 0 bs) :
    s.srcList bs.length = bs := by
  refine List.ext_getElem (by simp [State.srcList]) fun i hi hi' => ?_
  simp [State.srcList, State.srcByte, h, Memory.read_writeAll, hi']

/-- Settles O48: the call runs to its command's issue, the scan to DONE, and the wait is over. -/
theorem hostCallsRunToDone : Obligations.HostCallsRunToDone := by
  intro e q bs s hb hp hs ht
  rw [call_eq_callOps]
  have hfits := called_fits hp hs ht
  generalize hn : (if e then etl bs.length else bs.length) = n at ht hfits ⊢
  have hacc : Accepts (callWord e q) (s.called bs n) := by
    rw [hfits]
    exact accepts_callWord q hs ht hn
  obtain ⟨k, t, -, hrun, hend⟩ := run_scan _ (started_scanOk hacc) (started_busy _ _) (.inr ⟨[], rfl⟩) le_rfl
  rw [← issue_accepted hacc] at hrun
  obtain ⟨k, hcall⟩ := call_ends hb hp hrun hend.host hend.not_busy
  obtain ⟨hsrc, -, hslen, htcap⟩ := hend.inputs
  have hwlen : t.wlen ≤ n := by
    have := hend.wlen
    rwa [State.need, started_op, (callWord_fields e q).2, started_slen, hfits, hn] at this
  have hload : t.src = Memory.writeAll s.src 0 bs := hsrc.trans (congrArg State.src hfits)
  rw [started_slen, hfits] at hslen
  rw [started_tcap, hfits] at htcap
  exact ⟨k, _, hcall, rfl, hend.phase, hend.err.trans (started_err _ _), srcList_of_loaded hload, hslen, htcap,
    hwlen.trans_eq htcap.symm⟩

/-! ### Calls that do not fit -/

theorem raise_phase (s : State) (e : QpError) : (s.raise e).phase = stError :=
  (congrArg (BitVec.extractLsb' 0 2) (State.raise_status s e)).trans (statusWord_phase _ _)

theorem raise_err (s : State) (e : QpError) : (s.raise e).err = e.code :=
  (congrArg (BitVec.extractLsb' 2 2) (State.raise_status s e)).trans (statusWord_err _ _)

/-- A length above its memory is the first of the start checks to fail, or a reserved bit before it (R162). -/
theorem startChecks_too_large {c : Byte} {s : State} (h : s.cfg.srcCap < s.slen ∨ s.cfg.tgtCap < s.tcap) :
    startChecks c s = some .invalidArgument := by
  unfold startChecks
  by_cases hc : c.extractLsb' 2 6 ≠ 0#6
  · rw [if_pos hc]
  rw [if_neg hc]
  by_cases hs : s.cfg.srcCap < s.slen
  · rw [if_pos hs]
  · rw [if_neg hs, if_pos (h.resolve_left hs)]

theorem issue_too_large {s : State} (h : s.cfg.srcCap < s.slen ∨ s.cfg.tgtCap < s.tcap) (c : Byte) :
    issue c s = (s.enterBusy.latch c).raise .invalidArgument := by
  have hchecks : startChecks c (s.enterBusy.latch c) = some .invalidArgument := startChecks_too_large h
  simp only [issue, hchecks]

/-- Settles O56: the lengths written are still above the memories, so the command's start checks fail, and the wait is over. -/
theorem hostCallsThatDoNotFitRaiseInvalidArgument : Obligations.HostCallsThatDoNotFitRaiseInvalidArgument := by
  intro e q bs s hb hp hlarge
  rw [call_eq_callOps]
  obtain ⟨-, hslen, -⟩ := callOps_length hp bs.length
  obtain ⟨-, -, htcap⟩ := callOps_length hp (if e then etl bs.length else bs.length)
  have hissue := issue_too_large (s := s.called bs _) (hlarge.imp hslen htcap) (callWord e q)
  obtain ⟨-, -, -, -, htgt, hepoch, -, hhost⟩ :=
    raise_same (e := .invalidArgument) (by simp) ((s.called bs _).enterBusy.latch (callWord e q))
  obtain ⟨k, hcall⟩ := call_ends hb hp (k := 0) (congrArg _ hissue) hhost (raise_not_busy _ _)
  exact ⟨k, _, hcall, rfl, raise_phase _ _, raise_err _ _, tgtByte_congr htgt hepoch⟩

end Sys2Proof.Machine
end

section
/-! The five tables (spec/40_tables.md R81 to R88). -/

namespace Sys2Proof.Machine

/-! ### Digit characters -/

theorem hexChar_eq_hexDigits (d : BitVec 4) : hexChar d = hexDigits.getD d.toNat 0#8 := by
  revert d; decide

/-- TDEC inverts HEXCHAR, with its sentinel one (R88 c). -/
theorem tdec_hexChar (d : BitVec 4) : tdec (hexChar d) = d.setWidth 8 + 1#8 := by
  revert d; decide

theorem tdec_hexChar_ne_zero (d : BitVec 4) : tdec (hexChar d) ≠ 0#8 := by
  revert d; decide

theorem tlitr_hexChar (d : BitVec 4) : tlitr (hexChar d) = 1#8 := by
  revert d; decide

/-! ### TENC by the digits of its byte -/

theorem exists_tenc_eq_hexChar (i : BitVec 9) : ∃ d, tenc i = hexChar d := by
  unfold tenc
  split
  · exact ⟨_, rfl⟩
  · exact ⟨_, rfl⟩

theorem tencIndex_high (v : Byte) : v.setWidth 9 <<< 1 = BitVec.ofNat 9 (2 * v.toNat) := by
  apply BitVec.eq_of_toNat_eq
  simp only [BitVec.toNat_shiftLeft, BitVec.toNat_setWidth, BitVec.toNat_ofNat, Nat.shiftLeft_eq]
  omega

theorem tencIndex_low (v : Byte) : (v.setWidth 9 <<< 1) + 1#9 = BitVec.ofNat 9 (2 * v.toNat + 1) := by
  rw [tencIndex_high, BitVec.ofNat_add]

theorem tenc_high (v : Byte) : tenc (BitVec.ofNat 9 (2 * v.toNat)) = hexChar (v.extractLsb' 4 4) := by
  have heven : (BitVec.ofNat 9 (2 * v.toNat)).getLsbD 0 = false := by
    rw [BitVec.getLsbD_ofNat, Nat.testBit_zero]
    simp
  have hdigit : (BitVec.ofNat 9 (2 * v.toNat)).extractLsb' 5 4 = v.extractLsb' 4 4 := by
    apply BitVec.eq_of_toNat_eq
    simp only [BitVec.extractLsb'_toNat, BitVec.toNat_ofNat, Nat.shiftRight_eq_div_pow]
    omega
  rw [tenc, heven, hdigit, if_neg Bool.false_ne_true]

theorem tenc_low (v : Byte) : tenc (BitVec.ofNat 9 (2 * v.toNat + 1)) = hexChar (v.extractLsb' 0 4) := by
  have hodd : (BitVec.ofNat 9 (2 * v.toNat + 1)).getLsbD 0 = true := by
    rw [BitVec.getLsbD_ofNat, Nat.testBit_zero]
    simp
  have hdigit : (BitVec.ofNat 9 (2 * v.toNat + 1)).extractLsb' 1 4 = v.extractLsb' 0 4 := by
    apply BitVec.eq_of_toNat_eq
    simp only [BitVec.extractLsb'_toNat, BitVec.toNat_ofNat, Nat.shiftRight_eq_div_pow]
    omega
  rw [tenc, hodd, hdigit, if_pos rfl]

theorem toNat_highDigit (v : Byte) : (v.extractLsb' 4 4).toNat = v.toNat / 16 := by
  simp only [BitVec.extractLsb'_toNat, Nat.shiftRight_eq_div_pow]
  omega

theorem toNat_lowDigit (v : Byte) : (v.extractLsb' 0 4).toNat = v.toNat % 16 := by
  simp [BitVec.extractLsb'_toNat]

/-- A byte is its two digits. -/
theorem digits_add (v : Byte) : (v.extractLsb' 4 4).setWidth 8 <<< 4 + (v.extractLsb' 0 4).setWidth 8 = v := by
  apply BitVec.eq_of_toNat_eq
  simp only [BitVec.toNat_add, BitVec.toNat_shiftLeft, BitVec.toNat_setWidth, toNat_highDigit, toNat_lowDigit, Nat.shiftLeft_eq]
  omega

/-- A symbol's digits decode to the byte it encodes (R88 c). -/
theorem escValue_tenc (v : Byte) : escValue (tenc (v.setWidth 9 <<< 1)) (tenc ((v.setWidth 9 <<< 1) + 1#9)) = v := by
  rw [escValue, tencIndex_low, tencIndex_high, tenc_high, tenc_low, tdec_hexChar, tdec_hexChar]
  simp only [BitVec.add_sub_cancel]
  exact digits_add v

/-! ### The entries as R81 to R86 list them -/

theorem tdec_eq_entries : ∀ c : Byte, tdec c = (tdecEntries.lookup c).getD 0#8 := by decide

theorem tenc_eq_hexDigits (v : Byte) :
    tenc (BitVec.ofNat 9 (2 * v.toNat)) = hexDigits.getD (v.toNat / 16) 0#8 ∧
      tenc (BitVec.ofNat 9 (2 * v.toNat + 1)) = hexDigits.getD (v.toNat % 16) 0#8 := by
  simp only [tenc_high, tenc_low, hexChar_eq_hexDigits, toNat_highDigit, toNat_lowDigit, and_self]

theorem countP_range_mul (p : Nat → Bool) (m n : Nat) :
    (List.range (m * n)).countP p = ((List.range n).map fun r => (List.range m).countP fun i => p (m * r + i)).sum := by
  induction n with
  | zero => rfl
  | succ n ih => simp [Nat.mul_succ, List.range_add, List.range_succ, ih, List.countP_map, Function.comp_def]

/-- A table is counted row by row, 16 entries each, as R86 lists it. -/
theorem entriesWith_eq_rows (p : Byte → Bool) :
    entriesWith p = ((List.range 16).map fun r => (List.range 16).countP fun i => p (BitVec.ofNat 8 (16 * r + i))).sum :=
  countP_range_mul _ 16 16

/-- Settles O1: TENC by the digits of its byte, the other tables entry by entry. -/
theorem tablesMatchTheirListings : Obligations.TablesMatchTheirListings := by
  refine ⟨tdec_eq_entries, tenc_eq_hexDigits, fun c => ⟨?tlit, ?tlegal, ?tlitr⟩, ?lits, ?legals, ?litrs, ?digits⟩
  case tlit => revert c; decide
  case tlegal => revert c; decide
  case tlitr => revert c; decide
  case lits => rw [entriesWith_eq_rows]; decide
  case legals => rw [entriesWith_eq_rows]; decide
  case litrs => rw [entriesWith_eq_rows]; decide
  case digits => rw [entriesWith_eq_rows]; decide

/-! ### The facts the step rules rely on -/

theorem tlegal_of_tlit {c : Byte} (h : tlit c = 1#8) : tlegal c = 1#8 := if_pos (.inl h)

/-- Settles O2: the inclusions (a) by the tables' definitions, (c) and (g) by the digits of TENC, the rest at the bytes named. -/
theorem tableFactsHold : Obligations.TableFactsHold := by
  refine ⟨fun c => ⟨tlit_of_litTab (q := true), tlegal_of_tlit⟩, ?nonDigits, fun i => ?entry, escValue_tenc, ?named⟩
  case nonDigits => decide
  case entry =>
    obtain ⟨d, hd⟩ := exists_tenc_eq_hexChar i
    rw [hd]
    exact ⟨tdec_hexChar_ne_zero d, tlitr_hexChar d⟩
  case named => decide

end Sys2Proof.Machine
end

section
/-! Progress of the engine from a legal state (spec/41_decode.md R112, spec/42_encode.md R151, spec/70_reset_and_hazards.md R215). -/

namespace Sys2Proof.Machine

/-- Settles O43: the engine's step from a legal state, with the engine's turn. -/
theorem engineStepMakesProgress : Obligations.EngineStepMakesProgress := by
  intro s hok hb hh
  obtain ⟨t, hst, -, hcases⟩ := engineStep_progress hok hb
  refine ⟨t, (step_of_no_host hh).trans hst, ?_⟩
  rcases hcases with ⟨hu, hlt, hle, hslen⟩ | ⟨hsi, hend⟩
  · exact .inl ⟨hu.busy.trans hb, hlt, hle, hslen⟩
  · exact .inr ⟨hsi, hend.phase⟩

end Sys2Proof.Machine
end

section
/-! The decoder's instructions one by one (spec/41_decode.md R102 to R109). -/

namespace Sys2Proof.Machine

/-! ### D.ESC, D.LIT, D.USC, D.DROP -/

theorem tdec_le_sixteen : ∀ c : Byte, tdec c ≤ 16#8 := by decide

/-- The escape value as a number: its digits' values are below 16, so nothing carries (R64). -/
theorem escValue_toNat {h g : Byte} (hh : tdec h ≠ 0#8) (hg : tdec g ≠ 0#8) :
    (escValue h g).toNat = 16 * ((tdec h).toNat - 1) + ((tdec g).toNat - 1) := by
  have hh16 := tdec_le_sixteen h
  have hg16 := tdec_le_sixteen g
  unfold escValue
  bv_omega

theorem exec_dEsc_ok {s : State} (hr : s.ti < s.cfg.tgtCap) (h g : Byte) :
    exec (.dEsc h g) s = .next ((s.emitted [escValue h g]).advance 3) :=
  exec_dEsc_next.2 ⟨hr, rfl⟩

/-- Settles O17: one byte is emitted, the escape's value. -/
theorem escapeWritesTheDecodedByte : Obligations.EscapeWritesTheDecodedByte := by
  intro h g s hh hg hr
  have hx := exec_dEsc_ok hr h g
  exact ⟨_, escValue h g, hx, escValue_toNat hh hg, emitted_gets _ s, rfl, rfl, rfl, rfl, exec_untouched rfl hx⟩

/-- D.LIT and D.USC each answer the state with one byte copied. -/
theorem exec_copies {i : Instr} {b : Byte} (hi : i = .dLit b ∨ (i = .dUsc ∧ b = 0x20#8)) {s : State}
    (hr : s.ti < s.cfg.tgtCap) : exec i s = .next (s.copied b) := by
  rcases hi with rfl | ⟨rfl, rfl⟩
  · exact exec_dLit_next.2 ⟨hr, rfl⟩
  · exact exec_dUsc_next.2 ⟨hr, rfl⟩

theorem copied_untouched (b : Byte) (s : State) : Untouched s (s.copied b) := emitted_untouched [b] s

/-- Settles O18: both instructions copy one byte. -/
theorem literalAndUnderscoreWriteOneByte : Obligations.LiteralAndUnderscoreWriteOneByte :=
  fun _ b s hi hr => ⟨_, exec_copies hi hr, emitted_gets [b] s, rfl, rfl, rfl, rfl, copied_untouched b s⟩

/-- Settles O19. -/
theorem dropAdvancesSiOnly : Obligations.DropAdvancesSiOnly := exec_dDrop

/-! ### PADCHK and the instructions that run it -/

/-- PADCHK's answer in R103's words. -/
theorem padSoft_iff (rd : Nat → Byte) (n : Nat) :
    padSoft rd n = true ↔ 0 < padStart rd n ∧ rd (padStart rd n - 1) = bEsc := by
  simp [padSoft]

/-- Settles O20: what PADCHK answers meets R103's words. -/
theorem padchkWalksTheSource : Obligations.PadchkWalksTheSource := fun s hrw =>
  ⟨s.padded, exec_padchk_next.2 ⟨hrw, rfl⟩, padded_result s, padSoft_iff _ _, rfl, rfl, fun _ => rfl, padded_untouched s⟩

/-- PADCHK from SI meets R103's words with SI for RW (R101, R109). -/
theorem padded_here_result (s : State) : PadResult s s.si s.loadRw.padded.rw s.loadRw.padded.ti :=
  padded_result s.loadRw

/-- Settles O21: PADCHK from SI, then SI moves on by the terminator's size. -/
theorem softBreakWritesNothing : Obligations.SoftBreakWritesNothing := by
  intro e s hsi
  have hx : exec (.dSoft e) s = .next (s.loadRw.padded.advance (termSize e)) := exec_dSoft_next.2 ⟨hsi, rfl⟩
  refine ⟨_, hx, padded_here_result s, ?_, rfl, fun _ => rfl, exec_untouched rfl hx⟩
  cases e <;> rfl

theorem terminatorBytes_eq (e : Term) : terminatorBytes e = termBytes e := by cases e <;> rfl

/-- Settles O22: PADCHK from SI lowers TI by padTaken, and the terminator's bytes are emitted there. -/
theorem hardBreakCopiesTheTerminator : Obligations.HardBreakCopiesTheTerminator := by
  intro e s hsi hroom
  rw [terminatorBytes_eq] at hroom ⊢
  rw [← padded_here_ti] at hroom ⊢
  have hx := exec_dHard_next.2 ⟨hsi, hroom, rfl⟩
  refine ⟨_, hx, padded_here_result s, emitted_gets _ s.loadRw.padded, rfl, ?_, rfl, exec_untouched rfl hx⟩
  rw [termBytes_length]
  rfl

/-- Settles O23: D.EOB is PADCHK from SI. -/
theorem endOfBufferChecksPadding : Obligations.EndOfBufferChecksPadding := by
  intro s hchk hsi
  have hx : exec .dEob s = .next s.loadRw.padded := by rw [exec_dEob_on hchk, padchkHere_ok hsi, outcome_ok]
  exact ⟨_, hx, padded_here_result s, rfl, rfl, fun _ => rfl, exec_untouched rfl hx⟩

/-- Settles O24. -/
theorem endOfBufferCheckCanBeOff : Obligations.EndOfBufferCheckCanBeOff := fun _ => exec_dEob_off

end Sys2Proof.Machine
end

section
/-! What a command that ends in DONE went through (spec/43_command.md R160, R165): its issue, steps of the scan, the end-of-buffer
action. -/

namespace Sys2Proof.Machine

theorem step_idle {s : State} (hh : s.host = []) (hb : s.busy = false) : step s = .next s := by
  rw [step_of_no_host hh, engineStep, if_neg (Bool.eq_false_iff.1 hb)]

theorem run_idle {s : State} (hh : s.host = []) (hb : s.busy = false) (k : Nat) : Sys2Proof.core.run k s = .next s := by
  induction k with
  | zero => rfl
  | succ k ih => rw [run_next (step_idle hh hb), ih]

theorem run_succ_eq_next {s t : State} {k : Nat} (h : Sys2Proof.core.run (k + 1) s = .next t) :
    ∃ u, step s = .next u ∧ Sys2Proof.core.run k u = .next t := by
  cases hst : step s with
  | next u => exact ⟨u, rfl, (run_next hst k).symm.trans h⟩
  | fault f =>
    have hst' : Sys2Proof.core.step s = .fault f := hst
    simp [Host.Core.run, hst'] at h
  | refused r =>
    have hst' : Sys2Proof.core.step s = .refused r := hst
    simp [Host.Core.run, hst'] at h

/-- The state a completed command started its scan from. -/
def State.scanStart (c : Byte) (s : State) : State := State.started c { s with host := [] }

/-- A command that ends in DONE passed its start checks, and DONE is reached from the start of its scan. -/
theorem completes_scan {c : Byte} {s t : State} (h : Completes c s t) :
    Accepts c s ∧ t.phase = stDone ∧ ∃ k, Sys2Proof.core.run k (s.scanStart c) = .next t := by
  obtain ⟨hb, k, hrun, hhost, hdone⟩ := h
  cases k with
  | zero =>
    cases hrun
    cases hhost
  | succ k =>
    obtain ⟨u, hst, hrun⟩ := run_succ_eq_next hrun
    rw [step_writeCmd rfl, Host.Outcome.next.injEq, writeCmd_idle (s := { s with host := [] }) hb] at hst
    rcases issue_cases c { s with host := [] } with ⟨hacc, hi⟩ | ⟨-, e, -, hi⟩
    · exact ⟨hacc, hdone, k, by rw [State.scanStart, ← hi, hst]; exact hrun⟩
    · rw [hi] at hst
      rw [← hst, run_idle (State.raise_host _ e) (raise_not_busy e _)] at hrun
      cases hrun
      exact absurd ((raise_phase _ e).symm.trans hdone) (by decide : stError ≠ stDone)

/-- The end-of-buffer action in w answers u, with the source read, and u's output is the command's result in t (R165). -/
structure Concludes (w u t : State) : Prop where
  action : ∃ i, fetch w = .ok i ∧ (i = .dEob ∨ i = .eEob) ∧ exec i w = .next u
  sourceRead : u.si = u.slen
  result : t.tgtList t.wlen = u.tgtList u.ti

theorem finish_host (s : State) : (finish s).host = s.host := by
  by_cases hc : s.si ≠ s.slen ∨ s.tcap < s.ti
  · rw [finish_overflow hc, State.raise_host]
  · rw [finish_done (by omega) (by omega)]
    rfl

theorem finish_done_result {u : State} (h : (finish u).phase = stDone) :
    u.si = u.slen ∧ (finish u).tgtList (finish u).wlen = u.tgtList u.ti := by
  by_cases hc : u.si ≠ u.slen ∨ u.tcap < u.ti
  · rw [finish_overflow hc, raise_phase] at h
    exact absurd h (by decide)
  · have hsi : u.si = u.slen := by omega
    rw [finish_done hsi (by omega)]
    exact ⟨hsi, rfl⟩

/-- What holds at the start of a scan and what every step of the scan keeps holds where the end-of-buffer action concludes it. -/
theorem scan_induction {P : State → Prop}
    (hkeep : ∀ {w u : State} {i : Instr}, P w → fetch w = .ok i → i ≠ .dEob → i ≠ .eEob → exec i w = .next u → P u)
    {k : Nat} {s t : State} (hs : P s) (hb : s.busy = true) (hh : s.host = []) (hrun : Sys2Proof.core.run k s = .next t)
    (hdone : t.phase = stDone) : ∃ w u, P w ∧ Untouched s w ∧ Concludes w u t := by
  induction k generalizing s with
  | zero =>
    cases hrun
    exact absurd (((State.busy_iff _).1 hb).symm.trans hdone) (by decide : stBusy ≠ stDone)
  | succ k ih =>
    obtain ⟨v, hst, hrun⟩ := run_succ_eq_next hrun
    rw [step_of_no_host hh] at hst
    rcases engineStep_cases hst with ⟨-, i, hf, he⟩ | ⟨hb', -⟩
    · obtain ⟨u, hx, hv⟩ := settle_eq_next he
      have hu := exec_untouched (fetch_isScan hf) hx
      by_cases hi : i = .dEob ∨ i = .eEob
      · rw [if_pos hi] at hv
        subst hv
        rw [run_idle ((finish_host u).trans (hu.host_eq.trans hh)) (finish_not_busy u)] at hrun
        cases hrun
        obtain ⟨hsi, hres⟩ := finish_done_result hdone
        exact ⟨s, u, hs, .refl s, ⟨i, hf, hi, hx⟩, hsi, hres⟩
      · rw [if_neg hi] at hv
        obtain ⟨hd, he⟩ := not_or.1 hi
        subst hv
        obtain ⟨w, x, hw, huw, hend⟩ := ih (hkeep hs hf hd he hx) (hu.busy.trans hb) (hu.host_eq.trans hh) hrun
        exact ⟨w, x, hw, hu.trans huw, hend⟩
    · exact absurd hb (by simp [hb'])

end Sys2Proof.Machine
end

section
/-! Byte strings in the memories: the source bytes still to be read, the output so far. -/

namespace Sys2Proof.Machine

/-! ### The source -/

/-- The source bytes from SI on. -/
def State.left (s : State) : List Byte := (List.range (s.slen - s.si)).map fun k => s.srcByte (s.si + k)

theorem window_eq_take (s : State) : window s = s.left.take 3 := by
  rw [window, State.left, ← List.map_take, List.take_range]

theorem left_of_end {s : State} (h : s.slen ≤ s.si) : s.left = [] := by
  simp [State.left, Nat.sub_eq_zero_of_le h]

theorem left_of_start {s : State} (h : s.si = 0) : s.left = s.srcList s.slen := by
  simp [State.left, State.srcList, h]

/-- Moving SI on by n drops n bytes. -/
theorem left_of_advance {s t : State} {n : Nat} (hu : Untouched s t) (hsi : t.si = s.si + n) : t.left = s.left.drop n := by
  refine List.ext_getElem ?_ fun k h1 h2 => ?_
  · simp only [State.left, List.length_map, List.length_range, List.length_drop, hu.slen_eq, hsi]
    omega
  · simp [State.left, hu.srcByte, hsi, Nat.add_assoc]

/-! ### The target -/

@[simp] theorem tgtList_length (s : State) (n : Nat) : (s.tgtList n).length = n := by simp [State.tgtList]

theorem tgtList_take {s : State} {m n : Nat} (h : m ≤ n) : (s.tgtList n).take m = s.tgtList m := by
  rw [State.tgtList, State.tgtList, ← List.map_take, List.take_range, Nat.min_eq_left h]

/-- What the engine writes is appended to the output. -/
theorem emitted_tgtList (bs : List Byte) (s : State) :
    (s.emitted bs).tgtList (s.emitted bs).ti = s.tgtList s.ti ++ bs := by
  refine List.ext_getElem (by simp) fun i h1 h2 => ?_
  have hi : i < s.ti + bs.length := by simpa using h1
  simp only [State.tgtList, List.getElem_map, List.getElem_range, List.getElem_append, List.length_map, List.length_range]
  split
  · rename_i hlt
    exact emitted_old bs s i hlt
  · rename_i hge
    have hk := emitted_new bs s (i - s.ti) (by omega)
    rwa [show s.ti + (i - s.ti) = i by omega] at hk

end Sys2Proof.Machine
end

section
/-! What a byte string decodes to (spec/41_decode.md R101 to R109), as a function of the byte string alone: a run of SP and TAB, and
an `=` before it, is held back until the next token says whether it stays. -/

namespace Sys2Proof.Machine

/-- The held bytes begin with the `=` of a soft line break (R103). -/
def heldIsSoft (held : List Byte) : Bool := held.head? == some bEsc

/-- One more SP or TAB does not change that. -/
theorem heldIsSoft_append_pad {b : Byte} (hb : isPad b = true) (held : List Byte) :
    heldIsSoft (held ++ [b]) = heldIsSoft held := by
  cases held with
  | nil =>
    have hne : b ≠ bEsc := by
      rintro rfl
      exact absurd hb (by decide)
    simp [heldIsSoft, hne]
  | cons a held => rfl

/-- The bytes a token adds for good to the output, given the bytes held before it: D.SOFT and D.HARD drop the held bytes, a SP or
TAB lengthens them, any other token lets them stay. -/
def settled : Instr → List Byte → List Byte
  | .dEsc h g, held => held ++ [escValue h g]
  | .dSoft _, _ => []
  | .dHard e, _ => termBytes e
  | .dUsc, held => held ++ [bSp]
  | .dLit b, held => if isPad b then [] else if b = bEsc then held else held ++ [b]
  | _, held => held

/-- The bytes held after a token. -/
def heldAfter : Instr → List Byte → List Byte
  | .dLit b, held => if isPad b then held ++ [b] else if b = bEsc then [b] else []
  | _, _ => []

@[simp] theorem settled_dEsc (h g : Byte) (held : List Byte) : settled (.dEsc h g) held = held ++ [escValue h g] := rfl
@[simp] theorem settled_dSoft (e : Term) (held : List Byte) : settled (.dSoft e) held = [] := rfl
@[simp] theorem settled_dHard (e : Term) (held : List Byte) : settled (.dHard e) held = termBytes e := rfl
@[simp] theorem settled_dUsc (held : List Byte) : settled .dUsc held = held ++ [bSp] := rfl
@[simp] theorem settled_dDrop (b : Byte) (held : List Byte) : settled (.dDrop b) held = held := rfl

theorem settled_pad {b : Byte} (h : isPad b = true) (held : List Byte) : settled (.dLit b) held = [] := if_pos h
@[simp] theorem settled_esc (held : List Byte) : settled (.dLit bEsc) held = held := rfl
theorem settled_plain {b : Byte} (h : isPlain b = true) (held : List Byte) : settled (.dLit b) held = held ++ [b] := by
  obtain ⟨hp, he⟩ := isPlain_iff.1 h
  exact (if_neg (Bool.eq_false_iff.1 hp)).trans (if_neg he)

@[simp] theorem heldAfter_dEsc (h g : Byte) (held : List Byte) : heldAfter (.dEsc h g) held = [] := rfl
@[simp] theorem heldAfter_dSoft (e : Term) (held : List Byte) : heldAfter (.dSoft e) held = [] := rfl
@[simp] theorem heldAfter_dHard (e : Term) (held : List Byte) : heldAfter (.dHard e) held = [] := rfl
@[simp] theorem heldAfter_dUsc (held : List Byte) : heldAfter .dUsc held = [] := rfl
@[simp] theorem heldAfter_dDrop (b : Byte) (held : List Byte) : heldAfter (.dDrop b) held = [] := rfl

theorem heldAfter_pad {b : Byte} (h : isPad b = true) (held : List Byte) : heldAfter (.dLit b) held = held ++ [b] := if_pos h
@[simp] theorem heldAfter_esc (held : List Byte) : heldAfter (.dLit bEsc) held = [bEsc] := rfl
theorem heldAfter_plain {b : Byte} (h : isPlain b = true) (held : List Byte) : heldAfter (.dLit b) held = [] := by
  obtain ⟨hp, he⟩ := isPlain_iff.1 h
  exact (if_neg (Bool.eq_false_iff.1 hp)).trans (if_neg he)

theorem decodeToken_rest_lt (q soft : Bool) {bs : List Byte} (h : bs ≠ []) :
    (decodeToken q soft bs).2.length < bs.length := by
  have harm := decodeToken_arm q soft bs
  generalize (decodeToken q soft bs).1 = i, (decodeToken q soft bs).2 = rest at harm
  cases harm with
  | eob => exact absurd rfl h
  | escape => simp only [List.length_cons]; omega
  | @terminator e =>
    have := termSize_pos e
    rw [List.length_append, termBytes_length]
    omega
  | byte => simp

/-- What bs decodes to after the bytes held before it; at the end of the buffer the held bytes go if EOB_CHECK says so (R109). -/
def decoded (q eob : Bool) (held bs : List Byte) : List Byte :=
  if _ : bs = [] then if eob then [] else held
  else
    settled (decodeToken q (heldIsSoft held) bs).1 held ++
      decoded q eob (heldAfter (decodeToken q (heldIsSoft held) bs).1 held) (decodeToken q (heldIsSoft held) bs).2
termination_by bs.length
decreasing_by exact decodeToken_rest_lt _ _ ‹_›

theorem decoded_nil (q eob : Bool) (held : List Byte) : decoded q eob held [] = if eob then [] else held := by
  rw [decoded, dif_pos rfl]

theorem decoded_of_token {q eob : Bool} {held bs rest : List Byte} {i : Instr} (hbs : bs ≠ [])
    (h : decodeToken q (heldIsSoft held) bs = (i, rest)) :
    decoded q eob held bs = settled i held ++ decoded q eob (heldAfter i held) rest := by
  rw [decoded, dif_neg hbs, h]

theorem decoded_escape {h g : Byte} (hh : tdec h ≠ 0#8) (hg : tdec g ≠ 0#8) (q eob : Bool) (held rest : List Byte) :
    decoded q eob held (bEsc :: h :: g :: rest) = held ++ escValue h g :: decoded q eob [] rest := by
  rw [decoded_of_token (by simp) (decodeToken_escape hh hg _ _ _)]
  simp

theorem decoded_terminator {e : Term} {rest : List Byte} (h : e = .cr → rest.head? ≠ some bLf) (q eob : Bool)
    (held : List Byte) :
    decoded q eob held (termBytes e ++ rest) =
      (if heldIsSoft held then [] else termBytes e) ++ decoded q eob [] rest := by
  rw [decoded_of_token (by cases e <;> simp [termBytes]) (decodeToken_terminator h _ _), breakToken]
  split <;> rfl

theorem decoded_byte {b : Byte} {rest : List Byte} (hesc : escapeAt (b :: rest) = none) (hcr : b ≠ bCr) (hlf : b ≠ bLf)
    (q eob : Bool) (held : List Byte) :
    decoded q eob held (b :: rest) =
      settled (byteToken q b) held ++ decoded q eob (heldAfter (byteToken q b) held) rest :=
  decoded_of_token (by simp) (decodeToken_byte hesc hcr hlf _ _)

theorem ne_esc_of_tlit {b : Byte} (h : tlit b = 1#8) : b ≠ bEsc := by
  rintro rfl
  exact absurd h (by decide)

/-- A literal of standard mode is a literal of the decoder in both modes. -/
theorem byteToken_literal {b : Byte} (h : tlit b = 1#8) (q : Bool) : byteToken q b = .dLit b := by
  have husc : b ≠ bUsc := by
    rintro rfl
    exact absurd h (by decide)
  simp [byteToken, husc, tlegal_of_tlit h]

theorem decoded_literal {b : Byte} (h : tlit b = 1#8) (q eob : Bool) (held rest : List Byte) :
    decoded q eob held (b :: rest) = settled (.dLit b) held ++ decoded q eob (heldAfter (.dLit b) held) rest := by
  obtain ⟨hcr, hlf⟩ := not_terminator_of_legal (tlegal_of_tlit h)
  rw [decoded_byte (escapeAt_of_ne (ne_esc_of_tlit h) _) hcr hlf, byteToken_literal h]

/-- A SP or TAB is held. -/
theorem decoded_pad {b : Byte} (hb : isPad b = true) (q eob : Bool) (held rest : List Byte) :
    decoded q eob held (b :: rest) = decoded q eob (held ++ [b]) rest := by
  have hlit : tlit b = 1#8 := by
    rcases (isPad_iff b).1 hb with rfl | rfl <;> decide
  rw [decoded_literal hlit, settled_pad hb, heldAfter_pad hb, List.nil_append]

end Sys2Proof.Machine
end

section
/-! A decode command that ends in DONE leaves what its source decodes to (spec/41_decode.md R100 to R109). -/

namespace Sys2Proof.Machine

/-! ### The window is enough -/

/-- The token at SI is decided by the first three bytes (R42). -/
theorem decodeToken_take (q soft : Bool) (bs : List Byte) :
    (decodeToken q soft (bs.take 3)).1 = (decodeToken q soft bs).1 := by
  have harm := decodeToken_arm q soft bs
  generalize (decodeToken q soft bs).1 = i, (decodeToken q soft bs).2 = rest at harm
  cases harm with
  | eob => rfl
  | escape hh hg => exact congrArg Prod.fst (decodeToken_escape hh hg q soft _)
  | @terminator e rest h =>
    obtain ⟨n, htake⟩ : ∃ n, (termBytes e ++ rest).take 3 = termBytes e ++ rest.take (n + 1) := by
      cases e
      · exact ⟨0, rfl⟩
      · exact ⟨1, rfl⟩
      · exact ⟨1, rfl⟩
    rw [htake, decodeToken_terminator]
    rwa [List.head?_take, if_neg (by omega)]
  | @byte b rest hesc hcr hlf =>
    have hesc' : escapeAt (b :: rest.take 2) = none := by
      cases he : escapeAt (b :: rest.take 2) with
      | none => rfl
      | some x =>
        obtain ⟨h, g, r⟩ := x
        obtain ⟨hbs, hh, hg⟩ := escapeAt_eq_some he
        obtain ⟨rfl, hr⟩ := List.cons.inj hbs
        rw [← List.take_append_drop 2 rest, hr] at hesc
        simp [escapeAt, hh, hg] at hesc
    rw [List.take_succ_cons, decodeToken_byte hesc' hcr hlf]

/-- The instruction fetched in a decode command is the token of the source bytes from SI on. -/
theorem fetch_eq_token {s : State} {i : Instr} (hop : s.op = false) (h : fetch s = .ok i) :
    i = (decodeToken s.q (padSoft s.srcByte s.si) s.left).1 := by
  obtain ⟨rest, hd⟩ := decode_of_fetch h
  rw [State.ctx, hop, if_neg (by simp), window_eq_take] at hd
  rw [← decodeToken_take]
  exact (congrArg Prod.fst (Except.ok.inj hd)).symm

/-! ### The output so far -/

/-- The output of s is what has been settled, out, and after it the bytes that PADCHK would take out at SI. -/
structure Decoding (s : State) (out held : List Byte) : Prop where
  output : s.tgtList s.ti = out ++ held
  taken : s.padTaken = held.length
  soft : padSoft s.srcByte s.si = heldIsSoft held

theorem Decoding.ti {s : State} {out held : List Byte} (h : Decoding s out held) : s.ti = out.length + held.length := by
  have := congrArg List.length h.output
  simpa using this

/-- After a plain byte nothing is held. -/
theorem decoding_after_plain {s : State} {out : List Byte} {n : Nat} (hout : s.tgtList s.ti = out) (hsi : s.si = n + 1)
    (hb : isPlain (s.srcByte n) = true) : Decoding s out [] := by
  obtain ⟨hp, he⟩ := isPlain_iff.1 hb
  refine ⟨by simpa using hout, ?_, ?_⟩
  · rw [padTaken_of_not_pad hsi hp, if_neg he]
    rfl
  · rw [hsi, padSoft_succ_of_not_pad hp]
    simpa [heldIsSoft] using he

/-- PADCHK at SI takes out the held bytes. -/
theorem Decoding.padded {s : State} {out held : List Byte} (h : Decoding s out held) :
    s.loadRw.padded.tgtList s.loadRw.padded.ti = out := by
  have hti := h.ti
  rw [padded_here_ti, h.taken]
  change s.tgtList _ = out
  rw [← tgtList_take (Nat.sub_le s.ti held.length), h.output, hti, Nat.add_sub_cancel, List.take_left']
  rfl

/-- D.LIT: SP and TAB lengthen what is held, `=` begins it anew, any other byte ends it. -/
theorem Decoding.literal {s : State} {out held : List Byte} (h : Decoding s out held) {b : Byte} (hb : s.srcByte s.si = b) :
    Decoding (s.copied b) (out ++ settled (.dLit b) held) (heldAfter (.dLit b) held) := by
  have hout : (s.copied b).tgtList (s.copied b).ti = out ++ held ++ [b] := by
    rw [← h.output]
    exact emitted_tgtList [b] s
  by_cases hp : isPad b = true
  · have hpad : isPad (s.srcByte s.si) = true := hb ▸ hp
    rw [settled_pad hp, heldAfter_pad hp, List.append_nil]
    refine ⟨by rw [hout, List.append_assoc], ?_, ?_⟩
    · rw [padTaken_succ_of_pad (copied_si b s) (copied_srcByte b s) hpad, h.taken]
      simp
    · rw [copied_si, copied_srcByte, padSoft_succ_of_pad hpad, h.soft, heldIsSoft_append_pad hp]
  · rw [Bool.not_eq_true] at hp
    have hlast : (s.copied b).srcByte s.si = b := hb
    by_cases he : b = bEsc
    · subst he
      rw [settled_esc, heldAfter_esc]
      refine ⟨hout, ?_, ?_⟩
      · rw [padTaken_of_not_pad (copied_si _ s) (hlast ▸ hp), if_pos hlast]
        rfl
      · rw [copied_si, padSoft_succ_of_not_pad (hlast ▸ hp), hlast]
        rfl
    · have hplain : isPlain b = true := isPlain_iff.2 ⟨hp, he⟩
      rw [settled_plain hplain, heldAfter_plain hplain]
      exact decoding_after_plain (hout.trans (List.append_assoc ..)) (copied_si b s) (hlast ▸ hplain)

/-- A token's step settles and holds what the token says. -/
theorem Decoding.step {s t : State} {out held : List Byte} {i : Instr} (h : Decoding s out held) (hop : s.op = false)
    (hf : fetch s = .ok i) (hi : i ≠ .dEob) (hx : exec i s = .next t) :
    Decoding t (out ++ settled i held) (heldAfter i held) := by
  obtain ⟨rest, hread⟩ := fetch_readsAs hf
  have hwf := hread.wf
  have hadm := hread.admits
  rw [State.ctx, hop, if_neg (by simp)] at hadm
  cases i
  case dEsc a b =>
    obtain ⟨-, hb⟩ : tdec a ≠ 0#8 ∧ tdec b ≠ 0#8 := by simpa [Instr.wf] using hwf
    obtain ⟨-, hsrc⟩ := hread.srcHas rfl 2 (by simp)
    obtain ⟨-, rfl⟩ := exec_dEsc_next.1 hx
    refine decoding_after_plain (n := s.si + 2) ?_ rfl ((congrArg isPlain hsrc).trans (isPlain_of_hexDigit hb))
    exact (emitted_tgtList _ s).trans (by rw [h.output, List.append_assoc]; rfl)
  case dSoft e =>
    obtain ⟨-, hb⟩ := plain_at_end_of_term (hread.srcHas rfl)
    have hpos := termSize_pos e
    obtain ⟨-, rfl⟩ := exec_dSoft_next.1 hx
    refine decoding_after_plain (n := s.si + termSize e - 1) ?_ ?_ hb
    · exact h.padded.trans (by simp)
    · simp only [State.advance_si, padded_si, State.loadRw_si]; omega
  case dHard e =>
    obtain ⟨-, hb⟩ := plain_at_end_of_term (hread.srcHas rfl)
    have hpos := termSize_pos e
    obtain ⟨-, -, rfl⟩ := exec_dHard_next.1 hx
    refine decoding_after_plain (n := s.si + termSize e - 1) ?_ ?_ hb
    · exact (emitted_tgtList _ s.loadRw.padded).trans (by rw [h.padded]; rfl)
    · simp only [State.advance_si, emitted_si, padded_si, State.loadRw_si]; omega
  case dUsc =>
    obtain ⟨-, hsrc⟩ := hread.srcHas rfl 0 (by simp)
    obtain ⟨-, rfl⟩ := exec_dUsc_next.1 hx
    refine decoding_after_plain (n := s.si) ?_ rfl ((congrArg isPlain hsrc).trans (by decide))
    exact (emitted_tgtList _ s).trans (by rw [h.output, List.append_assoc]; rfl)
  case dLit b =>
    obtain ⟨-, hsrc⟩ := hread.srcHas rfl 0 (by simp)
    obtain ⟨-, rfl⟩ := exec_dLit_next.1 hx
    exact h.literal hsrc
  case dDrop b =>
    obtain ⟨⟨hill, -⟩, -⟩ : (tlegal b ≠ 1#8 ∧ b ≠ bCr) ∧ b ≠ bLf := by simpa [Instr.wf] using hwf
    obtain ⟨-, hsrc⟩ := hread.srcHas rfl 0 (by simp)
    rw [exec_dDrop] at hx
    cases hx
    exact decoding_after_plain (n := s.si) h.output rfl ((congrArg isPlain hsrc).trans (isPlain_of_illegal hill))
  case dEob => exact absurd rfl hi
  all_goals exact absurd hadm (by simp [Ctx.admits])

/-! ### The result -/

/-- The scan will end with the output res: what has been settled, and what the rest of the source decodes to. -/
def State.WillDecodeTo (res : List Byte) (s : State) : Prop :=
  s.op = false ∧ ∃ out held, Decoding s out held ∧ out ++ decoded s.q s.cfg.eobCheck held s.left = res

theorem scanStart_willDecodeTo (q : Bool) (s : State) :
    (s.scanStart (decWord q)).WillDecodeTo (decoded q s.cfg.eobCheck [] (s.srcList s.slen)) := by
  refine ⟨by cases q <;> rfl, [], [], ⟨rfl, rfl, rfl⟩, ?_⟩
  rw [left_of_start rfl, show (s.scanStart (decWord q)).q = q by cases q <;> rfl]
  rfl

/-- A step of the scan does not change what the scan will end with. -/
theorem State.WillDecodeTo.step {res : List Byte} {s t : State} {i : Instr} (h : s.WillDecodeTo res) (hf : fetch s = .ok i)
    (hi : i ≠ .dEob) (hx : exec i s = .next t) : t.WillDecodeTo res := by
  obtain ⟨hop, out, held, hdec, hres⟩ := h
  have hscan := fetch_isScan hf
  have hu := exec_untouched hscan hx
  have htok := fetch_eq_token hop hf
  rw [hdec.soft] at htok
  have hleft : s.left ≠ [] := by
    intro hnil
    rw [hnil] at htok
    exact hi htok
  obtain ⟨pre, henc, hbytes⟩ := (decodeToken_readsAs s.q (heldIsSoft held) s.left).bytes
  rw [← htok] at henc
  have hrest : t.left = (decodeToken s.q (heldIsSoft held) s.left).2 := by
    rw [left_of_advance hu (exec_si hscan henc hx), hbytes, List.drop_left' rfl, ← hbytes]
  refine ⟨hu.op_eq.trans hop, _, _, hdec.step hop hf hi hx, ?_⟩
  rw [hu.q_eq, hu.cfg_eq, hrest, ← hres, List.append_assoc,
    decoded_of_token (i := i) hleft (Prod.ext htok.symm rfl)]

/-- At the end of the buffer that is the output after the end-of-buffer action. -/
theorem State.WillDecodeTo.conclude {res : List Byte} {w u t : State} (h : w.WillDecodeTo res) (hend : Concludes w u t) :
    t.tgtList t.wlen = res := by
  obtain ⟨hop, out, held, hdec, hres⟩ := h
  obtain ⟨i, hf, hi, hx⟩ := hend.action
  have hleft := left_of_end (slen_le_of_fetch_eob hf hi)
  obtain rfl : i = .dEob := by
    rw [fetch_eq_token hop hf, hleft]
    rfl
  rw [hend.result, ← hres, hleft, decoded_nil]
  rcases exec_dEob_next hx with ⟨hchk, rfl⟩ | ⟨hchk, -, rfl⟩
  · simpa [hchk] using hdec.output
  · simpa [hchk] using hdec.padded

/-- A decode command that ends in DONE leaves in TGT what its source decodes to. -/
theorem decode_result {q : Bool} {s t : State} (h : Completes (decWord q) s t) :
    t.tgtList t.wlen = decoded q s.cfg.eobCheck [] (s.srcList s.slen) := by
  obtain ⟨-, hdone, k, hrun⟩ := completes_scan h
  obtain ⟨w, u, hw, -, hend⟩ := scan_induction (fun hw hf hd _ hx => hw.step hf hd hx) (scanStart_willDecodeTo q s)
    (started_busy _ _) rfl hrun hdone
  exact hw.conclude hend

end Sys2Proof.Machine
end

section
/-! Two facts of what a byte string decodes to (spec/41_decode.md R113, R114): the mode changes underscores only, and padding before
a CR LF changes nothing. -/

namespace Sys2Proof.Machine

/-- Induction over a byte string token by token, as the decoder reads it (R63). -/
theorem token_induction {motive : List Byte → Prop} (nil : motive [])
    (escape : ∀ {h g rest}, tdec h ≠ 0#8 → tdec g ≠ 0#8 → motive rest → motive (bEsc :: h :: g :: rest))
    (terminator : ∀ {e rest}, (e = .cr → rest.head? ≠ some bLf) → motive rest → motive (termBytes e ++ rest))
    (byte : ∀ {b rest}, escapeAt (b :: rest) = none → b ≠ bCr → b ≠ bLf → motive rest → motive (b :: rest))
    (bs : List Byte) : motive bs := by
  induction hn : bs.length using Nat.strong_induction_on generalizing bs with
  | _ n ih =>
    subst hn
    have harm := decodeToken_arm false false bs
    have hrec : bs ≠ [] → motive (decodeToken false false bs).2 := fun hbs =>
      ih _ (decodeToken_rest_lt false false hbs) _ rfl
    generalize (decodeToken false false bs).1 = i, (decodeToken false false bs).2 = rest at harm hrec
    cases harm with
    | eob => exact nil
    | escape hh hg => exact escape hh hg (hrec (by simp))
    | @terminator e _ h => exact terminator h (hrec (by cases e <;> simp [termBytes]))
    | byte hesc hcr hlf => exact byte hesc hcr hlf (hrec (by simp))

/-! ### DEC and DECQ -/

/-- Where DEC has a, DECQ has b: the same byte, or SP for `_` (R114). -/
def SameOrUnderscore (a b : Byte) : Prop := b = a ∨ (a = bUsc ∧ b = bSp)

theorem forall₂_sameOrUnderscore_refl (bs : List Byte) : List.Forall₂ SameOrUnderscore bs bs :=
  List.forall₂_same.2 fun _ _ => .inl rfl

/-- A byte that is a token of its own settles the same bytes in both modes, but for `_`, and holds the same. -/
theorem byteToken_modes (b : Byte) (held : List Byte) :
    List.Forall₂ SameOrUnderscore (settled (byteToken false b) held) (settled (byteToken true b) held) ∧
      heldAfter (byteToken false b) held = heldAfter (byteToken true b) held := by
  by_cases hb : b = bUsc
  · subst hb
    exact ⟨List.rel_append (forall₂_sameOrUnderscore_refl held) (.cons (.inr ⟨rfl, rfl⟩) .nil), rfl⟩
  · have hsame : byteToken false b = byteToken true b := by simp [byteToken, hb]
    rw [hsame]
    exact ⟨forall₂_sameOrUnderscore_refl _, rfl⟩

theorem decoded_modes (eob : Bool) (held bs : List Byte) :
    List.Forall₂ SameOrUnderscore (decoded false eob held bs) (decoded true eob held bs) := by
  induction bs using token_induction generalizing held with
  | nil =>
    rw [decoded_nil, decoded_nil]
    exact forall₂_sameOrUnderscore_refl _
  | escape hh hg ih =>
    rw [decoded_escape hh hg, decoded_escape hh hg]
    exact List.rel_append (forall₂_sameOrUnderscore_refl held) (.cons (.inl rfl) (ih []))
  | terminator h ih =>
    rw [decoded_terminator h, decoded_terminator h]
    exact List.rel_append (forall₂_sameOrUnderscore_refl _) (ih [])
  | @byte b _ hesc hcr hlf ih =>
    obtain ⟨hset, hheld⟩ := byteToken_modes b held
    rw [decoded_byte hesc hcr hlf, decoded_byte hesc hcr hlf, hheld]
    exact List.rel_append hset (ih _)

/-- Settles O54: both results are what the one source decodes to, in the two modes. -/
theorem decqDiffersFromDecInUnderscoresOnly : Obligations.DecqDiffersFromDecInUnderscoresOnly := by
  intro s t t' h h'
  have hmodes := decoded_modes s.cfg.eobCheck [] (s.srcList s.slen)
  rw [← decode_result (q := false) h, ← decode_result (q := true) h'] at hmodes
  obtain ⟨hlen, hbytes⟩ := List.forall₂_iff_get.1 hmodes
  rw [tgtList_length, tgtList_length] at hlen
  refine ⟨hlen.symm, fun i hi => ?_⟩
  have hbyte := hbytes i (by simpa using hi) (by simpa [← hlen] using hi)
  simpa [SameOrUnderscore, State.tgtList] using hbyte

/-! ### Padding before CR LF -/

theorem Padded.of_not_pad {c : Byte} {bs bs' : List Byte} (hc : isPad c = false) (h : Padded bs (c :: bs')) :
    ∃ bs₀, bs = c :: bs₀ ∧ Padded bs₀ bs' := by
  cases h with
  | same _ h => exact ⟨_, rfl, h⟩
  | pad _ hp _ => simp [hc] at hp

theorem Padded.of_ne_cr {c : Byte} {bs bs' : List Byte} (hc : c ≠ bCr) (h : Padded (c :: bs) bs') :
    ∃ bs₀', bs' = c :: bs₀' ∧ Padded bs bs₀' := by
  cases h with
  | same _ h => exact ⟨_, rfl, h⟩
  | pad => exact absurd rfl hc

/-- No padding goes in before an LF that follows none. -/
theorem Padded.head_lf {bs bs' : List Byte} (h : Padded bs bs') (hlf : bs.head? = some bLf) : bs'.head? = some bLf := by
  obtain ⟨bs₀, rfl⟩ := List.head?_eq_some_iff.1 hlf
  obtain ⟨_, rfl, -⟩ := h.of_ne_cr (by decide)
  rfl

theorem Padded.of_termBytes {e : Term} {bs rest : List Byte} (h : Padded bs (termBytes e ++ rest)) :
    ∃ bs₀, bs = termBytes e ++ bs₀ ∧ Padded bs₀ rest := by
  cases e with
  | crlf =>
    obtain ⟨_, rfl, hlf⟩ := h.of_not_pad (by decide)
    obtain ⟨_, rfl, hrest⟩ := hlf.of_not_pad (by decide)
    exact ⟨_, rfl, hrest⟩
  | cr => exact h.of_not_pad (by decide)
  | lf => exact h.of_not_pad (by decide)

theorem not_pad_of_hexDigit {b : Byte} (h : tdec b ≠ 0#8) : isPad b = false :=
  (isPlain_iff.1 (isPlain_of_hexDigit h)).1

theorem ne_cr_of_hexDigit {b : Byte} (h : tdec b ≠ 0#8) : b ≠ bCr := by
  rintro rfl
  exact h (by decide)

/-- Padding makes no escape out of an escape's bytes and none out of others: it goes in before a CR, which is no hex digit. -/
theorem Padded.escapeAt_eq_none {b : Byte} {bs bs' : List Byte} (h : Padded bs bs') (hesc : escapeAt (b :: bs') = none) :
    escapeAt (b :: bs) = none := by
  cases he : escapeAt (b :: bs) with
  | none => rfl
  | some x =>
    obtain ⟨d, g, rest⟩ := x
    obtain ⟨hbs, hd, hg⟩ := escapeAt_eq_some he
    obtain ⟨rfl, rfl⟩ := List.cons.inj hbs
    obtain ⟨_, rfl, htail⟩ := h.of_ne_cr (ne_cr_of_hexDigit hd)
    obtain ⟨_, rfl, -⟩ := htail.of_ne_cr (ne_cr_of_hexDigit hg)
    simp [escapeAt, hd, hg] at hesc

/-- SP and TAB before CR LF are held and dropped with what was held before them (R113 b). -/
theorem decoded_padded (q eob : Bool) {bs bs' : List Byte} (h : Padded bs bs') (held : List Byte) :
    decoded q eob held bs' = decoded q eob held bs := by
  induction bs' using token_induction generalizing bs held with
  | nil => cases h; rfl
  | escape hh hg ih =>
    obtain ⟨_, rfl, hdigits⟩ := h.of_not_pad (by decide)
    obtain ⟨_, rfl, hdigit⟩ := hdigits.of_not_pad (not_pad_of_hexDigit hh)
    obtain ⟨_, rfl, hrest⟩ := hdigit.of_not_pad (not_pad_of_hexDigit hg)
    rw [decoded_escape hh hg, decoded_escape hh hg, ih hrest]
  | terminator hcr ih =>
    obtain ⟨_, rfl, hrest⟩ := h.of_termBytes
    rw [decoded_terminator hcr, decoded_terminator fun he hlf => hcr he (hrest.head_lf hlf), ih hrest]
  | @byte b rest hesc hcr hlf ih =>
    cases h with
    | same _ h => rw [decoded_byte hesc hcr hlf, decoded_byte (h.escapeAt_eq_none hesc) hcr hlf, ih h]
    | @pad _ bs₀ _ hp h =>
      have hpair : bCr :: bLf :: bs₀ = termBytes .crlf ++ bs₀ := rfl
      rw [decoded_pad hp, ih h, hpair, decoded_terminator (by simp), decoded_terminator (by simp), heldIsSoft_append_pad hp]

/-- Settles O53: both results are what their sources decode to. -/
theorem decodeIgnoresTransportPadding : Obligations.DecodeIgnoresTransportPadding := by
  intro q s s' t t' hchk hpad h h'
  rw [decode_result h, decode_result h', hchk, decoded_padded q _ hpad]

end Sys2Proof.Machine
end

section
/-! What an encode command writes (spec/42_encode.md R130 to R138): a byte string built from literals, symbols, soft and hard line
breaks. -/

namespace Sys2Proof.Machine

/-- The byte string ends with a SP or TAB, which FLUSHWS would take back (R137). -/
def EndsInPad (bs : List Byte) : Prop := ∃ pre b, bs = pre ++ [b] ∧ isPad b = true

/-- enc is made of the source's bytes in order: a literal stands for itself, a symbol for its byte, a soft break for nothing, a hard
break, which follows no SP or TAB, for CR LF. -/
inductive EncodesAs (q : Bool) : List Byte → List Byte → Prop where
  | nil : EncodesAs q [] []
  | literal {src enc : List Byte} {b : Byte} (hb : litTab q b = 1#8) (h : EncodesAs q src enc) :
      EncodesAs q (src ++ [b]) (enc ++ [b])
  | symbol {src enc : List Byte} (v : Byte) (h : EncodesAs q src enc) : EncodesAs q (src ++ [v]) (enc ++ symbolBytes v)
  | softBreak {src enc : List Byte} (hq : q = false) (h : EncodesAs q src enc) : EncodesAs q src (enc ++ softBreakBytes)
  | hardBreak {src enc : List Byte} (hq : q = false) (hpad : ¬ EndsInPad enc) (h : EncodesAs q src enc) :
      EncodesAs q (src ++ hardBreakBytes) (enc ++ hardBreakBytes)

/-! ### Decoding it -/

theorem tdec_tenc_ne_zero (i : BitVec 9) : tdec (tenc i) ≠ 0#8 := by
  obtain ⟨d, hd⟩ := exists_tenc_eq_hexChar i
  rw [hd]
  exact tdec_hexChar_ne_zero d

/-- A symbol decodes to its byte (R88 d). -/
theorem decoded_symbol (v : Byte) (q eob : Bool) (held rest : List Byte) :
    decoded q eob held (symbolBytes v ++ rest) = held ++ v :: decoded q eob [] rest := by
  refine (decoded_escape (tdec_tenc_ne_zero _) (tdec_tenc_ne_zero _) q eob held rest).trans ?_
  rw [escValue_tenc]

/-- A soft line break decodes to nothing: its `=` is a literal that the CR LF takes out. -/
theorem decoded_softBreak (q eob : Bool) (held rest : List Byte) :
    decoded q eob held (softBreakBytes ++ rest) = held ++ decoded q eob [] rest := by
  have hesc : escapeAt (bEsc :: (termBytes .crlf ++ rest)) = none := by
    simp [escapeAt, termBytes, show tdec bCr = 0#8 by decide]
  have htok : byteToken q bEsc = .dLit bEsc := by cases q <;> rfl
  refine (decoded_byte hesc (by decide) (by decide) q eob held).trans ?_
  rw [htok, settled_esc, heldAfter_esc, decoded_terminator (by simp), show heldIsSoft [bEsc] = true from rfl]
  rfl

/-- Decoding reads an encoding back, up to the SP and TAB at its end, which it holds. -/
theorem EncodesAs.decodes {q : Bool} {src enc : List Byte} (h : EncodesAs q src enc) :
    ∃ out held, src = out ++ held ∧ (¬ EndsInPad enc → held = []) ∧
      ∀ eob rest, decoded q eob [] (enc ++ rest) = out ++ decoded q eob held rest := by
  induction h with
  | nil => exact ⟨[], [], rfl, fun _ => rfl, fun _ _ => rfl⟩
  | @literal src enc b hb _ ih =>
    obtain ⟨out, held, rfl, -, hdec⟩ := ih
    have hlit := tlit_of_litTab hb
    have hstep : ∀ eob rest, decoded q eob [] (enc ++ [b] ++ rest) =
        out ++ (settled (.dLit b) held ++ decoded q eob (heldAfter (.dLit b) held) rest) := fun eob rest => by
      rw [List.append_assoc, hdec, List.singleton_append, decoded_literal hlit]
    by_cases hp : isPad b = true
    · simp only [settled_pad hp, heldAfter_pad hp] at hstep
      exact ⟨out, held ++ [b], List.append_assoc .., fun hend => absurd ⟨enc, b, rfl, hp⟩ hend, hstep⟩
    · have hplain : isPlain b = true := isPlain_iff.2 ⟨Bool.eq_false_iff.2 hp, ne_esc_of_tlit hlit⟩
      simp only [settled_plain hplain, heldAfter_plain hplain] at hstep
      exact ⟨out ++ held ++ [b], [], by simp, fun _ => rfl, fun eob rest => by rw [hstep]; simp⟩
  | symbol v _ ih =>
    obtain ⟨out, held, rfl, -, hdec⟩ := ih
    exact ⟨out ++ held ++ [v], [], by simp, fun _ => rfl, fun eob rest => by
      simp [List.append_assoc, hdec, decoded_symbol]⟩
  | softBreak _ _ ih =>
    obtain ⟨out, held, rfl, -, hdec⟩ := ih
    exact ⟨out ++ held, [], by simp, fun _ => rfl, fun eob rest => by
      simp [List.append_assoc, hdec, decoded_softBreak]⟩
  | hardBreak _ hpad _ ih =>
    obtain ⟨out, held, rfl, hheld, hdec⟩ := ih
    obtain rfl := hheld hpad
    refine ⟨out ++ hardBreakBytes, [], by simp, fun _ => rfl, fun eob rest => ?_⟩
    have hterm := decoded_terminator (e := .crlf) (rest := rest) (by simp) q eob []
    rw [List.append_assoc, hdec, List.append_assoc]
    exact congrArg (out ++ ·) hterm

/-- An encoding that ends with no SP or TAB decodes to its source, with or without the end-of-buffer check. -/
theorem EncodesAs.decoded_eq {q : Bool} {src enc : List Byte} (h : EncodesAs q src enc) (hend : ¬ EndsInPad enc) (eob : Bool) :
    decoded q eob [] enc = src := by
  obtain ⟨out, held, rfl, hheld, hdec⟩ := h.decodes
  obtain rfl := hheld hend
  have hall := hdec eob []
  rw [List.append_nil, decoded_nil, ite_self] at hall
  exact hall

/-! ### The output of the encoder so far -/

theorem tgtList_succ (s : State) (n : Nat) : s.tgtList (n + 1) = s.tgtList n ++ [s.tgtByte n] := by
  simp [State.tgtList, List.range_succ]

/-- FLUSHWS fires exactly when the output ends with a SP or TAB. -/
theorem endsInPad_iff_flushes (s : State) : EndsInPad (s.tgtList s.ti) ↔ s.flushes := by
  unfold State.flushes
  cases hti : s.ti with
  | zero => simp [EndsInPad, State.tgtList]
  | succ n =>
    rw [tgtList_succ, Nat.add_sub_cancel]
    constructor
    · rintro ⟨pre, b, hb, hp⟩
      obtain ⟨-, hlast⟩ := List.append_inj' hb rfl
      obtain rfl := List.singleton_inj.1 hlast
      exact ⟨by omega, hp⟩
    · exact fun ⟨_, hp⟩ => ⟨_, _, rfl, hp⟩

/-- A SP or TAB that ends an encoding is the literal of the source's last byte. -/
theorem EncodesAs.take_back {q : Bool} {src enc : List Byte} {b : Byte} (hb : isPad b = true)
    (h : EncodesAs q src (enc ++ [b])) : ∃ src₀, src = src₀ ++ [b] ∧ EncodesAs q src₀ enc := by
  have hlast : ∀ {enc' tail : List Byte} {c : Byte}, enc ++ [b] = enc' ++ (tail ++ [c]) → isPad c = true := fun he => by
    rw [← List.append_assoc] at he
    obtain ⟨-, hc⟩ := List.append_inj' he rfl
    rwa [← List.singleton_inj.1 hc]
  generalize hx : enc ++ [b] = x at h
  cases h with
  | nil => simp at hx
  | literal hlit h =>
    obtain ⟨rfl, hc⟩ := List.append_inj' hx rfl
    obtain rfl := List.singleton_inj.1 hc
    exact ⟨_, rfl, h⟩
  | symbol v _ =>
    have hp := hlast (tail := [_, _]) hx
    rw [not_pad_of_hexDigit (tdec_tenc_ne_zero _)] at hp
    cases hp
  | softBreak => exact absurd (hlast (tail := [_, _]) hx) (by decide)
  | hardBreak => exact absurd (hlast (tail := [_]) hx) (by decide)

/-- The output of s encodes src. -/
def State.HasEncoded (s : State) (src : List Byte) : Prop := EncodesAs s.q src (s.tgtList s.ti)

/-- What the engine writes after an encoding, where it makes an encoding. -/
theorem State.HasEncoded.emitted {s : State} {src src' bs : List Byte} (h : s.HasEncoded src)
    (hbs : EncodesAs s.q src (s.tgtList s.ti) → EncodesAs s.q src' (s.tgtList s.ti ++ bs)) : (s.emitted bs).HasEncoded src' := by
  rw [State.HasEncoded, emitted_tgtList]
  exact hbs h

theorem State.HasEncoded.softBrk {s t : State} {src : List Byte} {k : Nat} (h : s.HasEncoded src) (hs : softBrk k s = .ok t) :
    t.HasEncoded src := by
  rcases softBrk_cases hs with ⟨-, rfl⟩ | ⟨⟨hq, -⟩, -, rfl⟩
  · exact h
  · exact h.emitted (.softBreak hq)

theorem State.HasEncoded.symbolOp {s t : State} {src : List Byte} {v : Byte} (h : s.HasEncoded src)
    (hs : symbolOp v s = .ok t) : t.HasEncoded (src ++ [v]) := by
  obtain ⟨u, hu, rfl⟩ := symbolOp_next hs
  exact (h.softBrk hu).emitted (.symbol v)

/-- FLUSHWS makes a symbol of the SP or TAB that stands last. -/
theorem State.HasEncoded.flushWs {s t : State} {src : List Byte} (h : s.HasEncoded src) (hs : flushWs s = .ok t) :
    t.HasEncoded src ∧ ¬ t.flushes := by
  rcases flushWs_cases hs with ⟨hno, rfl⟩ | ⟨hf, -, hsym⟩
  · exact ⟨h, hno⟩
  · have hlast : s.tgtList s.ti = s.tgtList (s.ti - 1) ++ [s.tgtByte (s.ti - 1)] := by
      rw [← tgtList_succ, Nat.sub_add_cancel hf.1]
    rw [State.HasEncoded, hlast] at h
    obtain ⟨src₀, rfl, h₀⟩ := h.take_back hf.2
    exact ⟨State.HasEncoded.symbolOp (s := s.takeBack) h₀ hsym, symbolOp_not_flushes hsym⟩

/-! ### The result -/

theorem srcList_append {s : State} {pre : List Byte} (h : s.SrcHas pre) :
    s.srcList (s.si + pre.length) = s.srcList s.si ++ pre := by
  refine List.ext_getElem (by simp [State.srcList]) fun i h1 h2 => ?_
  simp only [State.srcList, List.getElem_map, List.getElem_range, List.getElem_append, List.length_map, List.length_range]
  split
  · rfl
  · rename_i hge
    have hi : i < s.si + pre.length := by simpa [State.srcList] using h1
    obtain ⟨-, hk⟩ := h (i - s.si) (by omega)
    rwa [show s.si + (i - s.si) = i by omega] at hk

/-- An encode command in progress whose output encodes the source bytes before SI. -/
def State.Encoding (s : State) : Prop := s.op = true ∧ s.HasEncoded (s.srcList s.si)

theorem State.Encoding.ctx {s : State} (h : s.Encoding) : s.ctx = .enc s.q := if_pos h.1

/-- A class's step encodes its bytes. -/
theorem State.Encoding.step {s t : State} {i : Instr} (h : s.Encoding) (hf : fetch s = .ok i) (hi : i ≠ .eEob)
    (hx : exec i s = .next t) : t.Encoding := by
  obtain ⟨rest, hread⟩ := fetch_readsAs hf
  have hadm := hread.admits
  rw [h.ctx] at hadm
  obtain ⟨hop, hout⟩ := h
  obtain ⟨pre, henc, -⟩ := hread.bytes
  have hscan := fetch_isScan hf
  have hu := exec_untouched hscan hx
  have hsrc : t.srcList t.si = s.srcList s.si ++ pre := by
    rw [← srcList_append (hread.srcHas henc), exec_si hscan henc hx, State.srcList, hu.srcByte, State.srcList]
  refine ⟨hu.op_eq.trans hop, ?_⟩
  rw [hsrc]
  cases i
  case eLit b =>
    cases henc
    have hlit : litTab s.q b = 1#8 := by simpa [Ctx.admits] using hadm
    obtain ⟨u, hbrk, -, rfl⟩ := exec_eLit_next.1 hx
    rw [← (softBrk_untouched hbrk).q_eq] at hlit
    exact (hout.softBrk hbrk).emitted (.literal hlit)
  case eCrlf =>
    cases henc
    have hq : s.q = false := by simpa [Ctx.admits] using hadm
    obtain ⟨u, hflush, -, rfl⟩ := exec_eCrlf_next.1 hx
    rw [← (flushWs_untouched hflush).q_eq] at hq
    obtain ⟨hout', hno⟩ := hout.flushWs hflush
    exact hout'.emitted (.hardBreak hq (mt (endsInPad_iff_flushes u).1 hno))
  case eSym v =>
    cases henc
    obtain ⟨u, hsym, rfl⟩ := exec_eSym_next.1 hx
    exact (hout.symbolOp hsym : u.HasEncoded _)
  case eEob => exact absurd rfl hi
  all_goals exact absurd hadm (by simp [Ctx.admits])

/-- At the end of the buffer FLUSHWS leaves an encoding of the whole source, with no SP or TAB at its end. -/
theorem State.Encoding.conclude {w u t : State} (h : w.Encoding) (hend : Concludes w u t) :
    EncodesAs w.q (w.srcList w.slen) (t.tgtList t.wlen) ∧ ¬ EndsInPad (t.tgtList t.wlen) := by
  obtain ⟨i, hf, hi, hx⟩ := hend.action
  obtain ⟨rest, hread⟩ := fetch_readsAs hf
  have hadm := hread.admits
  rw [h.ctx] at hadm
  obtain rfl : i = .eEob := by
    rcases hi with rfl | rfl
    · exact absurd hadm (by simp [Ctx.admits])
    · rfl
  have hflush := exec_eEob_next.1 hx
  have hu := flushWs_untouched hflush
  obtain ⟨henc, hno⟩ := h.2.flushWs hflush
  rw [State.HasEncoded, ← flushWs_si hflush, hend.sourceRead, hu.slen_eq, hu.q_eq] at henc
  rw [hend.result, endsInPad_iff_flushes]
  exact ⟨henc, hno⟩

theorem scanStart_encoding (q : Bool) (s : State) : (s.scanStart (encWord q)).Encoding := ⟨by cases q <;> rfl, .nil⟩

/-- An encode command that ends in DONE leaves in TGT an encoding of its source, with no SP or TAB at its end. -/
theorem encode_result {q : Bool} {s t : State} (h : Completes (encWord q) s t) :
    EncodesAs q (s.srcList s.slen) (t.tgtList t.wlen) ∧ ¬ EndsInPad (t.tgtList t.wlen) := by
  obtain ⟨-, hdone, k, hrun⟩ := completes_scan h
  obtain ⟨w, u, hw, hu, hend⟩ := scan_induction (fun hw hf _ he hx => hw.step hf he hx) (scanStart_encoding q s)
    (started_busy _ _) rfl hrun hdone
  have hres := hw.conclude hend
  rw [State.srcList, hu.srcByte, hu.slen_eq, hu.q_eq, show (s.scanStart (encWord q)).q = q by cases q <;> rfl] at hres
  exact hres

/-- Settles O50: the encoder's output encodes the source, and decoding reads an encoding back. -/
theorem decodeOfEncodedBufferIsTheSource : Obligations.DecodeOfEncodedBufferIsTheSource := by
  intro q s t u v henc hlen hbytes hdec
  obtain ⟨hres, hend⟩ := encode_result henc
  have hmoved : u.srcList u.slen = t.tgtList t.wlen := by
    rw [hlen]
    exact List.map_congr_left fun i hi => hbytes i (List.mem_range.1 hi)
  have hback : v.tgtList v.wlen = s.srcList s.slen := by
    rw [decode_result hdec, hmoved, hres.decoded_eq hend]
  have hwlen : v.wlen = s.slen := by
    simpa [State.tgtList, State.srcList] using congrArg List.length hback
  refine ⟨hwlen, fun i hi => ?_⟩
  rw [hwlen] at hback
  exact List.map_inj_left.1 hback i (List.mem_range.2 hi)

end Sys2Proof.Machine
end

section
/-! The encoder's steps and helpers (spec/42_encode.md R132 to R138): what each writes, where, and what it leaves alone. -/

namespace Sys2Proof.Machine

/-- From s to t, bs is written to TGT from index a on, TI is left at its end, LINE and SI at the given values, and nothing else
changes. -/
structure Wrote (s t : State) (a : Nat) (bs : List Byte) (line si : Nat) : Prop where
  bytes : TgtGets s t a bs
  ti : t.ti = a + bs.length
  line : t.line = line
  si : t.si = si
  rw : t.rw = s.rw
  rest : Untouched s t

theorem Wrote.none (s : State) : Wrote s s s.ti [] s.line s.si :=
  ⟨fun i => (if_neg (by simp)).symm, rfl, rfl, rfl, rfl, .refl s⟩

/-- A further write of the engine begins where the last one ended; LINE and SI follow. -/
theorem Wrote.emitted {s t : State} {a line si : Nat} {bs : List Byte} (h : Wrote s t a bs line si) (cs : List Byte) (n k : Nat) :
    Wrote s (((t.emitted cs).setLine n).advance k) a (bs ++ cs) n (si + k) where
  bytes := h.bytes.append (h.ti ▸ emitted_gets cs t)
  ti := by
    rw [State.advance_ti, State.setLine_ti, emitted_ti, h.ti, List.length_append, Nat.add_assoc]
  line := rfl
  si := congrArg (· + k) h.si
  rw := h.rw
  rest := h.rest.trans (emitted_untouched cs t)

/-! ### SOFTBRK, SYMBOL, FLUSHWS -/

theorem softBrk_wrote {k : Nat} {s : State} (hr : s.ti + (breakBytes s.q s.line k).length ≤ s.cfg.tgtCap) :
    ∃ t, softBrk k s = .ok t ∧ Wrote s t s.ti (breakBytes s.q s.line k) (breakLine s.q s.line k) s.si := by
  by_cases hc : s.q = false ∧ lineLimit ≤ s.line + k
  · rw [breakBytes_of_break hc] at hr ⊢
    rw [breakLine, if_pos hc]
    exact ⟨_, softBrk_break hc hr, (Wrote.none s).emitted softBreakBytes 0 0⟩
  · rw [breakBytes_of_no_break hc, breakLine, if_neg hc]
    exact ⟨s, softBrk_none hc, .none s⟩

/-- What is written after SOFTBRK(k), and counted in LINE. -/
theorem softBrk_emit_wrote {k : Nat} {s : State} {bs : List Byte}
    (hr : s.ti + (breakBytes s.q s.line k).length + bs.length ≤ s.cfg.tgtCap) (n : Nat) :
    ∃ t, ((softBrk k s).bind fun u => (emit bs u).map fun w => (w.setLine (w.line + bs.length)).advance n) = .ok t ∧
      Wrote s t s.ti (breakBytes s.q s.line k ++ bs) (breakLine s.q s.line k + bs.length) (s.si + n) := by
  obtain ⟨u, hu, hw⟩ := softBrk_wrote (k := k) (s := s) (by omega)
  have hroom : u.ti + bs.length ≤ u.cfg.tgtCap := by rw [hw.ti, hw.rest.cfg_eq]; exact hr
  refine ⟨_, except_bind_ok_iff.2 ⟨u, hu, emit_map_ok_iff.2 ⟨hroom, rfl⟩⟩, ?_⟩
  rw [emitted_line, hw.line]
  exact hw.emitted bs _ n

theorem symbolOp_wrote {v : Byte} {s : State} (hr : s.ti + (breakBytes s.q s.line 3).length + 3 ≤ s.cfg.tgtCap) :
    ∃ t, symbolOp v s = .ok t ∧
      Wrote s t s.ti (breakBytes s.q s.line 3 ++ hexSymbol v) (breakLine s.q s.line 3 + 3) s.si := by
  rw [← symbolBytes_eq]
  exact softBrk_emit_wrote (bs := symbolBytes v) hr 0

theorem flushWs_wrote {s : State} (hr : s.flushStart + s.flushBytes.length ≤ s.cfg.tgtCap) :
    ∃ t, flushWs s = .ok t ∧ Wrote s t s.flushStart s.flushBytes s.flushLine s.si := by
  have hti := (ti_le_flushEnd s).trans hr
  by_cases hf : s.flushes
  · rw [flushEnd_of_flushes hf] at hr
    obtain ⟨t, ht, hw⟩ := symbolOp_wrote (v := s.tgtByte (s.ti - 1)) (s := s.takeBack) hr
    rw [flushWs_fires hf hti, State.flushStart, State.flushBytes, State.flushLine, if_pos hf, if_pos hf, if_pos hf]
    exact ⟨t, ht, hw.bytes, hw.ti, hw.line, hw.si, hw.rw, hw.rest⟩
  · rw [flushWs_none hf hti, State.flushStart, State.flushBytes, State.flushLine, if_neg hf, if_neg hf, if_neg hf]
    exact ⟨s, rfl, .none s⟩

/-- Settles O25: what SOFTBRK(k) writes. -/
theorem softbrkBreaksAtSeventySix : Obligations.SoftbrkBreaksAtSeventySix := fun k s hr => by
  obtain ⟨t, ht, hw⟩ := softBrk_wrote hr
  exact ⟨t, exec_softbrk_next.2 ht, hw.bytes, hw.ti, hw.line, hw.si, hw.rw, hw.rest⟩

/-- Where a symbol, with the soft break before it, ends. -/
theorem Wrote.ti_symbol {s t : State} {a line si : Nat} {bs : List Byte} {v : Byte} (h : Wrote s t a (bs ++ hexSymbol v) line si) :
    t.ti = a + bs.length + 3 := by
  rw [h.ti, List.length_append, ← Nat.add_assoc]; rfl

/-- Settles O26: what SYMBOL(v) writes. -/
theorem symbolWritesThreeBytes : Obligations.SymbolWritesThreeBytes := fun v s hr => by
  obtain ⟨t, ht, hw⟩ := symbolOp_wrote (v := v) hr
  exact ⟨t, exec_symbol_next.2 ht, hw.bytes, hw.ti_symbol, hw.line, hw.si, hw.rw, hw.rest⟩

/-- Settles O27: what FLUSHWS writes. -/
theorem flushwsReemitsTrailingWhitespace : Obligations.FlushwsReemitsTrailingWhitespace := fun s _ hr => by
  obtain ⟨t, ht, hw⟩ := flushWs_wrote hr
  exact ⟨t, exec_flushws_next.2 ht, hw.bytes, hw.ti, hw.line, hw.si, hw.rw, hw.rest⟩

/-! ### The encoder's steps -/

/-- Settles O28: SOFTBRK(1) and the byte. -/
theorem encodeLiteralCopiesItsByte : Obligations.EncodeLiteralCopiesItsByte := fun b s hr => by
  obtain ⟨t, ht, hw⟩ := softBrk_emit_wrote (k := 1) (bs := [b]) hr 1
  refine ⟨t, outcome_next.2 ht, hw.bytes, ?_, hw.line, hw.si, hw.rw, hw.rest⟩
  rw [hw.ti, List.length_append, List.length_singleton, Nat.add_assoc]

/-- Settles O29: FLUSHWS and the two bytes. -/
theorem encodeCrlfFlushesAndCopies : Obligations.EncodeCrlfFlushesAndCopies := fun s _ hr => by
  obtain ⟨u, hu, hw⟩ := flushWs_wrote (s := s) (by omega)
  have hroom : u.ti + 2 ≤ u.cfg.tgtCap := by rw [hw.ti, hw.rest.cfg_eq]; exact hr
  have hw' := hw.emitted hardBreakBytes 0 2
  exact ⟨_, exec_eCrlf_next.2 ⟨u, hu, hroom, rfl⟩, hw'.bytes, congrArg (· + 2) hw.ti, hw'.line, hw'.si, hw'.rw, hw'.rest⟩

/-- Settles O30: SYMBOL(v), and SI moves on. -/
theorem encodeSymbolForAnyOtherByte : Obligations.EncodeSymbolForAnyOtherByte := fun v s hr => by
  obtain ⟨t, ht, hw⟩ := symbolOp_wrote (v := v) hr
  exact ⟨_, exec_eSym_next.2 ⟨t, ht, rfl⟩, hw.bytes, hw.ti_symbol, hw.line, congrArg (· + 1) hw.si, hw.rw, hw.rest⟩

/-- Settles O31: E.EOB is FLUSHWS. -/
theorem encodeEndOfBufferFlushes : Obligations.EncodeEndOfBufferFlushes := fun s _ hr => by
  obtain ⟨t, ht, hw⟩ := flushWs_wrote hr
  exact ⟨t, exec_eEob_next.2 ht, hw.bytes, hw.ti, hw.line, hw.si, hw.rw, hw.rest⟩

end Sys2Proof.Machine
end

section
/-! The sizing function (spec/42_encode.md R150). -/

namespace Sys2Proof.Machine

/-- Settles O11: adding 74 before the division rounds it up, and the truncated difference is the maximum with 0. -/
theorem etlIsTheSizingFormula : Obligations.EtlIsTheSizingFormula := fun n => by
  have hceil : ⌈((3 * n : ℕ) : ℚ) / 75⌉ = -(-(3 * n : ℕ) / 75) := Rat.ceil_natCast_div_natCast (3 * n) 75
  rw [hceil]
  simp only [etl, wrapCols]
  omega

end Sys2Proof.Machine
end

section
/-! The encoder's output lines (spec/42_encode.md R140, R141): LINE counts the bytes of the current one, and none is longer
than 76. -/

namespace Sys2Proof.Machine

/-- LINE is the number of bytes of the current output line, at most 75 (R140), and no stretch of the output from index a on without
CR and LF is longer than 76. -/
structure State.LinesFrom (s : State) (a : Nat) : Prop where
  bound : s.line ≤ 75
  within : s.line ≤ s.ti
  start : s.line = s.ti ∨ (2 ≤ s.ti - s.line ∧ s.tgtByte (s.ti - s.line - 2) = bCr ∧ s.tgtByte (s.ti - s.line - 1) = bLf)
  noLf : ∀ i, s.ti - s.line ≤ i → i < s.ti → s.tgtByte i ≠ bLf
  fit : ∀ i j, a ≤ i → i ≤ j → j ≤ s.ti → (∀ k, i ≤ k → k < j → s.tgtByte k ≠ bCr ∧ s.tgtByte k ≠ bLf) → j - i ≤ 76

/-- A stretch without LF that ends where the output ends lies in the current line. -/
theorem State.LinesFrom.last {s : State} {a i : Nat} (h : s.LinesFrom a)
    (hfree : ∀ k, i ≤ k → k < s.ti → s.tgtByte k ≠ bLf) : s.ti - i ≤ s.line := by
  have hwithin := h.within
  rcases h.start with hall | ⟨htwo, -, hlf⟩
  · omega
  · by_contra hlt
    exact hfree _ (by omega) (by omega) hlf

/-- After a further write a stretch without CR and LF is one of before, or begins in the current line. -/
theorem State.LinesFrom.stretch {s : State} {a i j : Nat} (h : s.LinesFrom a) (bs : List Byte) (hi : a ≤ i) (hij : i ≤ j)
    (hfree : ∀ k, i ≤ k → k < j → (s.emitted bs).tgtByte k ≠ bCr ∧ (s.emitted bs).tgtByte k ≠ bLf) :
    j - i ≤ 76 ∨ (s.ti < j ∧ s.ti - i ≤ s.line) := by
  have hold : ∀ k, i ≤ k → k < j → k < s.ti → s.tgtByte k ≠ bCr ∧ s.tgtByte k ≠ bLf := fun k hk hkj hkt =>
    emitted_old bs s k hkt ▸ hfree k hk hkj
  rcases Nat.lt_or_ge s.ti j with hlt | hge
  · exact .inr ⟨hlt, h.last fun k hk hkt => (hold k hk (by omega) hkt).2⟩
  · exact .inl (h.fit i j hi hij hge fun k hk hkj => hold k hk hkj (by omega))

/-- LineOk is the line counter of `LinesFrom` alone: from the current line's own start on, what that says of the lines follows. -/
theorem lineOk_iff (s : State) :
    s.LineOk ↔ (s.busy = true → s.op = true → s.q = false → ∃ a, s.LinesFrom a) := by
  refine forall_congr' fun _ => forall_congr' fun _ => forall_congr' fun _ => ⟨?_, ?_⟩
  · rintro ⟨hbound, hwithin, hstart, hnoLf⟩
    exact ⟨s.ti - s.line, hbound, hwithin, hstart, hnoLf, fun i j hi _ hj _ => by omega⟩
  · rintro ⟨a, h⟩
    exact ⟨h.bound, h.within, h.start, h.noLf⟩

/-- Bytes other than LF that the line has room for are part of it. -/
theorem State.LinesFrom.append {s : State} {a : Nat} {bs : List Byte} (h : s.LinesFrom a) (hbs : bLf ∉ bs)
    (hroom : s.line + bs.length ≤ 75) : State.LinesFrom ((s.emitted bs).setLine (s.line + bs.length)) a := by
  have hcur : s.ti + bs.length - (s.line + bs.length) = s.ti - s.line := Nat.add_sub_add_right ..
  refine
    { bound := hroom, within := Nat.add_le_add_right h.within _, start := ?_, noLf := fun i hi hlt => ?_,
      fit := fun i j hi hij hj hfree => ?_ }
  · refine h.start.imp (congrArg (· + bs.length)) fun ⟨htwo, hcr, hlf⟩ => ?_
    simp only [State.setLine_ti, emitted_ti, State.setLine_line, hcur]
    exact ⟨htwo, (emitted_old bs s _ (by omega)).trans hcr, (emitted_old bs s _ (by omega)).trans hlf⟩
  · simp only [State.setLine_ti, emitted_ti, State.setLine_line, hcur] at hi hlt
    rcases Nat.lt_or_ge i s.ti with hold | hnew
    · exact (emitted_old bs s i hold).trans_ne (h.noLf i hi hold)
    · obtain ⟨k, rfl⟩ := Nat.exists_eq_add_of_le hnew
      exact fun hlf => hbs (((emitted_new bs s k (by omega)).symm.trans hlf) ▸ List.getElem_mem _)
  · simp only [State.setLine_ti, emitted_ti] at hj
    rcases h.stretch bs hi hij hfree with hle | ⟨-, hline⟩ <;> omega

/-- At most one byte and CR LF end the line. -/
theorem State.LinesFrom.lineBreak {s : State} {a : Nat} {bs : List Byte} (h : s.LinesFrom a) (hbs : bs.length ≤ 1) :
    State.LinesFrom ((s.emitted (bs ++ hardBreakBytes)).setLine 0) a := by
  have hlen : (bs ++ hardBreakBytes).length = bs.length + 2 := List.length_append
  have hcr : (s.emitted (bs ++ hardBreakBytes)).tgtByte (s.ti + bs.length) = bCr := by
    rw [emitted_new _ s _ (by omega)]; simp [hardBreakBytes]
  have hlf : (s.emitted (bs ++ hardBreakBytes)).tgtByte (s.ti + (bs.length + 1)) = bLf := by
    rw [emitted_new _ s _ (by omega)]; simp [hardBreakBytes]
  refine
    { bound := Nat.zero_le _, within := Nat.zero_le _, start := .inr ?_, noLf := fun i hi hlt => absurd hlt (Nat.not_lt_of_le hi),
      fit := fun i j hi hij hj hfree => ?_ }
  · simp only [State.setLine_ti, emitted_ti, State.setLine_line, hlen, Nat.sub_zero]
    exact ⟨by omega, hcr, hlf⟩
  · simp only [State.setLine_ti, emitted_ti, hlen] at hj
    rcases h.stretch _ hi hij hfree with hle | ⟨-, hline⟩
    · exact hle
    · have hbound := h.bound
      by_contra hlong
      exact (hfree (s.ti + bs.length) (by omega) (by omega)).1 hcr

/-- A SP or TAB that stands last is on the current line, and can be taken back. -/
theorem State.LinesFrom.takeBack {s : State} {a : Nat} (h : s.LinesFrom a) (hf : s.flushes) : s.takeBack.LinesFrom a := by
  obtain ⟨hpos, hpad⟩ := hf
  have hline : s.line ≠ 0 := by
    intro h0
    rcases h.start with hall | ⟨-, -, hlf⟩
    · omega
    · rw [h0, Nat.sub_zero] at hlf
      rw [hlf] at hpad
      exact absurd hpad (by decide)
  have hcur : s.ti - 1 - (s.line - 1) = s.ti - s.line := by omega
  refine
    { bound := (Nat.sub_le _ _).trans h.bound, within := Nat.sub_le_sub_right h.within 1, start := ?_, noLf := fun i hi hlt => ?_,
      fit := fun i j hi hij hj => h.fit i j hi hij (hj.trans (Nat.sub_le _ _)) }
  · simp only [State.takeBack_ti, State.takeBack_line, hcur]
    exact h.start.imp (congrArg (· - 1)) id
  · simp only [State.takeBack_ti, State.takeBack_line, hcur] at hi hlt
    exact h.noLf i hi (by omega)

theorem State.LinesFrom.advance {s : State} {a : Nat} (h : s.LinesFrom a) (k : Nat) : (s.advance k).LinesFrom a :=
  ⟨h.bound, h.within, h.start, h.noLf, h.fit⟩

/-! ### The helpers and the steps, in standard mode -/

theorem State.LinesFrom.softBrk {s u : State} {a k : Nat} (h : s.LinesFrom a) (hq : s.q = false) (hk : k ≤ 75)
    (hs : softBrk k s = .ok u) : u.LinesFrom a ∧ u.line + k ≤ 75 := by
  rcases softBrk_cases hs with ⟨hno, rfl⟩ | ⟨-, -, rfl⟩
  · have hroom : ¬ lineLimit ≤ u.line + k := fun hl => hno ⟨hq, hl⟩
    exact ⟨h, Nat.le_of_lt_succ (Nat.lt_of_not_le hroom)⟩
  · exact ⟨h.lineBreak (bs := [bEsc]) le_rfl, by simpa using hk⟩

theorem lf_not_mem_symbolBytes : ∀ v : Byte, bLf ∉ symbolBytes v := by decide

theorem State.LinesFrom.symbolOp {s t : State} {a : Nat} {v : Byte} (h : s.LinesFrom a) (hq : s.q = false)
    (hs : symbolOp v s = .ok t) : t.LinesFrom a := by
  obtain ⟨u, hu, rfl⟩ := symbolOp_next hs
  obtain ⟨hlines, hroom⟩ := h.softBrk hq (by omega) hu
  exact hlines.append (lf_not_mem_symbolBytes v) hroom

theorem State.LinesFrom.flushWs {s t : State} {a : Nat} (h : s.LinesFrom a) (hq : s.q = false) (hs : flushWs s = .ok t) :
    t.LinesFrom a := by
  rcases flushWs_cases hs with ⟨-, rfl⟩ | ⟨hf, -, hsym⟩
  · exact h
  · exact (h.takeBack hf).symbolOp hq hsym

theorem ne_lf_of_tlit {b : Byte} (h : tlit b = 1#8) : b ≠ bLf := (not_terminator_of_legal (tlegal_of_tlit h)).2

/-- A class's step in standard mode keeps the lines. -/
theorem State.LinesFrom.step {s t : State} {a : Nat} {i : Instr} (h : s.LinesFrom a) (hop : s.op = true) (hq : s.q = false)
    (hf : fetch s = .ok i) (hi : i ≠ .eEob) (hx : exec i s = .next t) : t.LinesFrom a := by
  obtain ⟨rest, hread⟩ := fetch_readsAs hf
  have hadm := hread.admits
  rw [State.ctx, if_pos hop] at hadm
  cases i
  case eLit b =>
    have hlit : litTab s.q b = 1#8 := by simpa [Ctx.admits] using hadm
    obtain ⟨u, hu, -, rfl⟩ := exec_eLit_next.1 hx
    obtain ⟨hlines, hroom⟩ := h.softBrk hq (by omega) hu
    have hb : bLf ∉ [b] := by simpa using (ne_lf_of_tlit (tlit_of_litTab hlit)).symm
    exact (hlines.append hb hroom).advance 1
  case eCrlf =>
    obtain ⟨u, hu, -, rfl⟩ := exec_eCrlf_next.1 hx
    exact ((h.flushWs hq hu).lineBreak (bs := []) (Nat.zero_le _)).advance 2
  case eSym v =>
    obtain ⟨u, hu, rfl⟩ := exec_eSym_next.1 hx
    exact (h.symbolOp hq hu).advance 1
  case eEob => exact absurd rfl hi
  all_goals exact absurd hadm (by simp [Ctx.admits])

/-! ### The line counter over every step -/

theorem lineOk_of_not_busy {s : State} (h : s.busy = false) : s.LineOk := fun hb => absurd hb (by simp [h])

/-- A command that starts has an empty line. -/
theorem started_linesFrom (c : Byte) (s : State) : (s.started c).LinesFrom 0 :=
  ⟨Nat.zero_le _, le_rfl, .inl rfl, fun i _ hi => absurd hi (Nat.not_lt_zero i), fun i j _ _ hj _ => by
    rw [started_ti] at hj; omega⟩

theorem issue_lineOk (c : Byte) (s : State) : (issue c s).LineOk := by
  obtain ⟨-, h⟩ | ⟨-, e, -, h⟩ := issue_cases c s
  · rw [h]; exact (lineOk_iff _).2 fun _ _ _ => ⟨0, started_linesFrom c s⟩
  · rw [h]; exact lineOk_of_not_busy (raise_not_busy _ _)

theorem engine_keeps_lineOk {s t : State} {i : Instr} (hok : s.LineOk) (hb : s.busy = true) (hf : fetch s = .ok i)
    (h : settle i (exec i s) = .next t) : t.LineOk := by
  rcases settle_exec_cases h with ⟨u, -, rfl⟩ | ⟨-, he, hx⟩
  · exact lineOk_of_not_busy (finish_not_busy u)
  · have hu := exec_untouched (fetch_isScan hf) hx
    refine (lineOk_iff t).2 fun _ hop hq => ?_
    rw [hu.op_eq] at hop
    rw [hu.q_eq] at hq
    obtain ⟨a, hlines⟩ := (lineOk_iff s).1 hok hb hop hq
    exact ⟨a, hlines.step hop hq hf he hx⟩

theorem lineOk_keptByEachMove : KeptByEachMove State.LineOk where
  host _ h := h
  read _ _ h := h
  engine := engine_keeps_lineOk
  issue c _ _ := issue_lineOk c _
  writeSlen _ hb _ := lineOk_of_not_busy hb
  writeTcap _ hb _ := lineOk_of_not_busy hb
  writeSrc _ _ hb _ := lineOk_of_not_busy hb
  writeTgt _ _ hb _ := lineOk_of_not_busy hb
  reset _ := lineOk_of_not_busy (resetBlock_not_busy _)

/-- Settles O41: the line counter survives each kind of step. -/
theorem everyStepKeepsTheLineCounter : Obligations.EveryStepKeepsTheLineCounter :=
  fun _ _ => lineOk_keptByEachMove.step

end Sys2Proof.Machine
end

section
/-! The bytes of an encoding (spec/42_encode.md R141, R142): what stands beside each CR, LF, `=`, SP and TAB. -/

namespace Sys2Proof.Machine

/-- The byte b at index i of an encoder's output is one it can emit (R142), with the bytes beside it that its piece of the encoding
has; no CR follows a SP or TAB. -/
structure SpelledAt (q : Bool) (out : List Byte) (i : Nat) (b : Byte) : Prop where
  alphabet : b ≠ bUsc ∧ b ≤ 0x7E#8 ∧ (0x20#8 ≤ b ∨ (q = false ∧ (b = bTab ∨ b = bCr ∨ b = bLf)))
  cr : b = bCr → out[i + 1]? = some bLf
  lf : b = bLf → ∃ k, i = k + 1 ∧ out[k]? = some bCr
  esc : b = bEsc → ∃ h g, out[i + 1]? = some h ∧ out[i + 2]? = some g ∧
    ((h ∈ hexDigits ∧ g ∈ hexDigits) ∨ (q = false ∧ h = bCr ∧ g = bLf))
  pad : isPad b = true → q = false ∧ out[i + 1]? ≠ some bCr

/-- Every byte is spelled where it stands. -/
def WellSpelled (q : Bool) (out : List Byte) : Prop := ∀ i b, out[i]? = some b → SpelledAt q out i b

/-! ### Byte strings one after the other -/

theorem getElem?_append_of_some {out : List Byte} {i : Nat} {b : Byte} (h : out[i]? = some b) (bs : List Byte) :
    (out ++ bs)[i]? = some b := by
  obtain ⟨hi, -⟩ := List.getElem?_eq_some_iff.1 h
  rw [List.getElem?_append_left hi, h]

theorem getElem?_append_length_add (out bs : List Byte) (k : Nat) : (out ++ bs)[out.length + k]? = bs[k]? := by
  rw [List.getElem?_append_right (Nat.le_add_right _ _), Nat.add_sub_cancel_left]

/-- What is appended changes nothing for a byte but a CR right after it. -/
theorem SpelledAt.append_right {q : Bool} {out : List Byte} {i : Nat} {b : Byte} (h : SpelledAt q out i b) (bs : List Byte)
    (hcr : isPad b = true → (out ++ bs)[i + 1]? ≠ some bCr) : SpelledAt q (out ++ bs) i b where
  alphabet := h.alphabet
  cr hb := getElem?_append_of_some (h.cr hb) bs
  lf hb := by
    obtain ⟨k, rfl, hk⟩ := h.lf hb
    exact ⟨k, rfl, getElem?_append_of_some hk bs⟩
  esc hb := by
    obtain ⟨d, g, hd, hg, hdig⟩ := h.esc hb
    exact ⟨d, g, getElem?_append_of_some hd bs, getElem?_append_of_some hg bs, hdig⟩
  pad hb := ⟨(h.pad hb).1, hcr hb⟩

/-- What stands before a byte string changes nothing within it. -/
theorem SpelledAt.append_left {q : Bool} {bs : List Byte} {i : Nat} {b : Byte} (h : SpelledAt q bs i b) (out : List Byte) :
    SpelledAt q (out ++ bs) (out.length + i) b where
  alphabet := h.alphabet
  cr hb := (getElem?_append_length_add out bs (i + 1)).trans (h.cr hb)
  lf hb := by
    obtain ⟨k, rfl, hk⟩ := h.lf hb
    exact ⟨out.length + k, rfl, (getElem?_append_length_add out bs k).trans hk⟩
  esc hb := by
    obtain ⟨d, g, hd, hg, hdig⟩ := h.esc hb
    exact ⟨d, g, (getElem?_append_length_add out bs (i + 1)).trans hd,
      (getElem?_append_length_add out bs (i + 2)).trans hg, hdig⟩
  pad hb := ⟨(h.pad hb).1, (getElem?_append_length_add out bs (i + 1)).trans_ne (h.pad hb).2⟩

/-- Well-spelled byte strings are so one after the other, where no CR comes to stand after a SP or TAB. -/
theorem WellSpelled.append {q : Bool} {out bs : List Byte} (h : WellSpelled q out) (h' : WellSpelled q bs)
    (hjoin : bs.head? = some bCr → ¬ EndsInPad out) : WellSpelled q (out ++ bs) := by
  intro i b hb
  rcases Nat.lt_or_ge i out.length with hlt | hge
  · rw [List.getElem?_append_left hlt] at hb
    refine (h i b hb).append_right bs fun hp hcr => ?_
    rcases Nat.lt_or_ge (i + 1) out.length with hlt' | hge'
    · rw [List.getElem?_append_left hlt'] at hcr
      exact ((h i b hb).pad hp).2 hcr
    · rw [List.getElem?_append_right hge', show i + 1 - out.length = 0 by omega, ← List.head?_eq_getElem?] at hcr
      rw [show i = out.length - 1 by omega, ← List.getLast?_eq_getElem?] at hb
      obtain ⟨pre, hpre⟩ := List.getLast?_eq_some_iff.1 hb
      exact hjoin hcr ⟨pre, b, hpre, hp⟩
  · obtain ⟨k, rfl⟩ := Nat.exists_eq_add_of_le hge
    rw [getElem?_append_length_add] at hb
    exact (h' k b hb).append_left out

/-! ### The pieces of an encoding -/

theorem not_terminator_of_printable {b : Byte} (h : 0x20#8 ≤ b) : b ≠ bCr ∧ b ≠ bLf :=
  ⟨fun hb => absurd (hb ▸ h) (by decide), fun hb => absurd (hb ▸ h) (by decide)⟩

/-- A byte that asks nothing of those beside it. -/
theorem SpelledAt.plain {b : Byte} (h : b ≠ bUsc ∧ b ≤ 0x7E#8 ∧ 0x20#8 ≤ b) (hb : isPlain b = true) (q : Bool)
    (out : List Byte) (i : Nat) : SpelledAt q out i b := by
  obtain ⟨husc, hhi, hlo⟩ := h
  obtain ⟨hpad, hesc⟩ := isPlain_iff.1 hb
  obtain ⟨hcr, hlf⟩ := not_terminator_of_printable hlo
  exact ⟨⟨husc, hhi, .inl hlo⟩, fun h => absurd h hcr, fun h => absurd h hlf, fun h => absurd h hesc,
    fun hp => absurd hp (Bool.eq_false_iff.1 hpad)⟩

theorem hexDigit_plain : ∀ b ∈ hexDigits, (b ≠ bUsc ∧ b ≤ 0x7E#8 ∧ 0x20#8 ≤ b) ∧ isPlain b = true := by decide

theorem SpelledAt.hexDigit {b : Byte} (hb : b ∈ hexDigits) (q : Bool) (out : List Byte) (i : Nat) : SpelledAt q out i b :=
  .plain (hexDigit_plain b hb).1 (hexDigit_plain b hb).2 q out i

theorem SpelledAt.escape {q : Bool} {out : List Byte} {i : Nat} {h g : Byte} (hh : out[i + 1]? = some h)
    (hg : out[i + 2]? = some g) (hhg : (h ∈ hexDigits ∧ g ∈ hexDigits) ∨ (q = false ∧ h = bCr ∧ g = bLf)) :
    SpelledAt q out i bEsc :=
  ⟨⟨by decide, by decide, .inl (by decide)⟩, nofun, nofun, fun _ => ⟨h, g, hh, hg, hhg⟩, nofun⟩

theorem SpelledAt.padding {b : Byte} (hb : isPad b = true) {out : List Byte} {i : Nat} (hnext : out[i + 1]? ≠ some bCr) :
    SpelledAt false out i b := by
  rcases (isPad_iff b).1 hb with rfl | rfl
  · exact ⟨by decide, nofun, nofun, nofun, fun _ => ⟨rfl, hnext⟩⟩
  · exact ⟨by decide, nofun, nofun, nofun, fun _ => ⟨rfl, hnext⟩⟩

theorem SpelledAt.pairCr {out : List Byte} {i : Nat} (hnext : out[i + 1]? = some bLf) : SpelledAt false out i bCr :=
  ⟨by decide, fun _ => hnext, nofun, nofun, nofun⟩

theorem SpelledAt.pairLf {out : List Byte} {i : Nat} (hprev : out[i]? = some bCr) : SpelledAt false out (i + 1) bLf :=
  ⟨by decide, nofun, fun _ => ⟨i, rfl, hprev⟩, nofun, nofun⟩

theorem literal_range : ∀ b : Byte, tlit b = 1#8 → isPad b = false → b ≠ bUsc ∧ b ≤ 0x7E#8 ∧ 0x20#8 ≤ b := by decide

theorem wellSpelled_literal {q : Bool} {b : Byte} (hb : litTab q b = 1#8) : WellSpelled q [b] := by
  intro i c hc
  obtain ⟨rfl, rfl⟩ : i = 0 ∧ b = c := by simpa [List.getElem?_singleton] using hc
  have hlit := tlit_of_litTab hb
  cases hp : isPad b with
  | false => exact .plain (literal_range b hlit hp) (isPlain_iff.2 ⟨hp, ne_esc_of_tlit hlit⟩) q _ _
  | true =>
    obtain rfl := standard_of_pad_literal hb hp
    exact .padding hp (by simp)

theorem mem_hexDigits_hexSymbol : ∀ v : Byte,
    hexDigits.getD (v.toNat / 16) 0#8 ∈ hexDigits ∧ hexDigits.getD (v.toNat % 16) 0#8 ∈ hexDigits := by decide

theorem wellSpelled_symbol (q : Bool) (v : Byte) : WellSpelled q (symbolBytes v) := by
  obtain ⟨hh, hg⟩ := mem_hexDigits_hexSymbol v
  rw [symbolBytes_eq]
  intro i b hb
  match i with
  | 0 => cases hb; exact .escape rfl rfl (.inl ⟨hh, hg⟩)
  | 1 => cases hb; exact .hexDigit hh q _ _
  | 2 => cases hb; exact .hexDigit hg q _ _
  | k + 3 => cases hb

theorem wellSpelled_softBreak : WellSpelled false softBreakBytes := by
  intro i b hb
  match i with
  | 0 => cases hb; exact .escape rfl rfl (.inr ⟨rfl, rfl, rfl⟩)
  | 1 => cases hb; exact .pairCr rfl
  | 2 => cases hb; exact .pairLf rfl
  | k + 3 => cases hb

theorem wellSpelled_hardBreak : WellSpelled false hardBreakBytes := by
  intro i b hb
  match i with
  | 0 => cases hb; exact .pairCr rfl
  | 1 => cases hb; exact .pairLf rfl
  | k + 2 => cases hb

/-- An encoding is well spelled: each piece is, and a hard break follows no SP or TAB. -/
theorem EncodesAs.wellSpelled {q : Bool} {src enc : List Byte} (h : EncodesAs q src enc) : WellSpelled q enc := by
  induction h with
  | nil => intro i b hb; cases hb
  | @literal _ _ b hb _ ih =>
    refine ih.append (wellSpelled_literal hb) fun hcr => ?_
    obtain rfl : b = bCr := by simpa using hcr
    exact absurd (tlit_of_litTab hb) (by decide)
  | symbol v _ ih => exact ih.append (wellSpelled_symbol q v) fun hcr => absurd (Option.some.inj hcr) (by decide : bEsc ≠ bCr)
  | softBreak hq _ ih =>
    subst hq
    exact ih.append wellSpelled_softBreak fun hcr => absurd hcr (by decide)
  | hardBreak hq hpad _ ih =>
    subst hq
    exact ih.append wellSpelled_hardBreak fun _ => hpad

/-! ### The result -/

theorem tgtList_getElem?_eq_some {s : State} {n i : Nat} {b : Byte} :
    (s.tgtList n)[i]? = some b ↔ i < n ∧ s.tgtByte i = b := by
  rw [List.getElem?_eq_some_iff]
  simp [State.tgtList]

/-- What is spelled at an index of a completed encode command's result. -/
theorem encoded_spelledAt {q : Bool} {s t : State} (h : Completes (encWord q) s t) {i : Nat} (hi : i < t.wlen) :
    SpelledAt q (t.tgtList t.wlen) i (t.tgtByte i) :=
  (encode_result h).1.wellSpelled i _ (tgtList_getElem?_eq_some.2 ⟨hi, rfl⟩)

theorem encoded_cr {q : Bool} {s t : State} (h : Completes (encWord q) s t) {i : Nat} (hi : i < t.wlen)
    (hb : t.tgtByte i = bCr) : i + 1 < t.wlen ∧ t.tgtByte (i + 1) = bLf :=
  tgtList_getElem?_eq_some.1 ((encoded_spelledAt h hi).cr hb)

theorem encoded_lf {q : Bool} {s t : State} (h : Completes (encWord q) s t) {i : Nat} (hi : i < t.wlen)
    (hb : t.tgtByte i = bLf) : 0 < i ∧ t.tgtByte (i - 1) = bCr := by
  obtain ⟨k, rfl, hk⟩ := (encoded_spelledAt h hi).lf hb
  exact ⟨Nat.succ_pos k, (tgtList_getElem?_eq_some.1 hk).2⟩

theorem encoded_esc {q : Bool} {s t : State} (h : Completes (encWord q) s t) {i : Nat} (hi : i < t.wlen)
    (hb : t.tgtByte i = bEsc) : i + 2 < t.wlen ∧
      ((t.tgtByte (i + 1) ∈ hexDigits ∧ t.tgtByte (i + 2) ∈ hexDigits) ∨
        (q = false ∧ t.tgtByte (i + 1) = bCr ∧ t.tgtByte (i + 2) = bLf)) := by
  obtain ⟨d, g, hd, hg, hdig⟩ := (encoded_spelledAt h hi).esc hb
  obtain ⟨-, rfl⟩ := tgtList_getElem?_eq_some.1 hd
  obtain ⟨hlt, rfl⟩ := tgtList_getElem?_eq_some.1 hg
  exact ⟨hlt, hdig⟩

/-- A SP or TAB of the result is in standard mode, and neither stands last nor before a CR. -/
theorem encoded_pad {q : Bool} {s t : State} (h : Completes (encWord q) s t) {i : Nat} (hi : i < t.wlen)
    (hp : isPad (t.tgtByte i) = true) : q = false ∧ i + 1 < t.wlen ∧ t.tgtByte (i + 1) ≠ bCr := by
  obtain ⟨hq, hnext⟩ := (encoded_spelledAt h hi).pad hp
  have hlt : i + 1 < t.wlen := by
    by_contra hlast
    have hwlen : t.wlen = i + 1 := by omega
    obtain ⟨-, hend⟩ := encode_result h
    rw [hwlen, tgtList_succ] at hend
    exact hend ⟨_, _, rfl, hp⟩
  exact ⟨hq, hlt, fun hcr => hnext (tgtList_getElem?_eq_some.2 ⟨hlt, hcr⟩)⟩

/-- Settles O52: the result is well spelled. -/
theorem encodedOutputAlphabet : Obligations.EncodedOutputAlphabet := fun q s t h i hi => by
  obtain ⟨husc, hhi, hlo⟩ := (encoded_spelledAt h hi).alphabet
  exact ⟨husc, hhi, hlo, encoded_cr h hi, encoded_lf h hi, encoded_esc h hi⟩

/-- The end-of-buffer action of an encode command is FLUSHWS. -/
theorem Concludes.flushWs {w u t : State} (h : Concludes w u t) (hop : w.op = true) : flushWs w = .ok u := by
  obtain ⟨i, hf, hi, hx⟩ := h.action
  obtain ⟨rest, hread⟩ := fetch_readsAs hf
  have hadm := hread.admits
  rw [State.ctx, if_pos hop] at hadm
  rcases hi with rfl | rfl
  · exact absurd hadm (by simp [Ctx.admits])
  · exact exec_eEob_next.1 hx

/-- An encode command in standard mode in progress, with LINE and the lines of its output as R140 and R141 say. -/
def State.StandardLines (s : State) : Prop := s.op = true ∧ s.q = false ∧ s.LinesFrom 0

theorem State.StandardLines.step {s t : State} {i : Instr} (h : s.StandardLines) (hf : fetch s = .ok i) (hi : i ≠ .eEob)
    (hx : exec i s = .next t) : t.StandardLines := by
  obtain ⟨hop, hq, hlines⟩ := h
  have hu := exec_untouched (fetch_isScan hf) hx
  exact ⟨hu.op_eq.trans hop, hu.q_eq.trans hq, hlines.step hop hq hf hi hx⟩

/-- In standard mode no stretch of the result without CR and LF is longer than 76. -/
theorem encoded_lines {s t : State} (h : Completes (encWord false) s t) {i j : Nat} (hij : i ≤ j) (hj : j ≤ t.wlen)
    (hfree : ∀ k, i ≤ k → k < j → t.tgtByte k ≠ bCr ∧ t.tgtByte k ≠ bLf) : j - i ≤ 76 := by
  obtain ⟨-, hdone, k, hrun⟩ := completes_scan h
  obtain ⟨w, u, ⟨hop, hq, hlines⟩, -, hend⟩ := scan_induction (P := State.StandardLines)
    (fun hw hf _ he hx => hw.step hf he hx) ⟨rfl, rfl, started_linesFrom _ _⟩ (started_busy _ _) rfl hrun hdone
  have hres := hend.result
  have hwlen : t.wlen = u.ti := by simpa [State.tgtList] using congrArg List.length hres
  rw [hwlen] at hres hj
  have hbyte : ∀ k, k < u.ti → t.tgtByte k = u.tgtByte k := fun k hk => List.map_inj_left.1 hres k (List.mem_range.2 hk)
  have hfinal : u.LinesFrom 0 := hlines.flushWs hq (hend.flushWs hop)
  exact hfinal.fit i j (Nat.zero_le i) hij hj fun k hk hkj => hbyte k (by omega) ▸ hfree k hk hkj

theorem tdec_ne_zero_of_mem_hexDigits : ∀ b ∈ hexDigits, tdec b ≠ 0#8 := by decide

/-- In Q mode the result has no line terminator, SP or TAB. -/
theorem encoded_qMode {s t : State} (h : Completes (encWord true) s t) {i : Nat} (hi : i < t.wlen) :
    t.tgtByte i ≠ bCr ∧ t.tgtByte i ≠ bLf ∧ isPad (t.tgtByte i) = false := by
  obtain ⟨-, -, hlo | ⟨hq, -⟩⟩ := (encoded_spelledAt h hi).alphabet
  · obtain ⟨hcr, hlf⟩ := not_terminator_of_printable hlo
    exact ⟨hcr, hlf, Bool.eq_false_iff.2 fun hp => Bool.noConfusion (encoded_pad h hi hp).1⟩
  · cases hq

/-- Settles O51: the result is well spelled, ends with no SP or TAB, and in standard mode is made of short lines. -/
theorem encodedOutputIsValid : Obligations.EncodedOutputIsValid := fun q s t h =>
  ⟨fun _ hi => encoded_cr h hi, fun _ hi => encoded_lf h hi, fun _ hi hp => (encoded_pad h hi hp).2,
    fun i hi hesc => by
      obtain ⟨hlt, hnext⟩ := encoded_esc h hi hesc
      exact ⟨hlt, hnext.imp (.imp (tdec_ne_zero_of_mem_hexDigits _) (tdec_ne_zero_of_mem_hexDigits _)) And.right⟩,
    fun hq _ _ => by subst hq; exact encoded_lines h,
    fun hq _ => by subst hq; exact encoded_qMode h⟩

end Sys2Proof.Machine
end

section
/-! Issue and completion, one step each (spec/43_command.md R160 to R166, spec/60_exceptions.md R184). -/

namespace Sys2Proof.Machine

/-! ### Issue -/

/-- The status word ISSUE leaves: the first failed check's error, or BUSY. -/
theorem issue_status (c : Byte) (s : State) :
    (issue c s).status =
      (startChecks c (s.enterBusy.latch c)).elim (statusWord 0#2 stBusy) fun e => statusWord e.code stError := by
  unfold issue
  cases startChecks c (s.enterBusy.latch c) with
  | none => exact started_status c s
  | some e => exact State.raise_status _ e

/-- ISSUE writes neither memory and none of the host's registers or operations. -/
theorem issue_frame (c : Byte) (s : State) :
    (issue c s).slen = s.slen ∧ (issue c s).tcap = s.tcap ∧ (issue c s).src = s.src ∧ (issue c s).srcEpoch = s.srcEpoch ∧
      TgtSame s (issue c s) ∧ (issue c s).cfg = s.cfg ∧ (issue c s).host = s.host := by
  rcases issue_cases c s with ⟨-, hi⟩ | ⟨-, e, he, hi⟩
  · rw [hi]
    exact ⟨rfl, rfl, rfl, rfl, fun _ => rfl, rfl, rfl⟩
  · obtain ⟨hslen, htcap, hsrc, hepoch, htgt, htgtEpoch, hcfg, hhost⟩ := raise_same he (s.enterBusy.latch c)
    rw [hi]
    exact ⟨hslen, htcap, hsrc, hepoch, tgtByte_congr htgt htgtEpoch, hcfg, hhost⟩

theorem exec_commandWord {i : Instr} {c : Byte}
    (h : (i, c) ∈ [(Instr.dec, 0x00#8), (Instr.enc, 0x01#8), (Instr.decq, 0x02#8), (Instr.encq, 0x03#8)]) (s : State) :
    exec i s = .next (writeCmd c s) := by
  simp only [List.mem_cons, Prod.mk.injEq, List.not_mem_nil, or_false] at h
  rcases h with ⟨rfl, rfl⟩ | ⟨rfl, rfl⟩ | ⟨rfl, rfl⟩ | ⟨rfl, rfl⟩ <;> rfl

/-- Settles O8: an accepted command starts its scan. -/
theorem commandStartsItsScan : Obligations.CommandStartsItsScan := by
  intro i c hic s hb hacc
  refine ⟨s.started c, ?_, started_status c s, rfl, rfl, rfl, rfl, rfl, rfl, rfl, rfl, rfl, rfl, fun _ => rfl, rfl, rfl, rfl⟩
  rw [exec_commandWord hic, writeCmd_idle hb, issue_accepted hacc]

/-- Settles O9: the write is ISSUE, whose status word follows the start checks in their order. -/
theorem startChecksDecideTheOutcome : Obligations.StartChecksDecideTheOutcome := by
  intro s c rest hh hb
  refine ⟨issue c { s with host := rest }, ?_, ?_, issue_frame c { s with host := rest }⟩
  · rw [step_writeCmd hh, writeCmd_idle (s := { s with host := rest }) hb]
  · rw [issue_status, startChecks]
    simp only [apply_ite fun o : Option QpError => o.elim (statusWord 0#2 stBusy) fun e => statusWord e.code stError]
    rfl

/-! ### Completion -/

/-- The end-of-buffer action and the end of the command are one step of the engine (log 15). -/
theorem step_of_endOfBuffer {s u : State} {i : Instr} (hh : s.host = []) (hb : s.busy = true) (hf : fetch s = .ok i)
    (hi : i = .dEob ∨ i = .eEob) (hx : exec i s = .next u) : step s = .next (finish u) := by
  rw [step_of_no_host hh, engineStep_of_fetch hb hf, hx, settle_next, if_pos hi]

/-- Settles O12: the step is the end of ISSUE in u, by whether the post-check passes. -/
theorem postCheckEndsTheCommand : Obligations.PostCheckEndsTheCommand := by
  intro s u i hh hb hf hi hx
  have hhost : (finish u).host = [] := by rw [finish_host, (exec_untouched (fetch_isScan hf) hx).host_eq, hh]
  obtain ⟨hsrc, hepoch, hslen, htcap⟩ := finish_sameInputs u
  refine ⟨finish u, step_of_endOfBuffer hh hb hf hi hx, hslen, htcap, hsrc, hepoch, hhost, ?_, ?_⟩
  · rintro ⟨hsi, hti⟩
    rw [finish_done hsi hti]
    exact ⟨u.publish.setPhase_phase stDone, u.publish.setPhase_err stDone, rfl, fun _ => rfl⟩
  · intro hfail
    rw [finish_overflow hfail]
    exact State.raise_status u .overflow

/-! ### From the issue to DONE -/

/-- The write of an accepted word, with nothing else pending, leads to the start of its scan. -/
theorem step_accepted {c : Byte} {s : State} (hb : s.busy = false) (hacc : Accepts c s) :
    step { s with host := [.writeCmd c] } = .next (s.scanStart c) := by
  rw [step_writeCmd rfl, writeCmd_idle (s := { s with host := [] }) hb, issue_accepted (s := { s with host := [] }) hacc,
    State.scanStart]

/-- Settles O47: one step to the start of the scan, which reaches DONE in time and stays there. -/
theorem acceptedCommandEndsInDone : Obligations.AcceptedCommandEndsInDone := by
  intro c s hb hacc
  obtain ⟨k, t, hk, hrun, hend⟩ := run_scan s.slen (s := s.scanStart c) (started_scanOk hacc) (started_busy _ _) (.inl rfl) le_rfl
  have hhost : t.host = [] := hend.host
  obtain ⟨j, hj⟩ : ∃ j, s.slen + 1 = k + j := ⟨_, (Nat.add_sub_of_le hk).symm⟩
  have hall : Sys2Proof.core.run (s.slen + 2) { s with host := [.writeCmd c] } = .next t := by
    rw [run_next (step_accepted hb hacc), hj, run_add hrun, run_idle hhost hend.not_busy]
  obtain ⟨hsrc, hepoch, hslen, htcap⟩ := hend.inputs
  exact ⟨t, hall, hhost, hend.phase, hend.err.trans (started_err _ _), hend.wlen, hsrc, hepoch, hslen, htcap⟩

end Sys2Proof.Machine
end

section
/-! What the scan depends on (spec/10_state.md R24, spec/20_memory.md R44, spec/43_command.md R167): two scans of one source, side by
side. -/

namespace Sys2Proof.Machine

/-! ### A scan, step by step to its result -/

/-- The scan from a state runs through its steps to the end-of-buffer action that concludes it in t. -/
inductive ScansTo (t : State) : State → Prop where
  | conclude {w u : State} (hend : Concludes w u t) : ScansTo t w
  | step {w u : State} {i : Instr} (hf : fetch w = .ok i) (hd : i ≠ .dEob) (he : i ≠ .eEob) (hx : exec i w = .next u)
      (h : ScansTo t u) : ScansTo t w

theorem completes_scansTo {c : Byte} {s t : State} (h : Completes c s t) : ScansTo t (s.scanStart c) := by
  obtain ⟨-, hdone, k, hrun⟩ := completes_scan h
  obtain ⟨w, u, hback, -, hend⟩ := scan_induction (P := fun w => ScansTo t w → ScansTo t (s.scanStart c))
    (fun hback hf hd he hx h => hback (.step hf hd he hx h)) id (started_busy _ _) rfl hrun hdone
  exact hback (.conclude hend)

/-- A step of the scan moves SI at most to SLEN. -/
theorem exec_si_le_slen {s t : State} {i : Instr} (hsi : s.si ≤ s.slen) (hf : fetch s = .ok i) (hx : exec i s = .next t) :
    t.si ≤ t.slen := by
  obtain ⟨rest, hread⟩ := fetch_readsAs hf
  obtain ⟨pre, henc, -⟩ := hread.bytes
  rw [exec_si (fetch_isScan hf) henc hx, (exec_untouched (fetch_isScan hf) hx).slen_eq]
  rcases Nat.eq_zero_or_pos pre.length with h0 | hpos
  · omega
  · obtain ⟨hlast, -⟩ := hread.srcHas henc (pre.length - 1) (by omega)
    omega

/-! ### Two states of one scan -/

/-- Two states agree on all that a scan step reads: the mode, the source below SLEN, SI, LINE and the output so far. -/
structure Alike (s t : State) : Prop where
  op : t.op = s.op
  q : t.q = s.q
  eobCheck : t.cfg.eobCheck = s.cfg.eobCheck
  slen : t.slen = s.slen
  src : ∀ i, i < s.slen → t.srcByte i = s.srcByte i
  si : t.si = s.si
  line : t.line = s.line
  output : t.tgtList t.ti = s.tgtList s.ti

variable {s t u v : State}

/-- Two outputs of one content have one length and, at every index, one byte. -/
theorem tgtList_eq_iff {m n : Nat} :
    t.tgtList n = s.tgtList m ↔ n = m ∧ ∀ i, i < m → t.tgtByte i = s.tgtByte i := by
  constructor
  · intro h
    obtain rfl : n = m := by simpa using congrArg List.length h
    exact ⟨rfl, fun i hi => List.map_inj_left.1 h i (List.mem_range.2 hi)⟩
  · rintro ⟨rfl, h⟩
    exact List.map_congr_left fun i hi => h i (List.mem_range.1 hi)

theorem Alike.ti (h : Alike s t) : t.ti = s.ti := (tgtList_eq_iff.1 h.output).1

/-- The output's first n bytes agree too. -/
theorem Alike.output_take (h : Alike s t) {n : Nat} (hn : n ≤ s.ti) : t.tgtList n = s.tgtList n := by
  rw [← tgtList_take (s := t) (hn.trans_eq h.ti.symm), h.output, tgtList_take hn]

/-- Operations that leave the inputs alone keep two states alike when they move SI, LINE and the output alike. -/
theorem Alike.of_untouched (h : Alike s t) (hu : Untouched s u) (hv : Untouched t v) (hsi : v.si = u.si) (hline : v.line = u.line)
    (hout : v.tgtList v.ti = u.tgtList u.ti) : Alike u v where
  op := by rw [hv.op_eq, hu.op_eq, h.op]
  q := by rw [hv.q_eq, hu.q_eq, h.q]
  eobCheck := by rw [hv.cfg_eq, hu.cfg_eq, h.eobCheck]
  slen := by rw [hv.slen_eq, hu.slen_eq, h.slen]
  src i hi := by rw [hv.srcByte, hu.srcByte, h.src i (hu.slen_eq ▸ hi)]
  si := hsi
  line := hline
  output := hout

/-! ### The operations, side by side -/

theorem Alike.advance (h : Alike s t) (k : Nat) : Alike (s.advance k) (t.advance k) :=
  h.of_untouched (.refl s) (.refl t) (congrArg (· + k) h.si) h.line h.output

theorem Alike.setLine (h : Alike s t) {m n : Nat} (hmn : n = m) : Alike (s.setLine m) (t.setLine n) :=
  h.of_untouched (.refl s) (.refl t) h.si hmn h.output

theorem Alike.emitted (h : Alike s t) (bs : List Byte) : Alike (s.emitted bs) (t.emitted bs) :=
  h.of_untouched (emitted_untouched bs s) (emitted_untouched bs t) h.si h.line
    (by rw [emitted_tgtList, emitted_tgtList, h.output])

theorem Alike.takeBack (h : Alike s t) : Alike s.takeBack t.takeBack := by
  refine h.of_untouched (.refl s) (.refl t) h.si (congrArg (· - 1) h.line) ?_
  rw [State.takeBack_ti, State.takeBack_ti, h.ti]
  exact h.output_take (Nat.sub_le _ _)

theorem Alike.padSoft (h : Alike s t) (hsi : s.si ≤ s.slen) : padSoft t.srcByte t.si = padSoft s.srcByte s.si := by
  rw [h.si]
  exact padSoft_congr fun i hi => h.src i (hi.trans_le hsi)

/-- PADCHK from SI walks the same run of the source. -/
theorem Alike.padded (h : Alike s t) (hsi : s.si ≤ s.slen) : Alike s.loadRw.padded t.loadRw.padded := by
  have htaken : t.padTaken = s.padTaken := by
    rw [State.padTaken, h.padSoft hsi, h.si, padStart_congr fun i hi => h.src i (hi.trans_le hsi), State.padTaken]
  refine h.of_untouched (padded_untouched s.loadRw) (padded_untouched t.loadRw) h.si h.line ?_
  rw [padded_here_ti, padded_here_ti, htaken, h.ti]
  exact h.output_take (Nat.sub_le _ _)

theorem Alike.softBrk {k : Nat} (h : Alike s t) (hs : softBrk k s = .ok u) (ht : softBrk k t = .ok v) : Alike u v := by
  have hcond : (t.q = false ∧ lineLimit ≤ t.line + k) ↔ (s.q = false ∧ lineLimit ≤ s.line + k) := by rw [h.q, h.line]
  rcases softBrk_cases hs with ⟨hc, rfl⟩ | ⟨hc, -, rfl⟩ <;> rcases softBrk_cases ht with ⟨hc', rfl⟩ | ⟨hc', -, rfl⟩
  · exact h
  · exact absurd (hcond.1 hc') hc
  · exact absurd (hcond.2 hc) hc'
  · exact (h.emitted _).setLine rfl

theorem Alike.symbolOp {b : Byte} (h : Alike s t) (hs : symbolOp b s = .ok u) (ht : symbolOp b t = .ok v) : Alike u v := by
  obtain ⟨s', hs', rfl⟩ := symbolOp_next hs
  obtain ⟨t', ht', rfl⟩ := symbolOp_next ht
  have h' := h.softBrk hs' ht'
  exact (h'.emitted _).setLine (congrArg (· + 3) h'.line)

theorem Alike.flushes_iff (h : Alike s t) : t.flushes ↔ s.flushes := by
  rw [← endsInPad_iff_flushes, h.output, endsInPad_iff_flushes]

theorem Alike.flushWs (h : Alike s t) (hs : flushWs s = .ok u) (ht : flushWs t = .ok v) : Alike u v := by
  rcases flushWs_cases hs with ⟨hf, rfl⟩ | ⟨hf, -, hs⟩ <;> rcases flushWs_cases ht with ⟨hf', rfl⟩ | ⟨hf', -, ht⟩
  · exact h
  · exact absurd (h.flushes_iff.1 hf') hf
  · exact absurd (h.flushes_iff.2 hf) hf'
  · have hlast : t.tgtByte (t.ti - 1) = s.tgtByte (s.ti - 1) := by
      rw [h.ti]
      exact (tgtList_eq_iff.1 h.output).2 _ (Nat.sub_lt hf.1 Nat.one_pos)
    rw [hlast] at ht
    exact h.takeBack.symbolOp hs ht

/-! ### The steps, side by side -/

/-- Both scans fetch the same instruction. -/
theorem Alike.fetch {i j : Instr} (h : Alike s t) (hsi : s.si ≤ s.slen) (hs : fetch s = .ok i) (ht : fetch t = .ok j) : j = i := by
  obtain ⟨r, hr⟩ := decode_of_fetch hs
  obtain ⟨r', hr'⟩ := decode_of_fetch ht
  have hctx : t.ctx = s.ctx := by rw [State.ctx, State.ctx, h.op, h.q, h.padSoft hsi]
  rw [hctx, window_congr h.si h.slen h.src, hr] at hr'
  cases hr'
  rfl

/-- An instruction with an encoding does the same in both. -/
theorem Alike.exec {i : Instr} {pre : List Byte} (h : Alike s t) (hsi : s.si ≤ s.slen) (hscan : Instr.isScan i = true)
    (henc : encode i = some pre) (hs : exec i s = .next u) (ht : exec i t = .next v) : Alike u v := by
  cases i with
  | dec | enc | decq | encq => cases hscan
  | padchk | softbrk | symbol | flushws => cases henc
  | dEsc a b =>
    obtain ⟨-, rfl⟩ := exec_dEsc_next.1 hs
    obtain ⟨-, rfl⟩ := exec_dEsc_next.1 ht
    exact (h.emitted _).advance 3
  | dSoft e =>
    obtain ⟨-, rfl⟩ := exec_dSoft_next.1 hs
    obtain ⟨-, rfl⟩ := exec_dSoft_next.1 ht
    exact (h.padded hsi).advance _
  | dHard e =>
    obtain ⟨-, -, rfl⟩ := exec_dHard_next.1 hs
    obtain ⟨-, -, rfl⟩ := exec_dHard_next.1 ht
    exact ((h.padded hsi).emitted _).advance _
  | dUsc =>
    obtain ⟨-, rfl⟩ := exec_dUsc_next.1 hs
    obtain ⟨-, rfl⟩ := exec_dUsc_next.1 ht
    exact (h.emitted _).advance 1
  | dLit b =>
    obtain ⟨-, rfl⟩ := exec_dLit_next.1 hs
    obtain ⟨-, rfl⟩ := exec_dLit_next.1 ht
    exact (h.emitted _).advance 1
  | dDrop b =>
    rw [exec_dDrop] at hs ht
    cases hs
    cases ht
    exact h.advance 1
  | dEob =>
    rcases exec_dEob_next hs with ⟨hc, rfl⟩ | ⟨hc, -, rfl⟩ <;> rcases exec_dEob_next ht with ⟨hc', rfl⟩ | ⟨hc', -, rfl⟩
    · exact h
    · exact absurd (h.eobCheck.symm.trans hc') (by simp [hc])
    · exact absurd (h.eobCheck.symm.trans hc') (by simp [hc])
    · exact h.padded hsi
  | eLit b =>
    obtain ⟨s', hs', -, rfl⟩ := exec_eLit_next.1 hs
    obtain ⟨t', ht', -, rfl⟩ := exec_eLit_next.1 ht
    have h' := h.softBrk hs' ht'
    exact ((h'.emitted _).setLine (congrArg (· + 1) h'.line)).advance 1
  | eCrlf =>
    obtain ⟨s', hs', -, rfl⟩ := exec_eCrlf_next.1 hs
    obtain ⟨t', ht', -, rfl⟩ := exec_eCrlf_next.1 ht
    exact (((h.flushWs hs' ht').emitted _).setLine rfl).advance 2
  | eSym b =>
    obtain ⟨s', hs', rfl⟩ := exec_eSym_next.1 hs
    obtain ⟨t', ht', rfl⟩ := exec_eSym_next.1 ht
    exact (h.symbolOp hs' ht').advance 1
  | eEob => exact h.flushWs (exec_eEob_next.1 hs) (exec_eEob_next.1 ht)

/-- The instructions that two scans alike fetch are one, and what it answers is alike. -/
theorem Alike.step {i j : Instr} (h : Alike s t) (hsi : s.si ≤ s.slen) (hf : Machine.fetch s = .ok i)
    (hf' : Machine.fetch t = .ok j) (hx : Machine.exec i s = .next u) (hx' : Machine.exec j t = .next v) : j = i ∧ Alike u v := by
  obtain rfl := h.fetch hsi hf hf'
  obtain ⟨rest, hread⟩ := fetch_readsAs hf
  obtain ⟨pre, henc, -⟩ := hread.bytes
  exact ⟨rfl, h.exec hsi (fetch_isScan hf) henc hx hx'⟩

/-! ### The result -/

/-- Two scans from states alike have one result. -/
theorem ScansTo.result_eq {s' t' : State} (hs : ScansTo t s) (hs' : ScansTo t' s') (h : Alike s s') (hsi : s.si ≤ s.slen) :
    t'.tgtList t'.wlen = t.tgtList t.wlen := by
  induction hs generalizing s' with
  | conclude hend =>
    obtain ⟨i, hf, hi, hx⟩ := hend.action
    cases hs' with
    | conclude hend' =>
      obtain ⟨j, hf', -, hx'⟩ := hend'.action
      obtain ⟨-, h'⟩ := h.step hsi hf hf' hx hx'
      rw [hend'.result, hend.result, h'.output]
    | step hf' hd he hx' =>
      obtain ⟨rfl, -⟩ := h.step hsi hf hf' hx hx'
      exact absurd hi (not_or.2 ⟨hd, he⟩)
  | step hf hd he hx _ ih =>
    cases hs' with
    | conclude hend' =>
      obtain ⟨j, hf', hj, hx'⟩ := hend'.action
      obtain ⟨rfl, -⟩ := h.step hsi hf hf' hx hx'
      exact absurd hj (not_or.2 ⟨hd, he⟩)
    | step hf' _ _ hx' hscan' =>
      obtain ⟨-, h'⟩ := h.step hsi hf hf' hx hx'
      exact ih hscan' h' (exec_si_le_slen hsi hf hx)

/-- Settles O49: both scans start alike. -/
theorem commandIsAFunctionOfItsSource : Obligations.CommandIsAFunctionOfItsSource := by
  intro c s s' t t' hslen heob hsrc hs hs'
  have hstart : Alike (s.scanStart c) (s'.scanStart c) := ⟨rfl, rfl, heob, hslen, hsrc, rfl, rfl, rfl⟩
  exact tgtList_eq_iff.1 ((completes_scansTo hs).result_eq (completes_scansTo hs') hstart (Nat.zero_le _))

end Sys2Proof.Machine
end

section
/-! Between commands the block keeps its state, and no legal state leads to Overflow (spec/60_exceptions.md R183, R188, R192). -/

namespace Sys2Proof.Machine

/-- Settles O7: with nothing pending the turn is the engine's, and with no command in progress it does nothing. -/
theorem idleBlockKeepsItsState : Obligations.IdleBlockKeepsItsState := fun _ => step_idle

/-- From a legal state the engine keeps ERR: the scan goes on, or the post-check passes (R165, R171). -/
theorem engine_keeps_err {s t : State} {i : Instr} (hok : s.ScanOk) (hb : s.busy = true) (hf : fetch s = .ok i)
    (h : settle i (exec i s) = .next t) : t.err = s.err := by
  obtain ⟨u, hst, -, hu⟩ := engineStep_progress hok hb
  obtain rfl : u = t := by simpa [engineStep_of_fetch hb hf, h] using hst.symm
  rcases hu with ⟨hu, -⟩ | ⟨-, hend⟩
  · exact congrArg (BitVec.extractLsb' 2 2) hu.status_eq
  · exact hend.err

theorem QpError.code_ne_overflow {e : QpError} (he : e ≠ .overflow) : e.code ≠ QpError.overflow.code := by
  cases e with
  | invalidArgument => decide
  | bufferTooSmall => decide
  | overflow => exact absurd rfl he

/-- ISSUE reports none, or the error of a start check, and no start check's error is Overflow (R160 to R163). -/
theorem issue_err_ne_overflow (c : Byte) (s : State) : (issue c s).err ≠ QpError.overflow.code := by
  obtain ⟨-, h⟩ | ⟨-, e, he, h⟩ := issue_cases c s
  · rw [h, started_err]
    decide
  · rw [h, raise_err]
    exact QpError.code_ne_overflow he

theorem resetBlock_err (s : State) : (resetBlock s).err = 0#2 := statusWord_err 0#2 stIdle

/-- A legal state whose ERR is not Overflow. -/
def State.NoOverflow (s : State) : Prop := s.ScanOk ∧ s.err ≠ QpError.overflow.code

/-- Of ISSUE, a reset and the engine, which alone write ERR, none reports Overflow from a legal state. -/
theorem noOverflow_keptByEachMove : KeptByEachMove State.NoOverflow where
  host _ h := h
  read _ _ h := h
  engine := fun ⟨hok, herr⟩ hb hf h => ⟨engine_keeps_scanOk hok hb hf h, engine_keeps_err hok hb hf h ▸ herr⟩
  issue c _ _ := ⟨issue_scanOk c _, issue_err_ne_overflow c _⟩
  writeSlen := fun ⟨_, herr⟩ hb _ => ⟨scanOk_of_not_busy hb, herr⟩
  writeTcap := fun ⟨_, herr⟩ hb _ => ⟨scanOk_of_not_busy hb, herr⟩
  writeSrc := fun _ ⟨_, herr⟩ hb _ => ⟨scanOk_of_not_busy hb, herr⟩
  writeTgt := fun _ ⟨_, herr⟩ hb _ => ⟨scanOk_of_not_busy hb, herr⟩
  reset _ := ⟨scanOk_of_not_busy (resetBlock_not_busy _), by rw [resetBlock_err]; decide⟩

/-- Settles O44: no kind of step leads from a legal state without Overflow to one with it. -/
theorem overflowIsUnreachable : Obligations.OverflowIsUnreachable := by
  intro s t hok herr hst
  obtain ⟨-, h⟩ := noOverflow_keptByEachMove.step ⟨hok, herr⟩ hst
  exact h

end Sys2Proof.Machine
end
